-- ==== Sys2Proof/Word.lean ====
section
/-! DEFINITION. The word types of the block (00_scope.md R8): u8, u16, u32, and the signed 16-bit Measurement. -/

namespace Sys2Proof

/-- u8: a byte on the bus, a period rank operand. -/
abbrev Byte := BitVec 8

/-- u16: the host request word. -/
abbrev Word16 := BitVec 16

/-- u32: TIMEOUT_US, a timer sample. -/
abbrev Word32 := BitVec 32

/-- A period rank that has passed the range check, 0..7 (00_scope.md R7). -/
abbrev Rank := BitVec 3

/-- s16: a two's-complement 16-bit Measurement, held as its bits (00_scope.md R8). -/
abbrev Measurement := BitVec 16

end Sys2Proof
end

