-- ==== Sys2Proof/Syntax.lean ====
section
/-! DEFINITION. The instructions: the seven host requests of 30_encoding.md R74 and the three device command bytes of
30_encoding.md R66, one constructor per row of spec/opcode_table.json; and the two encoded forms they are read from. -/

namespace Sys2Proof

/-- The axes, in the enumeration order of 30_encoding.md R75. -/
inductive Axis where
  | x
  | y
  | z
  deriving DecidableEq, Repr, Inhabited

/-- The level of a pin (20_memory.md R46). -/
inductive Level where
  | low
  | high
  deriving DecidableEq, Repr, Inhabited

/-- One constructor per row of the opcode table.
`rank` of a request is the whole u8 PERIOD field: 8..255 decode and fail at execution (30_encoding.md R76).
`rank` of a device command is the 4-bit PERIOD field of the command byte (30_encoding.md R66). -/
inductive Instr where
  | encode (axis : Axis) (rank : Byte)
  | trigger (axis : Axis) (rank : Byte)
  | await (rank : Byte) (tmo : Word32)
  | readResult
  | readAxis (axis : Axis) (rank : Byte) (tmo : Word32)
  | sampleAll
  | init
  | cmdX (rank : BitVec 4)
  | cmdY (rank : BitVec 4)
  | cmdZ (rank : BitVec 4)
  deriving DecidableEq, Repr

/-- A host request: the 16-bit word and the TIMEOUT_US operand beside it (30_encoding.md R73). -/
structure HostRequest where
  word : Word16
  tmo : Word32
  deriving DecidableEq, Repr

/-- What is decoded: a host request, or a device command byte (30_encoding.md R65). -/
inductive Code where
  | request (r : HostRequest)
  | command (b : Byte)
  deriving DecidableEq, Repr

end Sys2Proof
end

