-- ==== Sys2Proof/Config.lean ====
section
/-! DEFINITION. What the spec leaves to the implementation (the OPEN parameters of 00_scope.md R7) and the free values:
opaque constants, of which nothing can be proved but their type (log 2, log 3, log 4, log 13). -/

namespace Sys2Proof.Config

/-- BUS_CLOCK_DIV, OPEN (92_eei_decisions.md D15). -/
opaque busClockDiv : Nat

/-- BUS_MODE, clock polarity and phase, OPEN (92_eei_decisions.md D15). -/
opaque busMode : Nat

/-- DRDY_ACTIVE_LEVEL, OPEN, 0 or 1 (42_ready_poll.md R109). -/
opaque drdyActiveLevel : Level

/-- POLL_GAP_MAX_US, OPEN: bounds the time between two timer samples of one poll (42_ready_poll.md R107).
No step reads it; statements about the end of a poll name it. -/
opaque pollGapMaxUs : Nat

/-- PIN_DRDY, the identity of the DATA-READY pin: configuration, not state (10_state.md R35). -/
opaque pinDrdy : Nat

/-- PIN_RST, the identity of the RESET pin (10_state.md R35). -/
opaque pinRst : Nat

/-- PIN_CS, the identity of the CHIP-SELECT pin (10_state.md R35). -/
opaque pinCs : Nat

/-- Free value: the level the sensor shows at draw `n` (20_memory.md R53). -/
opaque freeLevel : Nat → Level

/-- Free value: the byte the sensor drives at draw `n` (20_memory.md R50). -/
opaque freeByte : Nat → Byte

/-- Free value: the microseconds that pass before the timer sample of draw `n` (60_exceptions.md R170). -/
opaque freeGap : Nat → Nat

/-- Free value: the timer's count at reset; "its origin is arbitrary" (60_exceptions.md R170). -/
opaque timerOrigin : Nat

/-- Free value: the level RESET drives, at draw count `n`, between its PinMode(OUTPUT) and its first PinWrite
(93_implementation_defined.md U5). -/
opaque bindLevelRst : Nat → Level

/-- Free value: the same for CHIP-SELECT (93_implementation_defined.md U5). -/
opaque bindLevelCs : Nat → Level

end Sys2Proof.Config
end

