-- ==== Sys2Proof/Machine/State.lean ====
section
/-! DEFINITION. The state of the block (10_state.md R20 to R37), its observation (20_memory.md R47, 30_encoding.md R79),
the agents' answers as plain data (00_scope.md R6), the reasons a step can stop, and the state after reset. -/

namespace Sys2Proof.Machine

/-- BIND (10_state.md R21). -/
inductive Binding where
  | unbound
  | bound
  deriving DecidableEq, Repr

/-- An output latch: Z (not driven) or a level (10_state.md R22, R23). -/
inductive Latch where
  | z
  | drive (l : Level)
  deriving DecidableEq, Repr

/-- A pin direction (10_state.md R25). -/
inductive Direction where
  | unset
  | input
  | output
  deriving DecidableEq, Repr

/-- The pins (20_memory.md R45). -/
inductive Pin where
  | drdy
  | rst
  | cs
  deriving DecidableEq, Repr

/-- The pins a PinWrite drives (20_memory.md R52). -/
inductive OutPin where
  | rst
  | cs
  deriving DecidableEq, Repr

/-- The bit order of the bus: MSB first, fixed (20_memory.md R48). -/
inductive BitOrder where
  | msbFirst
  deriving DecidableEq, Repr

/-- A bus configuration (10_state.md R24). -/
structure BusConfig where
  div : Nat
  mode : Nat
  order : BitOrder
  deriving DecidableEq, Repr

/-- The events of a trace (20_memory.md R47). -/
inductive Event where
  | pinMode (p : Pin) (d : Direction)
  | pinWrite (p : OutPin) (l : Level)
  | drdySample (l : Level)
  | busCfg (c : BusConfig)
  | xfer (out inp : Byte)
  | delay (us : Nat)
  | timeSample (t : Word32)
  deriving DecidableEq, Repr

/-- STATUS (30_encoding.md R79). -/
inductive Status where
  | ok
  | invalidPeriod
  | timeout
  | rejected
  deriving DecidableEq, Repr

/-- The response record; a field an operation does not return is 0 (30_encoding.md R79). -/
structure Response where
  status : Status
  cmd8 : Byte := 0#8
  meas : Measurement := 0#16
  x : Measurement := 0#16
  y : Measurement := 0#16
  z : Measurement := 0#16
  valid : Bool := false
  success : Bool := false
  deriving DecidableEq, Repr

/-- The phases of a trigger (10_state.md R32). -/
inductive TrigPhase where
  | tCheck
  | tSel
  | tRstHi
  | tHold
  | tRstLo
  | tCmd
  deriving DecidableEq, Repr

/-- The phases of a poll (10_state.md R32). -/
inductive WaitPhase where
  | aResolve
  | aStart
  | aSample
  | aTime
  deriving DecidableEq, Repr

/-- The phases of a result read (10_state.md R32). -/
inductive ReadPhase where
  | rHi
  | rLo
  | rDesel
  deriving DecidableEq, Repr

/-- The phases of a single-axis read: trigger, then poll, then result read (10_state.md R32). -/
inductive AxisPhase where
  | trig (p : TrigPhase)
  | wait (p : WaitPhase)
  | read (p : ReadPhase)
  deriving DecidableEq, Repr

/-- The bind phases of INIT (10_state.md R32). -/
inductive BindPhase where
  | bDirDrdy
  | bDirRst
  | bDirCs
  | bCsHi
  | bRstLo
  deriving DecidableEq, Repr

/-- An operation in progress and its next phase (10_state.md R32), with the operands the rest of it reads (log 7).
ENCODE has no phase: it completes in one step. -/
inductive Phase where
  | trigger (axis : Axis) (rank : Byte) (p : TrigPhase)
  | await (rank : Byte) (tmo : Word32) (p : WaitPhase)
  | readResult (p : ReadPhase)
  | readAxis (axis : Axis) (rank : Byte) (tmo : Word32) (p : AxisPhase)
  | sInit
  | sSel
  | sSettle
  | sCfg
  | sAxis (k : Axis) (p : AxisPhase)
  | sDesel
  | iCfg
  | iBind (p : BindPhase)
  | iRead (p : AxisPhase)
  deriving DecidableEq, Repr

/-- SEQ (10_state.md R32). -/
inductive Seq where
  | idle
  | busy (ph : Phase)
  deriving DecidableEq, Repr

/-- The state: the spec's registers, then the observation, then the agents' answers (INVENTORY.md, State). -/
@[ext]
structure State where
  /-- BIND, R21. -/
  bind : Binding
  /-- CS_LVL, R22. -/
  csLvl : Latch
  /-- RST_LVL, R23. -/
  rstLvl : Latch
  /-- DIR_DRDY, R25. -/
  dirDrdy : Direction
  /-- DIR_RST, R25. -/
  dirRst : Direction
  /-- DIR_CS, R25. -/
  dirCs : Direction
  /-- BUS_CFG, R24; `none` is UNSET. -/
  busCfg : Option BusConfig
  /-- CMD, R27. -/
  cmd : Byte
  /-- T_RES, R28. -/
  tRes : Word32
  /-- T0, R28. -/
  t0 : Word32
  /-- HI, R29. -/
  hi : Byte
  /-- LO, R29. -/
  lo : Byte
  /-- SX, R30. -/
  sx : Measurement
  /-- SY, R30. -/
  sy : Measurement
  /-- SZ, R30. -/
  sz : Measurement
  /-- VALID, R31. -/
  valid : Bool
  /-- SEQ, R32. -/
  seq : Seq
  /-- The trace of the request in progress or last ended, oldest event first (20_memory.md R47; log 11). -/
  trace : List Event
  /-- The response of the last ended request (30_encoding.md R79; log 11). -/
  response : Option Response
  /-- The host's requests not yet accepted, in order (00_scope.md R6; log 5). -/
  requests : List HostRequest
  /-- The sensor's next DATA-READY levels (20_memory.md R53; log 3). -/
  drdyIn : List Level
  /-- The sensor's next bytes (20_memory.md R50; log 3). -/
  busIn : List Byte
  /-- The microseconds before each next timer sample (60_exceptions.md R170; log 3). -/
  gapIn : List Nat
  /-- The timer's true elapsed microseconds (60_exceptions.md R170; log 4). -/
  tau : Nat
  /-- How many answers have been drawn: the index of the next free value (log 3). -/
  draws : Nat
  deriving DecidableEq, Repr

/-- Why the machine stops with a fault. -/
inductive Fault where
  /-- Raised by a meaning or a phase that would perform a PinWrite of a pin that is not an output: PinWrite
  "is admitted only while the pin's direction is OUTPUT" (20_memory.md R52; log 10). SAFE: the block gives no
  effect there, and no run from reset comes to it. -/
  | pinNotOutput
  deriving DecidableEq, Repr

/-- Why the machine refuses. -/
inductive Refusal where
  /-- Raised by an arm of exec whose instruction has no meaning yet. SAFE: nothing follows from a refusal. -/
  | notModelled (mnemonic : String)
  /-- Raised by a request's meaning in a state whose SEQ is not IDLE: "a request while BUSY has no move"
  (60_exceptions.md R166; log 9). SAFE: `step` never runs a request there. -/
  | requestWhileBusy
  /-- Raised for a device command byte the block never emits (30_encoding.md R70, 93_implementation_defined.md U6 'refuse';
  log 8). SAFE: no run from reset comes to it. -/
  | illegalCommandByte
  deriving DecidableEq, Repr

/-- The state after power-on reset (10_state.md R37, 70_reset_and_hazards.md R185). The registers R37 leaves unspecified
hold zero (log 1); no event, no response, no request, no answer lined up (log 3, log 5, log 11); the timer's origin is
free (log 4). -/
def State.reset : State where
  bind := .unbound
  csLvl := .z
  rstLvl := .z
  dirDrdy := .unset
  dirRst := .unset
  dirCs := .unset
  busCfg := none
  cmd := 0#8
  tRes := 0#32
  t0 := 0#32
  hi := 0#8
  lo := 0#8
  sx := 0#16
  sy := 0#16
  sz := 0#16
  valid := false
  seq := .idle
  trace := []
  response := none
  requests := []
  drdyIn := []
  busIn := []
  gapIn := []
  tau := Config.timerOrigin
  draws := 0

end Sys2Proof.Machine
end

