-- ==== Sys2Proof/Machine/Params.lean ====
section
/-! DEFINITION. The block's parameters that the spec gives a value (00_scope.md R7). -/

namespace Sys2Proof.Machine

/-- RESET_HOLD_US. -/
def resetHoldUs : Nat := 1

/-- SETTLE_US. -/
def settleUs : Nat := 2000

/-- SAMPLE_PERIOD, the shortest rank. -/
def samplePeriod : Byte := 0#8

/-- INIT_AXIS (90_conflicts.md C3). -/
def initAxis : Axis := .x

/-- INIT_PERIOD. -/
def initPeriod : Byte := 0#8

/-- The TIMEOUT_US operand that asks for the default (30_encoding.md R77). -/
def useDefault : Word32 := 0#32

/-- PLACEHOLDER_BYTE (20_memory.md R50). -/
def placeholderByte : Byte := 0x00#8

/-- The one configuration BusCfg writes: BUS_CLOCK_DIV, BUS_MODE, MSB_FIRST (20_memory.md R51). -/
def fixedBusConfig : BusConfig := ⟨Config.busClockDiv, Config.busMode, .msbFirst⟩

/-- AXIS_COUNT: the axes in the order SAMPLE_ALL reads them (00_scope.md R7, 44_axis_sequencer.md R130). -/
def axisOrder : List Axis := [.x, .y, .z]

/-- PERIOD_CYCLES(r): the measurement period in sensor clock cycles (30_encoding.md R68). No step reads it. -/
def periodCycles (r : Rank) : Nat := 32 * 2 ^ r.toNat

/-- The identity of a pin: configuration (10_state.md R35). No step reads it; events name the pins by role. -/
def pinIdentity : Pin → Nat
  | .drdy => Config.pinDrdy
  | .rst => Config.pinRst
  | .cs => Config.pinCs

/-- TIMEOUT_TABLE, in microseconds, exactly as listed (10_state.md R26). -/
def timeoutTable (r : Rank) : Word32 :=
  match r.toNat with
  | 0 => 501#32
  | 1 => 1001#32
  | 2 => 2001#32
  | 3 => 4001#32
  | 4 => 7501#32
  | 5 => 15001#32
  | 6 => 35501#32
  | _ => 60001#32

end Sys2Proof.Machine
end

