-- ==== Sys2Proof/Machine/Operands.lean ====
section
/-! DEFINITION. The operand forms and the pure datapath: the command encoder (40_command_encoder.md R85), timeout
resolution and elapsed time (42_ready_poll.md R100, R104, R105), the big-endian composer (43_result_read.md R115). -/

namespace Sys2Proof.Machine

/-- The select code of an axis (30_encoding.md R67). -/
def selectCode : Axis → Byte
  | .x => 1#8
  | .y => 2#8
  | .z => 3#8

/-- `period > 7`, unsigned over the whole u8 operand (40_command_encoder.md R85, 42_ready_poll.md R101). -/
def rankOutOfRange (period : Byte) : Bool := 7#8 < period

/-- `encodeCommand` (40_command_encoder.md R85); `none` is InvalidPeriod. -/
def encodeCommand (axis : Axis) (period : Byte) : Option Byte :=
  if rankOutOfRange period then none
  else some (selectCode axis ||| ((period.extractLsb' 0 4).setWidth 8 <<< 4))

/-- The rank of a PERIOD operand that has passed the range check. -/
def rankOf (period : Byte) : Rank := period.extractLsb' 0 3

/-- `resolveTimeout` (42_ready_poll.md R100): 0 selects the table, anything else is used unchanged. -/
def resolveTimeout (r : Rank) (tmo : Word32) : Word32 :=
  if tmo = useDefault then timeoutTable r else tmo

/-- Elapsed time between two timer samples, modulo 2^32 (42_ready_poll.md R104). -/
def elapsed (t t0 : Word32) : Word32 := t - t0

/-- The strict deadline test (42_ready_poll.md R105). -/
def pastDeadline (t t0 tRes : Word32) : Bool := tRes < elapsed t t0

/-- The poll's ready test (42_ready_poll.md R109). -/
def isReady (l : Level) : Bool := l = Config.drdyActiveLevel

/-- `compose(hi, lo)`: shift and combine on unsigned bytes (43_result_read.md R115). -/
def compose (hi lo : Byte) : Measurement := (hi.setWidth 16 <<< 8) ||| lo.setWidth 16

/-- `as_s16`: the signed value of a Measurement's bits (00_scope.md R8). -/
def asS16 (u : Measurement) : Int :=
  if u.toNat < 0x8000 then (u.toNat : Int) else (u.toNat : Int) - 0x10000

/-- The command byte of an axis and a 4-bit PERIOD field (30_encoding.md R66). -/
def commandByte (axis : Axis) (rank : BitVec 4) : Byte := selectCode axis ||| (rank.setWidth 8 <<< 4)

/-- The bits of a byte in the order they stand on the bus: MSB first (20_memory.md R48; log 17). -/
def wireBits (order : BitOrder) (b : Byte) : List Bool :=
  match order with
  | .msbFirst =>
    [b.getLsbD 7, b.getLsbD 6, b.getLsbD 5, b.getLsbD 4, b.getLsbD 3, b.getLsbD 2, b.getLsbD 1, b.getLsbD 0]

end Sys2Proof.Machine
end

