-- ==== Sys2Proof/Machine/Ops.lean ====
section
/-! DEFINITION. The named operations: the agents' answers, the interface primitives of 00_scope.md R9, accepting and
ending a request (00_scope.md R10), and the checks before one. The block has no trap: `endWith` is the one operation by
which an error ends a request (60_exceptions.md R160), and there is nothing to return from (60_exceptions.md R162). -/

namespace Sys2Proof.Machine

/-- The outcome of a step. -/
abbrev Result := Host.Outcome State Fault Refusal

/-! ### The agents' answers (log 3) -/

/-- The sensor's next DATA-READY level: the next one lined up, otherwise a free value (20_memory.md R53). -/
def drawLevel (s : State) : Level × State :=
  (s.drdyIn.headD (Config.freeLevel s.draws), { s with drdyIn := s.drdyIn.tail, draws := s.draws + 1 })

/-- The sensor's next byte (20_memory.md R50). -/
def drawByte (s : State) : Byte × State :=
  (s.busIn.headD (Config.freeByte s.draws), { s with busIn := s.busIn.tail, draws := s.draws + 1 })

/-- The time before the next timer sample (60_exceptions.md R170). -/
def drawGap (s : State) : Nat × State :=
  (s.gapIn.headD (Config.freeGap s.draws), { s with gapIn := s.gapIn.tail, draws := s.draws + 1 })

/-! ### The interface primitives (00_scope.md R9): each appends exactly one event -/

/-- Record an event (20_memory.md R47). -/
def emit (e : Event) (s : State) : State := { s with trace := s.trace ++ [e] }

/-- `PinMode(p, m)`. -/
def pinMode (p : Pin) (d : Direction) (s : State) : State :=
  match p with
  | .drdy => emit (.pinMode .drdy d) { s with dirDrdy := d }
  | .rst => emit (.pinMode .rst d) { s with dirRst := d }
  | .cs => emit (.pinMode .cs d) { s with dirCs := d }

/-- `PinWrite(p, v)`: the latch takes the level and the event is recorded, also when the level is the one it has
(20_memory.md R52). Its callers hold the pins to be outputs (`guardPins`). -/
def pinWrite (p : OutPin) (l : Level) (s : State) : State :=
  match p with
  | .rst => emit (.pinWrite .rst l) { s with rstLvl := .drive l }
  | .cs => emit (.pinWrite .cs l) { s with csLvl := .drive l }

/-- `BusCfg(div, mode, order)` with the fixed values (20_memory.md R51). -/
def applyBusCfg (s : State) : State :=
  emit (.busCfg fixedBusConfig) { s with busCfg := some fixedBusConfig }

/-- `Xfer(b)`: the byte received and the state after (20_memory.md R50). -/
def xfer (b : Byte) (s : State) : Byte × State :=
  ((drawByte s).1, emit (.xfer b (drawByte s).1) (drawByte s).2)

/-- `PinRead(DRDY)` (20_memory.md R53). -/
def pinRead (s : State) : Level × State :=
  ((drawLevel s).1, emit (.drdySample (drawLevel s).1) (drawLevel s).2)

/-- `Delay(us)`: at least `us` microseconds pass (60_exceptions.md R171); a longer wait is part of the next timer
sample's gap (log 4). -/
def delay (us : Nat) (s : State) : State := emit (.delay us) { s with tau := s.tau + us }

/-- The timer's count for a true time: modulo 2^32 (60_exceptions.md R170). -/
def timerCount (tau : Nat) : Word32 := BitVec.ofNat 32 tau

/-- `Now()`: time passes, then the count is sampled (60_exceptions.md R170). -/
def now (s : State) : Word32 × State :=
  let tau := s.tau + (drawGap s).1
  (timerCount tau, emit (.timeSample (timerCount tau)) { (drawGap s).2 with tau := tau })

/-! ### Accepting and ending a request -/

/-- Acceptance: a new trace begins and no response stands (20_memory.md R47; log 11). -/
def accept (s : State) : State := { s with trace := [], response := none }

/-- The response is presented and SEQ returns to IDLE (10_state.md R32). -/
def respond (r : Response) (s : State) : State := { s with response := some r, seq := .idle }

/-- `raise E` at the top of a request: the request ends with the status, every other field of the response 0, and
nothing else changes (00_scope.md R10, 60_exceptions.md R160, 30_encoding.md R79). -/
def endWith (st : Status) (s : State) : State := respond { status := st } s

/-- A rejected request completes at once with status REJECTED and an empty trace (30_encoding.md R78). -/
def reject (s : State) : State := endWith .rejected (accept s)

/-- SEQ <- BUSY at a phase. -/
def goPhase (ph : Phase) (s : State) : State := { s with seq := .busy ph }

/-- Before a request's own effect: SEQ must be IDLE (10_state.md R32, 60_exceptions.md R166; log 9); while Unbound only
the requests that touch no bound pin are admitted (70_reset_and_hazards.md R187; log 14); then it is accepted. -/
def admitted (needsBound : Bool) (s : State) (body : State → Result) : Result :=
  if s.seq ≠ .idle then .refused .requestWhileBusy
  else if needsBound = true ∧ s.bind = .unbound then .next (reject s)
  else body (accept s)

/-- Whether the direction of a pin is OUTPUT (20_memory.md R52). -/
def isOutput (s : State) : OutPin → Bool
  | .rst => s.dirRst = .output
  | .cs => s.dirCs = .output

/-- Whether both driven pins are outputs. -/
def pinsOutput (s : State) : Bool := isOutput s .rst && isOutput s .cs

/-- A part runs only while every pin it drives is an output (20_memory.md R52; log 10). -/
def guardPins (drives : List OutPin) (s : State) (r : Result) : Result :=
  if drives.all (isOutput s) then r else .fault .pinNotOutput

/-! ### What stands at a pin -/

/-- The level of a driven pin from its latch; `none` when the latch is Z. -/
def latchLevel : Latch → Option Level
  | .z => none
  | .drive l => some l

/-- The level at RESET or CHIP-SELECT, `none` when not driven. Between PinMode(OUTPUT) and the pin's first PinWrite in
BindPins it is a free value (93_implementation_defined.md U5; log 13). -/
def pinLevel (p : OutPin) (s : State) : Option Level :=
  match p, s.seq with
  | .rst, .busy (.iBind .bDirCs) => some (Config.bindLevelRst s.draws)
  | .rst, .busy (.iBind .bCsHi) => some (Config.bindLevelRst s.draws)
  | .rst, .busy (.iBind .bRstLo) => some (Config.bindLevelRst s.draws)
  | .cs, .busy (.iBind .bCsHi) => some (Config.bindLevelCs s.draws)
  | .rst, _ => latchLevel s.rstLvl
  | .cs, _ => latchLevel s.csLvl

end Sys2Proof.Machine
end

