-- ==== Sys2Proof/Machine/Flags.lean ====
section
/-! DEFINITION. The one flag of the block, the validity latch VALID, with the sample registers it belongs to
(10_state.md R30, R31; 44_axis_sequencer.md R128, R129), and the two result bits of responses (30_encoding.md R79). -/

namespace Sys2Proof.Machine

/-- STATUS codes (30_encoding.md R79). -/
def statusCode : Status → Nat
  | .ok => 0
  | .invalidPeriod => 1
  | .timeout => 2
  | .rejected => 3

/-- "Validity starts true": once, at the start of a SAMPLE_ALL (44_axis_sequencer.md R128). -/
def startValid (s : State) : State := { s with valid := true }

/-- Write the sample register of an axis (10_state.md R30). -/
def writeSample (k : Axis) (m : Measurement) (s : State) : State :=
  match k with
  | .x => { s with sx := m }
  | .y => { s with sy := m }
  | .z => { s with sz := m }

/-- One axis of a pass ends: its measurement is latched, or 0 is and VALID is cleared, sticky for the pass
(44_axis_sequencer.md R127, R128, R129). -/
def latchAxis (k : Axis) (r : Status × Measurement) (s : State) : State :=
  if r.1 = .ok then writeSample k r.2 s
  else { writeSample k 0#16 s with valid := false }

/-- SUCCESS of INIT: 1 exactly when the read's status is OK (45_initialization.md R147). -/
def successOf (st : Status) : Bool := st = .ok

end Sys2Proof.Machine
end

