-- ==== Sys2Proof/Machine/Poll.lean ====
section
/-! DEFINITION. The ready poll with timeout (42_ready_poll.md R100 to R109). A poll's result is `some` status when it has
ended and `none` while it goes on: one step runs it through every level lined up, at least one turn, and a poll that
has not ended by then leaves the block BUSY (log 7). -/

namespace Sys2Proof.Machine

/-- One turn of the loop: the DATA-READY sample first, then the timer sample and the deadline (42_ready_poll.md R103). -/
def pollTurn (s : State) : Option Status × State :=
  let r := pinRead s
  if isReady r.1 then (some .ok, r.2)
  else
    let n := now r.2
    if pastDeadline n.1 n.2.t0 n.2.tRes then (some .timeout, n.2) else (none, n.2)

/-- At most `n` turns of the loop (42_ready_poll.md R102). -/
def pollLoop : Nat → State → Option Status × State
  | 0, s => (none, s)
  | n + 1, s =>
    let r := pollTurn s
    match r.1 with
    | some st => (some st, r.2)
    | none => pollLoop n r.2

/-- T_RES and T0 are captured, in this order (42_ready_poll.md R102). -/
def startPoll (rank : Byte) (tmo : Word32) (s : State) : State :=
  let n := now { s with tRes := resolveTimeout (rankOf rank) tmo }
  { n.2 with t0 := n.1 }

/-- The poll's body (42_ready_poll.md R102), for AWAIT and for READ_AXIS: as many turns as levels are lined up, and at
least one (log 7). -/
def awaitBody (rank : Byte) (tmo : Word32) (s : State) : Option Status × State :=
  if rankOutOfRange rank then (some .invalidPeriod, s)
  else pollLoop (s.drdyIn.length - 1 + 1) (startPoll rank tmo s)

/-- AWAIT (42_ready_poll.md R102): no pin is written, nothing is transferred. -/
def execAwait (rank : Byte) (tmo : Word32) (s : State) : Result :=
  admitted true s fun s =>
    .next (match awaitBody rank tmo s with
      | (some st, s') => endWith st s'
      | (none, s') => goPhase (.await rank tmo .aSample) s')

end Sys2Proof.Machine
end

