-- ==== Sys2Proof/Machine/ResultRead.lean ====
section
/-! DEFINITION. The result read (43_result_read.md R116). -/

namespace Sys2Proof.Machine

/-- HI <- Xfer(PLACEHOLDER_BYTE). -/
def readHi (s : State) : State := { (xfer placeholderByte s).2 with hi := (xfer placeholderByte s).1 }

/-- LO <- Xfer(PLACEHOLDER_BYTE). -/
def readLo (s : State) : State := { (xfer placeholderByte s).2 with lo := (xfer placeholderByte s).1 }

/-- The read's body: two transfers, deselect, compose (43_result_read.md R116), for READ_RESULT and for READ_AXIS. -/
def readBody (s : State) : Measurement × State :=
  let s' := readLo (readHi s)
  (compose s'.hi s'.lo, pinWrite .cs .high s')

/-- READ_RESULT: always OK, no check of readiness or of CS (43_result_read.md R116, R117). -/
def execReadResult (s : State) : Result :=
  admitted true s fun s =>
    guardPins [.cs] s
      (.next (respond { status := .ok, meas := (readBody s).1 } (readBody s).2))

end Sys2Proof.Machine
end

