-- ==== Sys2Proof/Machine/Trigger.lean ====
section
/-! DEFINITION. The reset-pulse generator and the conversion trigger (41_conversion_trigger.md R90, R91). -/

namespace Sys2Proof.Machine

/-- `ResetPulse()` (41_conversion_trigger.md R90). -/
def resetPulse (s : State) : State :=
  pinWrite .rst .low (delay resetHoldUs (pinWrite .rst .high s))

/-- Sending a command byte: one Xfer, the received byte discarded (30_encoding.md R71, 20_memory.md R50). -/
def sendCommand (s : State) : State := (xfer s.cmd s).2

/-- The trigger's body (41_conversion_trigger.md R91), for TRIGGER and for READ_AXIS. -/
def triggerBody (axis : Axis) (rank : Byte) (s : State) : Status × State :=
  match encodeCommand axis rank with
  | none => (.invalidPeriod, s)
  | some c => (.ok, sendCommand (resetPulse (pinWrite .cs .low { s with cmd := c })))

/-- The pins a trigger drives: CHIP-SELECT and RESET, none when the encoder fails (41_conversion_trigger.md R91). -/
def triggerDrives (rank : Byte) : List OutPin := if rankOutOfRange rank then [] else [.cs, .rst]

/-- TRIGGER (41_conversion_trigger.md R91). CS is left low (R92). -/
def execTrigger (axis : Axis) (rank : Byte) (s : State) : Result :=
  admitted true s fun s =>
    guardPins (triggerDrives rank) s
      (.next (endWith (triggerBody axis rank s).1 (triggerBody axis rank s).2))

end Sys2Proof.Machine
end

