-- ==== Sys2Proof/Machine/AxisSequencer.lean ====
section
/-! DEFINITION. The single-axis read and the three-axis sequencer (44_axis_sequencer.md R125 to R133). -/

namespace Sys2Proof.Machine

/-- The single-axis read's body (44_axis_sequencer.md R125): trigger, poll, read; a failure ends it with Measurement 0 and
no result byte transferred; `none` while its poll goes on. -/
def readAxisBody (axis : Axis) (rank : Byte) (tmo : Word32) (s : State) : Option (Status × Measurement) × State :=
  match triggerBody axis rank s with
  | (.ok, s1) =>
    match awaitBody rank tmo s1 with
    | (some .ok, s2) => (some (.ok, (readBody s2).1), (readBody s2).2)
    | (some e, s2) => (some (e, 0#16), s2)
    | (none, s2) => (none, s2)
  | (e, s1) => (some (e, 0#16), s1)

/-- The response of READ_AXIS (30_encoding.md R79). -/
def axisResponse (r : Status × Measurement) : Response := { status := r.1, meas := r.2 }

/-- READ_AXIS (44_axis_sequencer.md R125). -/
def execReadAxis (axis : Axis) (rank : Byte) (tmo : Word32) (s : State) : Result :=
  admitted true s fun s =>
    guardPins (triggerDrives rank) s
      (.next (match readAxisBody axis rank tmo s with
        | (some r, s') => respond (axisResponse r) s'
        | (none, s') => goPhase (.readAxis axis rank tmo (.wait .aSample)) s'))

/-- SAMPLE_ALL before its first axis: VALID 1, select, settle, bus configuration (44_axis_sequencer.md R127). -/
def openSample (s : State) : State :=
  applyBusCfg (delay settleUs (pinWrite .cs .low (startValid s)))

/-- The response of SAMPLE_ALL: STATUS always OK (30_encoding.md R79, 44_axis_sequencer.md R127). -/
def sampleResponse (s : State) : Response :=
  { status := .ok, x := s.sx, y := s.sy, z := s.sz, valid := s.valid }

/-- SAMPLE_ALL after its last axis: deselect and respond (44_axis_sequencer.md R127). -/
def closeSample (s : State) : State :=
  respond (sampleResponse (pinWrite .cs .high s)) (pinWrite .cs .high s)

/-- The axes of a pass in order, each attempted once whatever the earlier ones returned (44_axis_sequencer.md R130), at
rank 0 with the default timeout; then the end of the pass. A poll that goes on leaves the block BUSY at its axis. -/
def sampleFrom : List Axis → State → State
  | [], s => closeSample s
  | k :: ks, s =>
    match readAxisBody k samplePeriod useDefault s with
    | (some r, s') => sampleFrom ks (latchAxis k r s')
    | (none, s') => goPhase (.sAxis k (.wait .aSample)) s'

/-- SAMPLE_ALL (44_axis_sequencer.md R127). -/
def execSampleAll (s : State) : Result :=
  admitted true s fun s => guardPins [.cs, .rst] s (.next (sampleFrom axisOrder (openSample s)))

end Sys2Proof.Machine
end

