-- ==== Sys2Proof/Machine/Initialization.lean ====
section
/-! DEFINITION. Binding the pins and INIT (45_initialization.md R145 to R149). -/

namespace Sys2Proof.Machine

/-- `BindPins()` (45_initialization.md R145). -/
def bindPins (s : State) : State :=
  { pinWrite .rst .low (pinWrite .cs .high
      (pinMode .cs .output (pinMode .rst .output (pinMode .drdy .input s)))) with bind := .bound }

/-- The response of INIT: the throwaway read's status and SUCCESS; its Measurement is dropped (45_initialization.md R147). -/
def initResponse (st : Status) : Response := { status := st, success := successOf st }

/-- INIT's one throwaway read and its end (45_initialization.md R146). -/
def throwawayRead (s : State) : State :=
  match readAxisBody initAxis initPeriod useDefault s with
  | (some r, s') => respond (initResponse r.1) s'
  | (none, s') => goPhase (.iRead (.wait .aSample)) s'

/-- INIT (45_initialization.md R146): admitted whether Unbound or Bound; a second INIT runs it all again (R149). -/
def execInit (s : State) : Result :=
  admitted false s fun s => .next (throwawayRead (bindPins (applyBusCfg s)))

end Sys2Proof.Machine
end

