-- ==== Sys2Proof/Machine/Sequencer.lean ====
section
/-! DEFINITION. The sequencer, one phase at a time (10_state.md R32): what a BUSY block does next. It resumes a request
whose poll has not ended, and it is where a device command byte is sent (phase T_CMD). Each phase performs at most one
interface event. -/

namespace Sys2Proof.Machine

/-- After a phase: another phase of the same part, or the part has ended with a result. -/
inductive Onward (P R : Type) where
  | goto (p : P)
  | done (r : R)
  deriving DecidableEq, Repr

/-- The phases of a trigger (10_state.md R32, 41_conversion_trigger.md R91). -/
def trigPhase (axis : Axis) (rank : Byte) (p : TrigPhase) (s : State) : Onward TrigPhase Status × State :=
  match p with
  | .tCheck =>
    match encodeCommand axis rank with
    | none => (.done .invalidPeriod, s)
    | some c => (.goto .tSel, { s with cmd := c })
  | .tSel => (.goto .tRstHi, pinWrite .cs .low s)
  | .tRstHi => (.goto .tHold, pinWrite .rst .high s)
  | .tHold => (.goto .tRstLo, delay resetHoldUs s)
  | .tRstLo => (.goto .tCmd, pinWrite .rst .low s)
  | .tCmd => (.done .ok, sendCommand s)

/-- The phases of a poll (10_state.md R32, 42_ready_poll.md R102). -/
def waitPhase (rank : Byte) (tmo : Word32) (p : WaitPhase) (s : State) : Onward WaitPhase Status × State :=
  match p with
  | .aResolve =>
    if rankOutOfRange rank then (.done .invalidPeriod, s)
    else (.goto .aStart, { s with tRes := resolveTimeout (rankOf rank) tmo })
  | .aStart => (.goto .aSample, { (now s).2 with t0 := (now s).1 })
  | .aSample =>
    if isReady (pinRead s).1 then (.done .ok, (pinRead s).2) else (.goto .aTime, (pinRead s).2)
  | .aTime =>
    if pastDeadline (now s).1 (now s).2.t0 (now s).2.tRes then (.done .timeout, (now s).2)
    else (.goto .aSample, (now s).2)

/-- The phases of a result read (10_state.md R32, 43_result_read.md R116). -/
def readPhase (p : ReadPhase) (s : State) : Onward ReadPhase Measurement × State :=
  match p with
  | .rHi => (.goto .rLo, readHi s)
  | .rLo => (.goto .rDesel, readLo s)
  | .rDesel => (.done (compose s.hi s.lo), pinWrite .cs .high s)

/-- The phases of a single-axis read (10_state.md R32, 44_axis_sequencer.md R125). -/
def axisPhase (axis : Axis) (rank : Byte) (tmo : Word32) (p : AxisPhase) (s : State) :
    Onward AxisPhase (Status × Measurement) × State :=
  match p with
  | .trig q =>
    match trigPhase axis rank q s with
    | (.goto q', s') => (.goto (.trig q'), s')
    | (.done .ok, s') => (.goto (.wait .aResolve), s')
    | (.done e, s') => (.done (e, 0#16), s')
  | .wait q =>
    match waitPhase rank tmo q s with
    | (.goto q', s') => (.goto (.wait q'), s')
    | (.done .ok, s') => (.goto (.read .rHi), s')
    | (.done e, s') => (.done (e, 0#16), s')
  | .read q =>
    match readPhase q s with
    | (.goto q', s') => (.goto (.read q'), s')
    | (.done m, s') => (.done (.ok, m), s')

/-- The axis after `k` in a pass, or the final deselect (44_axis_sequencer.md R127). -/
def afterAxis : Axis → Phase
  | .x => .sAxis .y (.trig .tCheck)
  | .y => .sAxis .z (.trig .tCheck)
  | .z => .sDesel

/-- The bind phases (45_initialization.md R145). -/
def bindPhase (p : BindPhase) (s : State) : State :=
  match p with
  | .bDirDrdy => goPhase (.iBind .bDirRst) (pinMode .drdy .input s)
  | .bDirRst => goPhase (.iBind .bDirCs) (pinMode .rst .output s)
  | .bDirCs => goPhase (.iBind .bCsHi) (pinMode .cs .output s)
  | .bCsHi => goPhase (.iBind .bRstLo) (pinWrite .cs .high s)
  | .bRstLo => goPhase (.iRead (.trig .tCheck)) { pinWrite .rst .low s with bind := .bound }

/-- The pin whose PinWrite an axis phase performs, if it performs one. -/
def axisDrives : AxisPhase → List OutPin
  | .trig .tSel => [.cs]
  | .trig .tRstHi => [.rst]
  | .trig .tRstLo => [.rst]
  | .read .rDesel => [.cs]
  | _ => []

/-- The pin whose PinWrite a phase performs, if it performs one. -/
def phaseDrives : Phase → List OutPin
  | .trigger _ _ p => axisDrives (.trig p)
  | .await _ _ _ => []
  | .readResult p => axisDrives (.read p)
  | .readAxis _ _ _ p => axisDrives p
  | .sInit => []
  | .sSel => [.cs]
  | .sSettle => []
  | .sCfg => []
  | .sAxis _ p => axisDrives p
  | .sDesel => [.cs]
  | .iCfg => []
  | .iBind .bCsHi => [.cs]
  | .iBind .bRstLo => [.rst]
  | .iBind _ => []
  | .iRead p => axisDrives p

/-- The state after a phase, once its pins are known to be outputs. -/
def phaseNext (ph : Phase) (s : State) : State :=
  match ph with
  | .trigger axis rank p =>
    match trigPhase axis rank p s with
    | (.goto p', s') => goPhase (.trigger axis rank p') s'
    | (.done st, s') => endWith st s'
  | .await rank tmo p =>
    match waitPhase rank tmo p s with
    | (.goto p', s') => goPhase (.await rank tmo p') s'
    | (.done st, s') => endWith st s'
  | .readResult p =>
    match readPhase p s with
    | (.goto p', s') => goPhase (.readResult p') s'
    | (.done m, s') => respond { status := .ok, meas := m } s'
  | .readAxis axis rank tmo p =>
    match axisPhase axis rank tmo p s with
    | (.goto p', s') => goPhase (.readAxis axis rank tmo p') s'
    | (.done r, s') => respond (axisResponse r) s'
  | .sInit => goPhase .sSel (startValid s)
  | .sSel => goPhase .sSettle (pinWrite .cs .low s)
  | .sSettle => goPhase .sCfg (delay settleUs s)
  | .sCfg => goPhase (.sAxis .x (.trig .tCheck)) (applyBusCfg s)
  | .sAxis k p =>
    match axisPhase k samplePeriod useDefault p s with
    | (.goto p', s') => goPhase (.sAxis k p') s'
    | (.done r, s') => goPhase (afterAxis k) (latchAxis k r s')
  | .sDesel => closeSample s
  | .iCfg => goPhase (.iBind .bDirDrdy) (applyBusCfg s)
  | .iBind p => bindPhase p s
  | .iRead p =>
    match axisPhase initAxis initPeriod useDefault p s with
    | (.goto p', s') => goPhase (.iRead p') s'
    | (.done r, s') => respond (initResponse r.1) s'

/-- One phase of a BUSY block (10_state.md R32). -/
def phaseStep (ph : Phase) (s : State) : Result := guardPins (phaseDrives ph) s (.next (phaseNext ph s))

/-- The first phase of a request; ENCODE has none, and a device command byte is no request (10_state.md R32). -/
def firstPhase : Instr → Option Phase
  | .encode _ _ => none
  | .trigger axis rank => some (.trigger axis rank .tCheck)
  | .await rank tmo => some (.await rank tmo .aResolve)
  | .readResult => some (.readResult .rHi)
  | .readAxis axis rank tmo => some (.readAxis axis rank tmo (.trig .tCheck))
  | .sampleAll => some .sInit
  | .init => some .iCfg
  | .cmdX _ => none
  | .cmdY _ => none
  | .cmdZ _ => none

/-- Whether an axis phase sends a command byte. -/
def axisSends : AxisPhase → Bool
  | .trig .tCmd => true
  | _ => false

/-- Whether a phase is T_CMD, in which the block sends the command byte CMD. -/
def sendsCommand : Phase → Bool
  | .trigger _ _ p => axisSends (.trig p)
  | .readAxis _ _ _ p => axisSends p
  | .sAxis _ p => axisSends p
  | .iRead p => axisSends p
  | .await _ _ _ => false
  | .readResult _ => false
  | .sInit => false
  | .sSel => false
  | .sSettle => false
  | .sCfg => false
  | .sDesel => false
  | .iCfg => false
  | .iBind _ => false

end Sys2Proof.Machine
end

