-- ==== Sys2Proof/WellFormed.lean ====
section
/-! DEFINITION. Which instructions are well formed. Every request is: each operand type holds exactly the values its
field may carry (30_encoding.md R75 to R77). A device command is when its rank is at most 7 (30_encoding.md R69, R70). -/

namespace Sys2Proof

/-- "a command byte must never encode a period rank > 7" (30_encoding.md R70). -/
def commandRankOk (rank : BitVec 4) : Bool := rank ≤ 7#4

/-- The check on an instruction's fields. -/
def WellFormed : Instr → Bool
  | .encode _ _ => true
  | .trigger _ _ => true
  | .await _ _ => true
  | .readResult => true
  | .readAxis _ _ _ => true
  | .sampleAll => true
  | .init => true
  | .cmdX rank => commandRankOk rank
  | .cmdY rank => commandRankOk rank
  | .cmdZ rank => commandRankOk rank

end Sys2Proof
end

