-- ==== Sys2Proof/Machine/Command.lean ====
section
/-! DEFINITION. The meanings of the device command bytes CMD_X, CMD_Y, CMD_Z (30_encoding.md R66 to R71): what the block
does when it sends one, step (d) of 41_conversion_trigger.md R91 (log 8). -/

namespace Sys2Proof.Machine

/-- Sending a command byte. In phase T_CMD it is that phase: one Xfer, the received byte discarded, and the request goes
on. Anywhere else, where no step of the block sends one, it is the Xfer alone (log 8). A rank above 7 is no command byte
of the block (30_encoding.md R70). -/
def sendDeviceCommand (axis : Axis) (rank : BitVec 4) (s : State) : Result :=
  if commandRankOk rank = false then .refused .illegalCommandByte
  else
    let s' : State := { s with cmd := commandByte axis rank }
    match s.seq with
    | .busy ph => if sendsCommand ph then phaseStep ph s' else .next (sendCommand s')
    | .idle => .next (sendCommand s')

/-- CMD_X. -/
def execCmdX (rank : BitVec 4) (s : State) : Result := sendDeviceCommand .x rank s

/-- CMD_Y. -/
def execCmdY (rank : BitVec 4) (s : State) : Result := sendDeviceCommand .y rank s

/-- CMD_Z. -/
def execCmdZ (rank : BitVec 4) (s : State) : Result := sendDeviceCommand .z rank s

end Sys2Proof.Machine
end

