-- ==== Sys2Proof/Machine/Encoder.lean ====
section
/-! DEFINITION. The meaning of ENCODE (40_command_encoder.md R86). -/

namespace Sys2Proof.Machine

/-- ENCODE: the command byte, or InvalidPeriod; no event, no state written; admitted while Unbound
(40_command_encoder.md R86). -/
def execEncode (axis : Axis) (rank : Byte) (s : State) : Result :=
  admitted false s fun s =>
    match encodeCommand axis rank with
    | none => .next (endWith .invalidPeriod s)
    | some c => .next (respond { status := .ok, cmd8 := c } s)

end Sys2Proof.Machine
end

