-- ==== Sys2Proof/Machine/Dispatch.lean ====
section
/-! DEFINITION. One arm per constructor of Instr, each a direct call of its meaning. -/

namespace Sys2Proof.Machine

def exec (i : Instr) (s : State) : Host.Outcome State Fault Refusal :=
  match i with
  | .encode axis rank => Sys2Proof.Machine.execEncode axis rank s
  | .trigger axis rank => Sys2Proof.Machine.execTrigger axis rank s
  | .await rank tmo => Sys2Proof.Machine.execAwait rank tmo s
  | .readResult => Sys2Proof.Machine.execReadResult s
  | .readAxis axis rank tmo => Sys2Proof.Machine.execReadAxis axis rank tmo s
  | .sampleAll => Sys2Proof.Machine.execSampleAll s
  | .init => Sys2Proof.Machine.execInit s
  | .cmdX rank => Sys2Proof.Machine.execCmdX rank s
  | .cmdY rank => Sys2Proof.Machine.execCmdY rank s
  | .cmdZ rank => Sys2Proof.Machine.execCmdZ rank s

end Sys2Proof.Machine
end

