-- ==== Sys2Proof/Decode.lean ====
section
/-! DEFINITION. The decoder of the two encoded forms (30_encoding.md R66, R73 to R80), total and rejecting by name, the
encoder written from the same tables (30_encoding.md R66, R81), and the opcode table's view of both. -/

namespace Sys2Proof

/-- Why an encoding is rejected (30_encoding.md R78; for a command byte R70). -/
inductive Reject where
  | opReserved      -- OP = 7
  | rsvNonzero      -- RSV not 0
  | axisNone        -- the operation uses AXIS and AXIS = 3
  | axisUnused      -- AXIS not 0 and not used
  | periodUnused    -- PERIOD not 0 and not used
  | timeoutUnused   -- TIMEOUT_US not 0 and not used
  | notACommand     -- a command byte whose select code is not 1, 2 or 3
  | commandRank     -- a command byte with bit 7 set
  deriving DecidableEq, Repr

/-- OP, bits 2:0 (30_encoding.md R73). -/
def reqOp (w : Word16) : BitVec 3 := w.extractLsb' 0 3

/-- AXIS, bits 4:3 (30_encoding.md R73). -/
def reqAxis (w : Word16) : BitVec 2 := w.extractLsb' 3 2

/-- RSV, bits 7:5 (30_encoding.md R73). -/
def reqRsv (w : Word16) : BitVec 3 := w.extractLsb' 5 3

/-- PERIOD, bits 15:8 (30_encoding.md R73). -/
def reqPeriod (w : Word16) : Byte := w.extractLsb' 8 8

/-- The AXIS field's value for an axis (30_encoding.md R75). -/
def axisField : Axis → BitVec 2
  | .x => 0#2
  | .y => 1#2
  | .z => 2#2

/-- The axis an AXIS field names; 3 names none and is rejected before this is read (30_encoding.md R75). -/
def axisOfField (k : BitVec 2) : Axis :=
  if k = 0#2 then .x else if k = 1#2 then .y else .z

/-- The operations that use AXIS: 0, 1, 4 (30_encoding.md R80). -/
def usesAxis (op : BitVec 3) : Bool := op == 0#3 || op == 1#3 || op == 4#3

/-- The operations that use PERIOD: 0, 1, 2, 4 (30_encoding.md R80). -/
def usesPeriod (op : BitVec 3) : Bool := op == 0#3 || op == 1#3 || op == 2#3 || op == 4#3

/-- The operations that use TIMEOUT_US: 2, 4 (30_encoding.md R80). -/
def usesTimeout (op : BitVec 3) : Bool := op == 2#3 || op == 4#3

/-- The instruction of an operation number that is not 7 (30_encoding.md R74). -/
def instrOfOp (op : BitVec 3) (axis : Axis) (per : Byte) (tmo : Word32) : Instr :=
  if op = 0#3 then .encode axis per
  else if op = 1#3 then .trigger axis per
  else if op = 2#3 then .await per tmo
  else if op = 3#3 then .readResult
  else if op = 4#3 then .readAxis axis per tmo
  else if op = 5#3 then .sampleAll
  else .init

/-- The decoding procedure of 30_encoding.md R80, less its last check: whether the pins are bound is looked at by the
meanings of the five requests that need it (log 14). -/
def decodeRequest (r : HostRequest) : Except Reject Instr :=
  let op := reqOp r.word
  let ax := reqAxis r.word
  let per := reqPeriod r.word
  if op = 7#3 then .error .opReserved
  else if reqRsv r.word ≠ 0#3 then .error .rsvNonzero
  else if usesAxis op = true ∧ ax = 3#2 then .error .axisNone
  else if usesAxis op = false ∧ ax ≠ 0#2 then .error .axisUnused
  else if usesPeriod op = false ∧ per ≠ 0#8 then .error .periodUnused
  else if usesTimeout op = false ∧ r.tmo ≠ 0#32 then .error .timeoutUnused
  else .ok (instrOfOp op (axisOfField ax) per r.tmo)

/-- Reading a device command byte: bits 7:4 the rank, bits 3:0 the select code (30_encoding.md R66, R67); a byte the
block never emits is rejected (30_encoding.md R70). -/
def decodeCommand (b : Byte) : Except Reject Instr :=
  let rank := b.extractLsb' 4 4
  let code := b.extractLsb' 0 4
  if commandRankOk rank = false then .error .commandRank
  else if code = 1#4 then .ok (.cmdX rank)
  else if code = 2#4 then .ok (.cmdY rank)
  else if code = 3#4 then .ok (.cmdZ rank)
  else .error .notACommand

/-- The decoder. -/
def decode : Code → Except Reject Instr
  | .request r => decodeRequest r
  | .command b => decodeCommand b

/-- A request word from its fields, most significant first: PERIOD, RSV = 0, AXIS, OP (30_encoding.md R81). -/
def requestWord (per : Byte) (ax : BitVec 2) (op : BitVec 3) : Word16 := per ++ 0#3 ++ ax ++ op

/-- A command byte from its fields (30_encoding.md R66). -/
def commandCode (rank : BitVec 4) (code : BitVec 4) : Byte := rank ++ code

/-- The encoder (30_encoding.md R81 for requests, R66 and R67 for command bytes). -/
def encode : Instr → Code
  | .encode axis rank => .request ⟨requestWord rank (axisField axis) 0#3, 0#32⟩
  | .trigger axis rank => .request ⟨requestWord rank (axisField axis) 1#3, 0#32⟩
  | .await rank tmo => .request ⟨requestWord rank 0#2 2#3, tmo⟩
  | .readResult => .request ⟨requestWord 0#8 0#2 3#3, 0#32⟩
  | .readAxis axis rank tmo => .request ⟨requestWord rank (axisField axis) 4#3, tmo⟩
  | .sampleAll => .request ⟨requestWord 0#8 0#2 5#3, 0#32⟩
  | .init => .request ⟨requestWord 0#8 0#2 6#3, 0#32⟩
  | .cmdX rank => .command (commandCode rank 1#4)
  | .cmdY rank => .command (commandCode rank 2#4)
  | .cmdZ rank => .command (commandCode rank 3#4)

/-- The encoded form of an opcode-table row's bits: 8 bits are a device command byte, otherwise bits 15:0 are the
request word and bits 47:16 TIMEOUT_US (log 6). -/
def codeOfBits (nbits w : Nat) : Code :=
  if nbits ≤ 8 then .command (BitVec.ofNat 8 w)
  else .request ⟨BitVec.ofNat 16 w, BitVec.ofNat 32 (w / 65536)⟩

/-- The opcode table's question: which instruction the decoder reads from these bits. -/
def decodeTableWord (nbits w : Nat) : Option Instr :=
  match decode (codeOfBits nbits w) with
  | .ok i => some i
  | .error _ => none

end Sys2Proof
end

