-- ==== Sys2Proof/Machine/Fetch.lean ====
section
/-! DEFINITION. Where the next instruction comes from: an IDLE block takes the host's next request; a BUSY block in phase
T_CMD takes the command byte CMD; otherwise a BUSY block runs its phase (10_state.md R32; log 5, log 8). -/

namespace Sys2Proof.Machine

/-- What the block takes next. -/
inductive Fetched where
  | nothing
  | code (c : Code) (s : State)
  | phase (ph : Phase)
  deriving DecidableEq, Repr

/-- Fetching (70_reset_and_hazards.md R186, 60_exceptions.md R166). -/
def fetch (s : State) : Fetched :=
  match s.seq with
  | .idle =>
    match s.requests with
    | [] => .nothing
    | r :: rest => .code (.request r) { s with requests := rest }
  | .busy ph => if sendsCommand ph then .code (.command s.cmd) s else .phase ph

/-- What an encoding the decoder rejects gives: a request is REJECTED (30_encoding.md R78), a byte the block never emits
is refused (30_encoding.md R70, 93_implementation_defined.md U6). -/
def rejectCode (c : Code) (s : State) : Result :=
  match c with
  | .request _ => .next (reject s)
  | .command _ => .refused .illegalCommandByte

/-- The pins as BindPins leaves them, without its events: what an encoding that needs a Bound block needs in order to be
run at once (log 5). A block that is Bound is left as it is. -/
def asBound (s : State) : State :=
  match s.bind with
  | .bound => s
  | .unbound =>
    { s with bind := .bound, dirDrdy := .input, dirRst := .output, dirCs := .output,
             csLvl := .drive .high, rstLvl := .drive .low, busCfg := some fixedBusConfig }

/-- Place a request at the front of the host's requests of an IDLE block (log 5). -/
def placeRequest (r : HostRequest) (s : State) : State :=
  { s with seq := .idle, requests := r :: s.requests }

/-- The axis a command byte's select code names; read only for the bytes the block emits (30_encoding.md R67). -/
def axisOfCommand (b : Byte) : Axis :=
  if b.extractLsb' 0 4 = 1#4 then .x else if b.extractLsb' 0 4 = 2#4 then .y else .z

/-- Place a command byte in CMD of a block that has just ended that command's reset pulse in a TRIGGER, at T_CMD
(log 5, log 8). -/
def placeCommand (b : Byte) (s : State) : State :=
  { s with seq := .busy (.trigger (axisOfCommand b) ((b.extractLsb' 4 4).setWidth 8) .tCmd), cmd := b,
           csLvl := .drive .low, rstLvl := .drive .low }

/-- Lay an encoding where the next step fetches it (log 5). -/
def placeCode (c : Code) (s : State) : State :=
  match c with
  | .request r =>
    if reqOp r.word = 0#3 ∨ reqOp r.word = 6#3 then placeRequest r s else placeRequest r (asBound s)
  | .command b => placeCommand b (asBound s)

end Sys2Proof.Machine
end

