-- ==== Sys2Proof/Machine/Step.lean ====
section
/-! DEFINITION. One step: fetch, decode, execute; or one phase of a request in progress; or nothing to do. -/

namespace Sys2Proof.Machine

/-- The step function. An IDLE block with no request waits (70_reset_and_hazards.md R186). -/
def step (s : State) : Host.Outcome State Fault Refusal :=
  match fetch s with
  | .nothing => .next s
  | .phase ph => phaseStep ph s
  | .code c s' =>
    match decode c with
    | .ok i => exec i s'
    | .error _ => rejectCode c s'

/-- The state with an encoding laid where `step` fetches its next instruction (log 5, log 6). -/
def State.withFetchWord (s : State) (nbits w : Nat) : State := placeCode (codeOfBits nbits w) s

end Sys2Proof.Machine
end

