-- ==== Sys2Proof/Machine/Run.lean ====
section
/-! DEFINITION. Infinite runs of the machine and the progress assumption on them (60_exceptions.md R172; log 4). -/

namespace Sys2Proof.Machine

/-- An infinite run: every state steps to the one after it. -/
def IsRun (ρ : Nat → State) : Prop := ∀ n, step (ρ n) = .next (ρ (n + 1))

/-- The run never comes to wait for ever: again and again there is something to do. The time of a wait is part of the next
timer sample's gap (log 4), so a run that waits for ever shows none of it. -/
def KeepsActing (ρ : Nat → State) : Prop := ∀ n, ∃ m, n ≤ m ∧ fetch (ρ m) ≠ .nothing

/-- Progress: in an infinite run of the block the true time grows without bound (60_exceptions.md R172). That every event
takes finite time is in the type of a gap. -/
def TimePasses (ρ : Nat → State) : Prop := KeepsActing ρ → ∀ bound, ∃ n, bound ≤ (ρ n).tau

end Sys2Proof.Machine
end

