-- ==== Sys2Proof/Safety.lean ====
section
/-! DEFINITION. What counts as a safe state and a safe trace, in the terms the statements use: the invariant of the
sequencer and the pins, the traffic rules of the bus, and the spec's arithmetic view of requests and polls. -/

namespace Sys2Proof.Safety

open Sys2Proof.Machine

/-! ### States between requests -/

/-- An IDLE, Bound block whose driven pins are outputs: every request is admitted and can drive its pins. -/
def Ready (s : State) : Prop := s.seq = .idle ∧ s.bind = .bound ∧ pinsOutput s = true

/-- The pins as the bind step of INIT leaves them, and the bus configured (10_state.md R21 to R25). -/
def PinsBound (s : State) : Prop :=
  s.dirDrdy = .input ∧ s.dirRst = .output ∧ s.dirCs = .output ∧ s.csLvl ≠ .z ∧ s.rstLvl ≠ .z ∧
    s.busCfg = some fixedBusConfig

/-- No pin touched and no bus configured: the state of these registers at reset (10_state.md R37). -/
def PinsUntouched (s : State) : Prop :=
  s.dirDrdy = .unset ∧ s.dirRst = .unset ∧ s.dirCs = .unset ∧ s.csLvl = .z ∧ s.rstLvl = .z ∧ s.busCfg = none

/-! ### The invariant -/

/-- RESET is released: the level between two reset pulses (10_state.md R23). -/
def RstLow (s : State) : Prop := s.rstLvl = .drive .low

/-- The sensor is selected (10_state.md R22). -/
def Selected (s : State) : Prop := s.csLvl = .drive .low

/-- What holds at each phase of a trigger: CMD is the encoder's byte from T_SEL on, CHIP-SELECT is low from T_RST_HI on,
RESET is high exactly during the pulse (41_conversion_trigger.md R90, R91). -/
def TrigOk (axis : Axis) (rank : Byte) (p : TrigPhase) (s : State) : Prop :=
  match p with
  | .tCheck => RstLow s
  | .tSel => encodeCommand axis rank = some s.cmd ∧ RstLow s
  | .tRstHi => encodeCommand axis rank = some s.cmd ∧ RstLow s ∧ Selected s
  | .tHold => encodeCommand axis rank = some s.cmd ∧ s.rstLvl = .drive .high ∧ Selected s
  | .tRstLo => encodeCommand axis rank = some s.cmd ∧ s.rstLvl = .drive .high ∧ Selected s
  | .tCmd => encodeCommand axis rank = some s.cmd ∧ RstLow s ∧ Selected s

/-- What holds at each phase of a single-axis read: selected, RESET released and the rank legal from its poll on
(44_axis_sequencer.md R125). -/
def AxisOk (axis : Axis) (rank : Byte) (p : AxisPhase) (s : State) : Prop :=
  match p with
  | .trig q => TrigOk axis rank q s
  | .wait _ => RstLow s ∧ Selected s ∧ rankOutOfRange rank = false
  | .read _ => RstLow s ∧ Selected s

/-- What holds at each bind phase: the directions set so far (45_initialization.md R145). -/
def BindOk (p : BindPhase) (s : State) : Prop :=
  match p with
  | .bDirDrdy => True
  | .bDirRst => s.dirDrdy = .input
  | .bDirCs => s.dirDrdy = .input ∧ s.dirRst = .output
  | .bCsHi => s.dirDrdy = .input ∧ s.dirRst = .output ∧ s.dirCs = .output
  | .bRstLo => s.dirDrdy = .input ∧ s.dirRst = .output ∧ s.dirCs = .output ∧ s.csLvl = .drive .high

/-- What holds at each phase of a request in progress. -/
def PhaseOk (ph : Phase) (s : State) : Prop :=
  match ph with
  | .trigger axis rank p => s.bind = .bound ∧ TrigOk axis rank p s
  | .await _ _ _ => s.bind = .bound ∧ RstLow s
  | .readResult _ => s.bind = .bound ∧ RstLow s
  | .readAxis axis rank _ p => s.bind = .bound ∧ AxisOk axis rank p s
  | .sInit => s.bind = .bound ∧ RstLow s
  | .sSel => s.bind = .bound ∧ RstLow s
  | .sSettle => s.bind = .bound ∧ RstLow s ∧ Selected s
  | .sCfg => s.bind = .bound ∧ RstLow s ∧ Selected s
  | .sAxis k p => s.bind = .bound ∧ AxisOk k samplePeriod p s
  | .sDesel => s.bind = .bound ∧ RstLow s
  | .iCfg => s.bind = .bound → RstLow s
  | .iBind p => s.busCfg = some fixedBusConfig ∧ (s.bind = .bound → RstLow s) ∧ BindOk p s
  | .iRead p => s.bind = .bound ∧ AxisOk initAxis initPeriod p s

/-- What holds for SEQ: between requests RESET is released once Bound, and nothing has been touched while Unbound. -/
def SeqOk (s : State) : Prop :=
  match s.seq with
  | .idle => (s.bind = .bound → RstLow s) ∧ (s.bind = .unbound → PinsUntouched s)
  | .busy ph => PhaseOk ph s

/-- The invariant of the block. -/
structure Inv (s : State) : Prop where
  /-- BUS_CFG is UNSET or the fixed configuration (10_state.md R24). -/
  busFixed : s.busCfg = none ∨ s.busCfg = some fixedBusConfig
  /-- A Bound block has its pins bound and its bus configured (10_state.md R21 to R25). -/
  boundPins : s.bind = .bound → PinsBound s
  /-- What SEQ promises. -/
  seqOk : SeqOk s

/-! ### Traffic -/

/-- A byte that is one of the 24 command bytes (30_encoding.md R69). -/
def LegalCommand (b : Byte) : Prop := b &&& 0x8C#8 = 0#8 ∧ b &&& 0x03#8 ≠ 0#8

/-- Every byte sent is the placeholder or a legal command byte (30_encoding.md R70). -/
def LegalTraffic (tr : List Event) : Prop :=
  ∀ out inp, Event.xfer out inp ∈ tr → out = placeholderByte ∨ LegalCommand out

/-- The select and the reset pulse that precede a command byte (41_conversion_trigger.md R91, R93). -/
def armEvents : List Event :=
  [.pinWrite .cs .low, .pinWrite .rst .high, .delay resetHoldUs, .pinWrite .rst .low]

/-- Every byte sent other than the placeholder comes right after a select and one reset pulse
(41_conversion_trigger.md R93). -/
def Armed (tr : List Event) : Prop :=
  ∀ before out inp after, tr = before ++ Event.xfer out inp :: after → out ≠ placeholderByte →
    ∃ earlier, before = earlier ++ armEvents

/-- How much of the select and the pulse stands at the end of the trace at a phase of a trigger. -/
def armedSoFar : TrigPhase → List Event
  | .tCheck => []
  | .tSel => []
  | .tRstHi => armEvents.take 1
  | .tHold => armEvents.take 2
  | .tRstLo => armEvents.take 3
  | .tCmd => armEvents

/-- The trigger phase a request in progress is in, if it is in one. -/
def trigPhaseOf : Phase → Option TrigPhase
  | .trigger _ _ p => some p
  | .readAxis _ _ _ (.trig p) => some p
  | .sAxis _ (.trig p) => some p
  | .iRead (.trig p) => some p
  | _ => none

/-- The trace is armed, and a trigger in progress has the part of its select and pulse behind it. -/
def ArmedSoFar (s : State) : Prop :=
  Armed s.trace ∧
    ∀ ph p, s.seq = .busy ph → trigPhaseOf ph = some p → ∃ earlier, s.trace = earlier ++ armedSoFar p

/-- The command bytes of a trace, in order: every byte sent but the placeholder. -/
def commandsOf (tr : List Event) : List Byte :=
  tr.filterMap fun e =>
    match e with
    | .xfer out _ => if out = placeholderByte then none else some out
    | _ => none

/-- The result bytes of a trace, in order: every byte received while the placeholder is sent. -/
def resultBytesOf (tr : List Event) : List Byte :=
  tr.filterMap fun e =>
    match e with
    | .xfer out inp => if out = placeholderByte then some inp else none
    | _ => none

/-- Whether an event is a sample of DATA-READY or of the timer. -/
def isSample : Event → Bool
  | .drdySample _ => true
  | .timeSample _ => true
  | _ => false

/-! ### The spec's arithmetic view of a request, a command byte and a poll -/

/-- When a request is rejected (30_encoding.md R78), by the numbers of its fields (30_encoding.md R73, R74). -/
def RequestRejected (r : HostRequest) (b : Binding) : Prop :=
  let op := r.word.toNat % 8
  let ax := r.word.toNat / 8 % 4
  let rsv := r.word.toNat / 32 % 8
  let per := r.word.toNat / 256
  op = 7 ∨ rsv ≠ 0 ∨ (op ∈ [0, 1, 4] ∧ ax = 3) ∨ (op ∉ [0, 1, 4] ∧ ax ≠ 0) ∨ (op ∉ [0, 1, 2, 4] ∧ per ≠ 0) ∨
    (op ∉ [2, 4] ∧ r.tmo.toNat ≠ 0) ∨ (b = .unbound ∧ op ∉ [0, 6])

/-- 1, 2, 3 for X, Y, Z (30_encoding.md R67). -/
def axisCode : Axis → Nat
  | .x => 1
  | .y => 2
  | .z => 3

/-- The command byte as a number: select code plus 16 times the rank (30_encoding.md R66). -/
def commandNumber (axis : Axis) (rank : Nat) : Byte := BitVec.ofNat 8 (axisCode axis + 16 * rank)

/-- The device command of an axis. -/
def commandInstr (axis : Axis) (rank : BitVec 4) : Instr :=
  match axis with
  | .x => .cmdX rank
  | .y => .cmdY rank
  | .z => .cmdZ rank

/-- The events of the turns of a poll that neither sees ready nor times out: each level, then the timer's count after
its gap, from the true time `tau` on (42_ready_poll.md R102). -/
def turnEvents : Nat → List Level → List Nat → List Event
  | tau, l :: ls, g :: gs => .drdySample l :: .timeSample (timerCount (tau + g)) :: turnEvents (tau + g) ls gs
  | _, _, _ => []

/-- Every DATA-READY level of the list is the inactive one. -/
def NoneReady (ls : List Level) : Prop := ∀ l ∈ ls, l ≠ Config.drdyActiveLevel

/-- After each of the gaps the modular elapsed time is within the resolved timeout (42_ready_poll.md R104, R105). -/
def WithinDeadline (tRes : Word32) (gaps : List Nat) : Prop :=
  ∀ k, k ≤ gaps.length → (gaps.take k).sum % 2 ^ 32 ≤ tRes.toNat

/-- The events of a successful trigger with its received byte (41_conversion_trigger.md R91). -/
def triggerEvents (cmd received : Byte) : List Event := armEvents ++ [.xfer cmd received]

/-- The events of a result read (43_result_read.md R116). -/
def readEvents (hi lo : Byte) : List Event :=
  [.xfer 0x00#8 hi, .xfer 0x00#8 lo, .pinWrite .cs .high]

/-- The events of BusCfg and BindPins at the start of INIT (45_initialization.md R145, R146). -/
def initEvents : List Event :=
  [.busCfg fixedBusConfig, .pinMode .drdy .input, .pinMode .rst .output, .pinMode .cs .output,
   .pinWrite .cs .high, .pinWrite .rst .low]

/-- The big-endian value of two result bytes as 16 bits (20_memory.md R49). -/
def bigEndian (hi lo : Byte) : Measurement := BitVec.ofNat 16 (hi.toNat * 256 + lo.toNat)

/-! ### The polls -/

/-- A poll in progress, by what it belongs to: an AWAIT, a READ_AXIS, an axis of a SAMPLE_ALL, INIT's read
(10_state.md R32). -/
inductive Poll where
  | ofAwait (rank : Byte) (tmo : Word32)
  | ofReadAxis (axis : Axis) (rank : Byte) (tmo : Word32)
  | ofSample (axis : Axis)
  | ofInit
  deriving DecidableEq, Repr

/-- The phase of the block at a phase of the poll. -/
def pollPhase (p : Poll) (w : WaitPhase) : Phase :=
  match p with
  | .ofAwait rank tmo => .await rank tmo w
  | .ofReadAxis axis rank tmo => .readAxis axis rank tmo (.wait w)
  | .ofSample axis => .sAxis axis (.wait w)
  | .ofInit => .iRead (.wait w)

/-- What follows a sample that saw the active level: AWAIT ends with OK, the others read the result
(42_ready_poll.md R102, 44_axis_sequencer.md R125). -/
def afterReady (p : Poll) (s : State) : State :=
  match p with
  | .ofAwait _ _ => { s with response := some { status := .ok }, seq := .idle }
  | .ofReadAxis axis rank tmo => { s with seq := .busy (.readAxis axis rank tmo (.read .rHi)) }
  | .ofSample axis => { s with seq := .busy (.sAxis axis (.read .rHi)) }
  | .ofInit => { s with seq := .busy (.iRead (.read .rHi)) }

/-- What follows a timer sample past the deadline: AWAIT, READ_AXIS and INIT end with Timeout; a SAMPLE_ALL latches 0 for
the axis, clears VALID and goes on (42_ready_poll.md R102, 44_axis_sequencer.md R125, R127 to R129,
45_initialization.md R146). -/
def afterDeadline (p : Poll) (s : State) : State :=
  match p with
  | .ofAwait _ _ => { s with response := some { status := .timeout }, seq := .idle }
  | .ofReadAxis _ _ _ => { s with response := some { status := .timeout }, seq := .idle }
  | .ofSample .x => { s with sx := 0#16, valid := false, seq := .busy (.sAxis .y (.trig .tCheck)) }
  | .ofSample .y => { s with sy := 0#16, valid := false, seq := .busy (.sAxis .z (.trig .tCheck)) }
  | .ofSample .z => { s with sz := 0#16, valid := false, seq := .busy .sDesel }
  | .ofInit => { s with response := some { status := .timeout, success := false }, seq := .idle }

/-! ### Which request a step belongs to -/

/-- The step at this state belongs to an INIT: it accepts one, or one is in progress (10_state.md R32). -/
def RunsInit (s : State) : Prop :=
  match s.seq with
  | .idle => ∃ r rest, s.requests = r :: rest ∧ decodeRequest r = .ok .init
  | .busy .iCfg => True
  | .busy (.iBind _) => True
  | .busy (.iRead _) => True
  | .busy _ => False

/-- The step at this state belongs to a SAMPLE_ALL (10_state.md R32). -/
def RunsSampleAll (s : State) : Prop :=
  match s.seq with
  | .idle => ∃ r rest, s.requests = r :: rest ∧ decodeRequest r = .ok .sampleAll
  | .busy .sInit => True
  | .busy .sSel => True
  | .busy .sSettle => True
  | .busy .sCfg => True
  | .busy (.sAxis _ _) => True
  | .busy .sDesel => True
  | .busy _ => False

/-- The requests that touch the pins or the bus of a Bound block: all but ENCODE and INIT (70_reset_and_hazards.md R187). -/
def NeedsBound (i : Instr) : Prop :=
  (∃ axis rank, i = .trigger axis rank) ∨ (∃ rank tmo, i = .await rank tmo) ∨ i = .readResult ∨
    (∃ axis rank tmo, i = .readAxis axis rank tmo) ∨ i = .sampleAll

/-- The seven host requests (30_encoding.md R74). -/
def IsRequest (i : Instr) : Prop := NeedsBound i ∨ (∃ axis rank, i = .encode axis rank) ∨ i = .init

end Sys2Proof.Safety
end

