-- ==== Sys2Proof/Certificates/Slice0/Obligations.lean ====
section
/-! DEFINITION. The statements about the block, one `def Obligations.<Name> : Prop` each (OBLIGATIONS.json lists them). -/

open Sys2Proof Sys2Proof.Machine Sys2Proof.Safety

/-! ### Encodings -/

/-- 30_encoding.md R66, R73, R74, R81: every well-formed instruction is what the decoder reads from its encoding. -/
def Obligations.DecodeOfEncode : Prop :=
  ∀ i : Instr, WellFormed i = true → decode (encode i) = .ok i

/-- 30_encoding.md R65, R78, R80: an encoding that decodes is the one encoding of a well-formed instruction. -/
def Obligations.EncodeOfDecode : Prop :=
  ∀ (c : Code) (i : Instr), decode c = .ok i → WellFormed i = true ∧ encode i = c

/-- 30_encoding.md R81: the request words by number, PERIOD times 256 plus AXIS times 8 plus OP, with TIMEOUT_US beside. -/
def Obligations.RequestWordsByNumber : Prop :=
  ∀ (axis : Axis) (rank : Byte) (tmo : Word32),
    let field := 256 * rank.toNat + 8 * (axisCode axis - 1)
    encode (.encode axis rank) = .request ⟨BitVec.ofNat 16 field, 0#32⟩ ∧
    encode (.trigger axis rank) = .request ⟨BitVec.ofNat 16 (field + 1), 0#32⟩ ∧
    encode (.await rank tmo) = .request ⟨BitVec.ofNat 16 (256 * rank.toNat + 2), tmo⟩ ∧
    encode .readResult = .request ⟨0x0003#16, 0#32⟩ ∧
    encode (.readAxis axis rank tmo) = .request ⟨BitVec.ofNat 16 (field + 4), tmo⟩ ∧
    encode .sampleAll = .request ⟨0x0005#16, 0#32⟩ ∧
    encode .init = .request ⟨0x0006#16, 0#32⟩

/-- 30_encoding.md R81 and 95_test_vectors.md V26 to V30, V39: words of the spec, and what they decode to. -/
def Obligations.SpecWordsDecode : Prop :=
  decodeTableWord 16 0x0300 = some (.encode .x 3#8) ∧ decodeTableWord 16 0x0509 = some (.trigger .y 5#8) ∧
  decodeTableWord 16 0x0502 = some (.await 5#8 0#32) ∧ decodeTableWord 16 0x0003 = some .readResult ∧
  decodeTableWord 16 0x0914 = some (.readAxis .z 9#8 0#32) ∧ decodeTableWord 16 0x0005 = some .sampleAll ∧
  decodeTableWord 16 0x0006 = some .init ∧ decodeTableWord 8 0x71 = some (.cmdX 7#4) ∧
  decodeTableWord 8 0x52 = some (.cmdY 5#4) ∧ decodeTableWord 8 0x03 = some (.cmdZ 0#4) ∧
  decodeTableWord 16 0x0007 = none ∧ decodeTableWord 16 0x0020 = none ∧ decodeTableWord 16 0x0018 = none ∧
  decodeTableWord 16 0x000A = none ∧ decodeTableWord 16 0x0103 = none ∧ decodeTableWord 16 0x001C = none

/-- 30_encoding.md R78: a rejected request completes at once with status REJECTED and an empty trace, and changes no
register; that it is taken off the host's list is the model's own (log 5). -/
def Obligations.RejectedRequestChangesNothing : Prop :=
  ∀ (s : State) (r : HostRequest) (rest : List HostRequest), s.seq = .idle → s.requests = r :: rest →
    RequestRejected r s.bind →
    step s = .next { s with requests := rest, trace := [], response := some { status := .rejected } }

/-- 30_encoding.md R78, R80: every other request decodes, the step runs the instruction it encodes, and its response is
never REJECTED. -/
def Obligations.OtherRequestsAreAdmitted : Prop :=
  ∀ (s : State) (r : HostRequest) (rest : List HostRequest), s.seq = .idle → s.requests = r :: rest →
    ¬ RequestRejected r s.bind →
    ∃ i, decodeRequest r = .ok i ∧ encode i = .request r ∧ step s = exec i { s with requests := rest } ∧
      ∀ t, step s = .next t → t.response ≠ some { status := .rejected }

/-- A step runs the decoded instruction (log 5): an IDLE block takes the host's next request, a block at T_CMD the command
byte CMD; any other BUSY block runs its phase (10_state.md R32). -/
def Obligations.StepRunsDecoded : Prop :=
  (∀ (s : State) (r : HostRequest) (rest : List HostRequest) (i : Instr), s.seq = .idle → s.requests = r :: rest →
    decodeRequest r = .ok i → step s = exec i { s with requests := rest }) ∧
  (∀ (s : State) (ph : Phase) (i : Instr), s.seq = .busy ph → sendsCommand ph = true → decodeCommand s.cmd = .ok i →
    step s = exec i s) ∧
  (∀ (s : State) (ph : Phase), s.seq = .busy ph → sendsCommand ph = false → step s = phaseStep ph s)

/-- 70_reset_and_hazards.md R186: after reset the block is IDLE and waits, and so does every IDLE block with no request. The
model's choice: that the state is the same to the last field while it waits, no true time shown (log 4) and every transient
register kept (log 12). -/
def Obligations.IdleBlockWaits : Prop :=
  State.reset.seq = .idle ∧ step State.reset = .next State.reset ∧
  ∀ s : State, s.seq = .idle → s.requests = [] → step s = .next s

/-! ### Command encoder and command bytes -/

/-- 40_command_encoder.md R87: for ranks 0 to 7 the encoder gives the select code in the low nibble and the rank in the
high nibble; for rank 8 and above it fails with InvalidPeriod, and neither ENCODE nor TRIGGER transfers anything. -/
def Obligations.EncoderNibbles : Prop :=
  ∀ (axis : Axis) (rank : Byte),
    (rank.toNat ≤ 7 → ∃ c, encodeCommand axis rank = some c ∧ c.toNat % 16 = axisCode axis ∧ c.toNat / 16 = rank.toNat) ∧
    (8 ≤ rank.toNat → encodeCommand axis rank = none ∧
      ∀ s : State, s.seq = .idle →
        exec (.encode axis rank) s = .next { s with trace := [], response := some { status := .invalidPeriod } } ∧
        (s.bind = .bound →
          exec (.trigger axis rank) s = .next { s with trace := [], response := some { status := .invalidPeriod } }))

/-- 30_encoding.md R69: bit 7 and bits 3:2 of every emitted byte are 0; a byte is emitted for some axis and rank exactly
when its bits under 0x8C are 0 and those under 0x03 are not; there are 24 such bytes. -/
def Obligations.EmittedCommandBytes : Prop :=
  (∀ (axis : Axis) (rank c : Byte), encodeCommand axis rank = some c →
    c.getLsbD 7 = false ∧ c.getLsbD 3 = false ∧ c.getLsbD 2 = false) ∧
  (∀ b : Byte, (∃ axis rank, encodeCommand axis rank = some b) ↔ (b &&& 0x8C#8 = 0#8 ∧ b &&& 0x03#8 ≠ 0#8)) ∧
  ((List.range 256).filter fun n =>
    decide (BitVec.ofNat 8 n &&& 0x8C#8 = 0#8 ∧ BitVec.ofNat 8 n &&& 0x03#8 ≠ 0#8)).length = 24

/-- 40_command_encoder.md R86: ENCODE of a rank up to 7 answers the command byte, Unbound or Bound, with no event and no
register written. -/
def Obligations.EncodeCompletes : Prop :=
  ∀ (s : State) (axis : Axis) (rank : Byte), s.seq = .idle → rank.toNat ≤ 7 →
    exec (.encode axis rank) s =
      .next { s with trace := [], response := some { status := .ok, cmd8 := commandNumber axis rank.toNat } }

/-- 60_exceptions.md R156: InvalidPeriod is the answer exactly when a rank of 8 or above reaches the encoder or the poll,
and then no event happens and no register changes. -/
def Obligations.InvalidPeriodExactly : Prop :=
  (∀ (s : State) (axis : Axis) (rank : Byte) (tmo : Word32) (i : Instr), s.seq = .idle → s.bind = .bound →
    8 ≤ rank.toNat →
    (i = .encode axis rank ∨ i = .trigger axis rank ∨ i = .await rank tmo ∨ i = .readAxis axis rank tmo) →
    exec i s = .next { s with trace := [], response := some { status := .invalidPeriod } }) ∧
  (∀ (s t : State) (axis : Axis) (rank : Byte) (tmo : Word32) (i : Instr), rank.toNat ≤ 7 →
    (i = .encode axis rank ∨ i = .trigger axis rank ∨ i = .await rank tmo ∨ i = .readAxis axis rank tmo ∨
      i = .readResult ∨ i = .sampleAll ∨ i = .init) →
    exec i s = .next t → ∀ r, t.response = some r → r.status ≠ .invalidPeriod)

/-- 30_encoding.md R66, R71, 41_conversion_trigger.md R91 step (d): at T_CMD a command byte of rank up to 7 is one Xfer of
that byte, the byte received discarded; a TRIGGER then ends with OK. The model's choice: that a command row run there is
what is sent, and CMD takes it, whatever axis and rank the TRIGGER has (log 8); CMD and the other transient registers
afterwards (log 12); no true time shown at the Xfer (log 4). -/
def Obligations.CommandByteEndsTrigger : Prop :=
  ∀ (s : State) (axis k : Axis) (rank : Byte) (r : BitVec 4), s.seq = .busy (.trigger axis rank .tCmd) → r.toNat ≤ 7 →
    exec (commandInstr k r) s =
      .next { s with
        cmd := commandNumber k r.toNat
        busIn := s.busIn.tail
        draws := s.draws + 1
        trace := s.trace ++ [.xfer (commandNumber k r.toNat) (drawByte s).1]
        response := some { status := .ok }
        seq := .idle }

/-- 30_encoding.md R71, 44_axis_sequencer.md R125: at T_CMD of a READ_AXIS, of an axis of SAMPLE_ALL or of INIT's read the
command byte is one Xfer and the poll comes next. The model's choice: that a command row run there is what is sent, and CMD
takes it, whatever axis and rank the request has (log 8); CMD and the other transient registers afterwards (log 12); no true
time shown at the Xfer (log 4). -/
def Obligations.CommandByteLeadsToPoll : Prop :=
  ∀ (s : State) (axis k : Axis) (rank : Byte) (tmo : Word32) (r : BitVec 4), r.toNat ≤ 7 →
    let sent (ph : Phase) : State := { s with
      cmd := commandNumber k r.toNat
      busIn := s.busIn.tail
      draws := s.draws + 1
      trace := s.trace ++ [.xfer (commandNumber k r.toNat) (drawByte s).1]
      seq := .busy ph }
    (s.seq = .busy (.readAxis axis rank tmo (.trig .tCmd)) →
      exec (commandInstr k r) s = .next (sent (.readAxis axis rank tmo (.wait .aResolve)))) ∧
    (s.seq = .busy (.sAxis axis (.trig .tCmd)) →
      exec (commandInstr k r) s = .next (sent (.sAxis axis (.wait .aResolve)))) ∧
    (s.seq = .busy (.iRead (.trig .tCmd)) →
      exec (commandInstr k r) s = .next (sent (.iRead (.wait .aResolve))))

/-- 30_encoding.md R71: a command byte of rank up to 7 is one Xfer of that byte, the byte received discarded. The model's
choice: that it is nothing else where no request is at T_CMD, where the block itself never sends one (log 8); CMD and the
other transient registers afterwards (log 12); no true time shown at the Xfer (log 4). -/
def Obligations.CommandByteAlone : Prop :=
  ∀ (s : State) (k : Axis) (r : BitVec 4), r.toNat ≤ 7 → (∀ ph, s.seq = .busy ph → sendsCommand ph = false) →
    exec (commandInstr k r) s =
      .next { s with
        cmd := commandNumber k r.toNat
        busIn := s.busIn.tail
        draws := s.draws + 1
        trace := s.trace ++ [.xfer (commandNumber k r.toNat) (drawByte s).1] }

/-- 30_encoding.md R70, 93_implementation_defined.md U6: a command of rank above 7 is refused, in every state, and a block
at T_CMD whose CMD is no command byte of the block stops the same way; no state of the invariant is such a block. -/
def Obligations.IllegalCommandRefused : Prop :=
  (∀ (s : State) (k : Axis) (r : BitVec 4), 8 ≤ r.toNat → exec (commandInstr k r) s = .refused .illegalCommandByte) ∧
  (∀ (s : State) (ph : Phase), s.seq = .busy ph → sendsCommand ph = true → ¬ LegalCommand s.cmd →
    step s = .refused .illegalCommandByte ∧ ¬ Inv s)

/-! ### Conversion trigger -/

/-- 41_conversion_trigger.md R91, R92: TRIGGER of a rank up to 7 selects, pulses RESET, sends the command, and leaves CS
low; nothing else changes. The model's choice: CMD and the other transient registers after the request (log 12), and a Delay
of exactly 1 us on the true time, a longer one being part of the next sample's gap (log 4). -/
def Obligations.TriggerCompletes : Prop :=
  ∀ (s : State) (axis : Axis) (rank : Byte), Ready s → rank.toNat ≤ 7 →
    exec (.trigger axis rank) s =
      .next { s with
        cmd := commandNumber axis rank.toNat
        csLvl := .drive .low
        rstLvl := .drive .low
        tau := s.tau + 1
        busIn := s.busIn.tail
        draws := s.draws + 1
        trace := [.pinWrite .cs .low, .pinWrite .rst .high, .delay 1, .pinWrite .rst .low,
          .xfer (commandNumber axis rank.toNat) (drawByte s).1]
        response := some { status := .ok } }

/-- 41_conversion_trigger.md R93: every step keeps that each command byte sent is preceded, with no event between, by
CHIP-SELECT going low and exactly one reset pulse. -/
def Obligations.CommandsFollowResetPulse : Prop :=
  ∀ s t : State, Inv s → ArmedSoFar s → step s = .next t → ArmedSoFar t

/-- 30_encoding.md R69, R70: no step ever sends a byte that is neither the placeholder nor one of the 24 command bytes. -/
def Obligations.TrafficStaysLegal : Prop :=
  ∀ s t : State, Inv s → LegalTraffic s.trace → step s = .next t → LegalTraffic t.trace

/-! ### Ready poll -/

/-- 42_ready_poll.md R100, 10_state.md R26: timeout 0 resolves to the table's entry, any other value to itself. -/
def Obligations.TimeoutResolution : Prop :=
  (∀ r : Rank, ([501#32, 1001#32, 2001#32, 4001#32, 7501#32, 15001#32, 35501#32, 60001#32] : List Word32)[r.toNat]? =
    some (resolveTimeout r 0#32)) ∧
  ∀ (r : Rank) (tmo : Word32), tmo ≠ 0#32 → resolveTimeout r tmo = tmo

/-- 42_ready_poll.md R104: the elapsed value of two timer samples is the true time between them modulo 2^32, so below
2^32 us it is the true time, a wrap of the timer between them or not; beyond, the value has wrapped. -/
def Obligations.ElapsedIsModular : Prop :=
  ∀ a b : Nat, a ≤ b →
    (elapsed (timerCount b) (timerCount a)).toNat = (b - a) % 2 ^ 32 ∧
    (b - a < 2 ^ 32 → (elapsed (timerCount b) (timerCount a)).toNat = b - a)

/-- 42_ready_poll.md R102, R103, R108: a poll that sees the inactive level any number of times within the deadline and
then the active one ends with OK at that sample; its trace, and every register, are as stated. The model's choice: T_RES, T0
and the other transient registers after the poll has ended (log 12), and the true time, exactly the gaps, none passing at a
DATA-READY sample (log 4). -/
def Obligations.AwaitCompletesReady : Prop :=
  ∀ (s : State) (rank : Byte) (tmo : Word32) (g : Nat) (ls restL : List Level) (gs restG : List Nat),
    s.seq = .idle → s.bind = .bound → rank.toNat ≤ 7 →
    s.drdyIn = ls ++ Config.drdyActiveLevel :: restL → s.gapIn = g :: (gs ++ restG) → ls.length = gs.length →
    NoneReady ls → WithinDeadline (resolveTimeout (rankOf rank) tmo) gs →
    exec (.await rank tmo) s =
      .next { s with
        tRes := resolveTimeout (rankOf rank) tmo
        t0 := timerCount (s.tau + g)
        drdyIn := restL
        gapIn := restG
        tau := s.tau + g + gs.sum
        draws := s.draws + 2 * gs.length + 2
        trace := .timeSample (timerCount (s.tau + g)) ::
          (turnEvents (s.tau + g) ls gs ++ [.drdySample Config.drdyActiveLevel])
        response := some { status := .ok } }

/-- 42_ready_poll.md R102, R104, R105: a poll that sees the inactive level at every sample ends with Timeout at the first
timer sample whose modular elapsed time exceeds the resolved timeout, and not before. The model's choice: T_RES, T0 and the
other transient registers after the poll has ended (log 12), and the true time, exactly the gaps (log 4). -/
def Obligations.AwaitTimesOut : Prop :=
  ∀ (s : State) (rank : Byte) (tmo : Word32) (g d : Nat) (ls restL : List Level) (l : Level) (gs restG : List Nat),
    s.seq = .idle → s.bind = .bound → rank.toNat ≤ 7 →
    s.drdyIn = ls ++ l :: restL → s.gapIn = g :: (gs ++ d :: restG) → ls.length = gs.length →
    NoneReady ls → l ≠ Config.drdyActiveLevel → WithinDeadline (resolveTimeout (rankOf rank) tmo) gs →
    (resolveTimeout (rankOf rank) tmo).toNat < (gs.sum + d) % 2 ^ 32 →
    exec (.await rank tmo) s =
      .next { s with
        tRes := resolveTimeout (rankOf rank) tmo
        t0 := timerCount (s.tau + g)
        drdyIn := restL
        gapIn := restG
        tau := s.tau + g + gs.sum + d
        draws := s.draws + 2 * gs.length + 3
        trace := .timeSample (timerCount (s.tau + g)) :: turnEvents (s.tau + g) (ls ++ [l]) (gs ++ [d])
        response := some { status := .timeout } }

/-- 42_ready_poll.md R102, R105, R107, R108: what any AWAIT of a rank up to 7 can come to. T0 is the first timer sample.
OK: the last event is the one sample that saw the active level. Timeout: the last event is a timer sample past the deadline.
Otherwise the poll goes on and the block is BUSY at its next sample (log 7). No earlier sample saw the active level. The
model's choice: that T_RES and T0 are read here after a poll that has ended (log 12). -/
def Obligations.AwaitOutcomes : Prop :=
  ∀ (s : State) (rank : Byte) (tmo : Word32), s.seq = .idle → s.bind = .bound → rank.toNat ≤ 7 →
    ∃ t, exec (.await rank tmo) s = .next t ∧ t.tRes = resolveTimeout (rankOf rank) tmo ∧
      t.trace.head? = some (.timeSample t.t0) ∧
      (∀ l, Event.drdySample l ∈ t.trace.dropLast → l ≠ Config.drdyActiveLevel) ∧
      ((t.seq = .idle ∧ t.response = some { status := .ok } ∧
          t.trace.getLast? = some (.drdySample Config.drdyActiveLevel)) ∨
        (t.seq = .idle ∧ t.response = some { status := .timeout } ∧
          ∃ c, t.trace.getLast? = some (.timeSample c) ∧ t.tRes.toNat < (c - t.t0).toNat) ∨
        (t.seq = .busy (.await rank tmo .aSample) ∧ t.response = none ∧
          ∃ c, t.trace.getLast? = some (.timeSample c) ∧ (c - t.t0).toNat ≤ t.tRes.toNat))

/-- 42_ready_poll.md R102: AWAIT writes no pin, transfers nothing, and leaves every register but T_RES, T0 and SEQ as it
is. The model's choice: that CMD, HI and LO, transient registers of other requests, are among those it leaves (log 12). -/
def Obligations.AwaitFrame : Prop :=
  ∀ (s t : State) (rank : Byte) (tmo : Word32), s.bind = .bound → exec (.await rank tmo) s = .next t →
    (∀ e ∈ t.trace, isSample e = true) ∧
    t = { s with tRes := t.tRes, t0 := t.t0, seq := t.seq, trace := t.trace, response := t.response,
                 drdyIn := t.drdyIn, gapIn := t.gapIn, tau := t.tau, draws := t.draws }

/-- 42_ready_poll.md R103, R104, R105, with 44_axis_sequencer.md R125, R127 to R129 and 45_initialization.md R146: the two
phases of a turn of any BUSY poll, of AWAIT, READ_AXIS, an axis of SAMPLE_ALL or INIT's read. The sample comes first and a
ready level ends the poll whatever the time; then the timer, and the poll fails exactly when the elapsed value exceeds T_RES,
otherwise the next sample follows. The model's choice: that T_RES, T0, CMD, HI and LO are as they were after a poll that has
ended (log 12), and the true time, none passing at the DATA-READY sample and exactly the gap at the timer sample (log 4). -/
def Obligations.PollTurnOrder : Prop :=
  ∀ (s : State) (p : Poll),
    (s.seq = .busy (pollPhase p .aSample) →
      let l := (drawLevel s).1
      let sampled : State := { s with drdyIn := s.drdyIn.tail, draws := s.draws + 1, trace := s.trace ++ [.drdySample l] }
      (l = Config.drdyActiveLevel → step s = .next (afterReady p sampled)) ∧
      (l ≠ Config.drdyActiveLevel → step s = .next { sampled with seq := .busy (pollPhase p .aTime) })) ∧
    (s.seq = .busy (pollPhase p .aTime) →
      let tau := s.tau + (drawGap s).1
      let c : Word32 := BitVec.ofNat 32 tau
      let timed : State :=
        { s with gapIn := s.gapIn.tail, draws := s.draws + 1, tau := tau, trace := s.trace ++ [.timeSample c] }
      (s.tRes.toNat < (c - s.t0).toNat → step s = .next (afterDeadline p timed)) ∧
      ((c - s.t0).toNat ≤ s.tRes.toNat → step s = .next { timed with seq := .busy (pollPhase p .aSample) }))

/-- 42_ready_poll.md R107, 70_reset_and_hazards.md R195, 93_implementation_defined.md U7: with TIMEOUT_US = 0xFFFFFFFF no
AWAIT and no READ_AXIS ever answers Timeout; and with T_RES = 0xFFFFFFFF no timer sample of any poll ends it. -/
def Obligations.LargestTimeoutNeverExpires : Prop :=
  (∀ (s t : State) (axis : Axis) (rank : Byte) (i : Instr),
    (i = .await rank 0xFFFFFFFF#32 ∨ i = .readAxis axis rank 0xFFFFFFFF#32) → exec i s = .next t →
    ∀ r, t.response = some r → r.status ≠ .timeout) ∧
  (∀ (s t : State) (p : Poll), s.seq = .busy (pollPhase p .aTime) → s.tRes = 0xFFFFFFFF#32 → step s = .next t →
    t.seq = .busy (pollPhase p .aSample) ∧ t.tRes = 0xFFFFFFFF#32)

/-- 42_ready_poll.md R107: a poll whose timer samples are at most G apart, with T_RES + G at most 0xFFFFFFFF, has ended
once the time that has passed exceeds T_RES, whatever the levels and however often the timer wrapped: the poll of an AWAIT,
of a READ_AXIS and of INIT's read, and any poll of a BUSY block, an axis of SAMPLE_ALL among them, `base` being the time
since its T0. G is any bound; the block's own is the OPEN parameter POLL_GAP_MAX_US. -/
def Obligations.PollEndsInTime : Prop :=
  (∀ (s : State) (axis : Axis) (rank : Byte) (tmo : Word32) (i : Instr) (g G : Nat) (gs restG : List Nat),
    (i = .await rank tmo ∧ s.seq = .idle ∧ s.bind = .bound ∨ i = .readAxis axis rank tmo ∧ Ready s ∨
      i = .init ∧ s.seq = .idle ∧ rank = 0#8 ∧ tmo = 0#32) →
    rank.toNat ≤ 7 → s.gapIn = g :: (gs ++ restG) → gs.length ≤ max 1 s.drdyIn.length → (∀ d ∈ gs, d ≤ G) →
    (resolveTimeout (rankOf rank) tmo).toNat + G ≤ 0xFFFFFFFF →
    (resolveTimeout (rankOf rank) tmo).toNat < gs.sum →
    ∃ t r, exec i s = .next t ∧ t.seq = .idle ∧ t.response = some r ∧ (r.status = .ok ∨ r.status = .timeout)) ∧
  (∀ (s : State) (p : Poll) (base G : Nat) (gs restG : List Nat), s.seq = .busy (pollPhase p .aSample) →
    base ≤ s.tau → s.t0 = timerCount (s.tau - base) → base ≤ s.tRes.toNat → s.gapIn = gs ++ restG →
    (∀ d ∈ gs, d ≤ G) → s.tRes.toNat + G ≤ 0xFFFFFFFF → s.tRes.toNat < base + gs.sum →
    ∃ n t, Host.Core.run Sys2Proof.core n s = .next t ∧ ∃ u, t = afterReady p u ∨ t = afterDeadline p u)

/-- 42_ready_poll.md R107 under 60_exceptions.md R172: in every infinite run in which time passes, a poll whose timer samples
are at most G apart, with T_RES + G at most 0xFFFFFFFF, ends, by its ready or by its deadline exit, whatever the sensor and
the timer answer. The run starts at the poll's A_START, where T0 is captured, or at an A_SAMPLE, `base` after T0. G is any
bound; the block's own is the OPEN parameter POLL_GAP_MAX_US. The model's choice: what a run is and where true time shows
(log 4). -/
def Obligations.PollEndsAsTimePasses : Prop :=
  ∀ (ρ : Nat → State) (p : Poll) (base G : Nat), IsRun ρ → TimePasses ρ →
    ((ρ 0).seq = .busy (pollPhase p .aStart) ∨
      (ρ 0).seq = .busy (pollPhase p .aSample) ∧ base ≤ (ρ 0).tau ∧ (ρ 0).t0 = timerCount ((ρ 0).tau - base) ∧
        base ≤ (ρ 0).tRes.toNat) →
    (∀ n, (ρ n).seq = .busy (pollPhase p .aTime) → (drawGap (ρ n)).1 ≤ G) → (ρ 0).tRes.toNat + G ≤ 0xFFFFFFFF →
    ∃ n u, ρ n = afterReady p u ∨ ρ n = afterDeadline p u

/-! ### Result read -/

/-- 43_result_read.md R115, 20_memory.md R49: the composed value is the big-endian two's-complement value of the bytes. -/
def Obligations.ComposeIsBigEndianSigned : Prop :=
  ∀ hi lo : Byte,
    compose hi lo = bigEndian hi lo ∧
    asS16 (compose hi lo) = (compose hi lo).toInt ∧
    asS16 (compose hi lo) =
      if hi.toNat * 256 + lo.toNat < 0x8000 then ((hi.toNat * 256 + lo.toNat : Nat) : Int)
      else ((hi.toNat * 256 + lo.toNat : Nat) : Int) - 0x10000

/-- 43_result_read.md R116: READ_RESULT performs its three events whatever CS is, answers OK with the composed value, and
changes nothing but HI, LO and CS_LVL. The model's choice: HI and LO after the request (log 12), and no time passing at its
events, since any is part of the next sample's gap (log 4). -/
def Obligations.ReadResultCompletes : Prop :=
  ∀ (s : State) (hi lo : Byte) (bs : List Byte), s.seq = .idle → s.bind = .bound → s.dirCs = .output →
    s.busIn = hi :: lo :: bs →
    exec .readResult s =
      .next { s with
        hi := hi
        lo := lo
        csLvl := .drive .high
        busIn := bs
        draws := s.draws + 2
        trace := [.xfer 0x00#8 hi, .xfer 0x00#8 lo, .pinWrite .cs .high]
        response := some { status := .ok, meas := bigEndian hi lo } }

/-- 43_result_read.md R116, R117: with no answer lined up READ_RESULT still ends with OK; the value is the composition of
two bytes that may be anything. The model's choice: HI and LO after the request (log 12), and no time passing (log 4). -/
def Obligations.ReadResultOfAnyBytes : Prop :=
  ∀ s : State, s.seq = .idle → s.bind = .bound → s.dirCs = .output → ∃ t hi lo, exec .readResult s = .next t ∧
    t.trace = [.xfer 0x00#8 hi, .xfer 0x00#8 lo, .pinWrite .cs .high] ∧
    t.response = some { status := .ok, meas := compose hi lo } ∧
    t = { s with hi := hi, lo := lo, csLvl := .drive .high, busIn := s.busIn.drop 2, draws := s.draws + 2,
                 trace := t.trace, response := t.response }

/-! ### Single-axis read -/

/-- 44_axis_sequencer.md R125: READ_AXIS whose first sample is ready: five trigger events, two of the poll, three of the
read; OK with the composed value; CS high. The model's choice: CMD, T_RES, T0, HI, LO after the request (log 12), and the
true time, exactly the Delay and the gap (log 4). -/
def Obligations.ReadAxisCompletes : Prop :=
  ∀ (s : State) (axis : Axis) (rank : Byte) (tmo : Word32) (received hi lo : Byte) (bs : List Byte) (g : Nat)
    (gs : List Nat) (ls : List Level),
    Ready s → rank.toNat ≤ 7 → s.busIn = received :: hi :: lo :: bs → s.gapIn = g :: gs →
    s.drdyIn = Config.drdyActiveLevel :: ls →
    exec (.readAxis axis rank tmo) s =
      .next { s with
        cmd := commandNumber axis rank.toNat
        tRes := resolveTimeout (rankOf rank) tmo
        t0 := timerCount (s.tau + 1 + g)
        hi := hi
        lo := lo
        csLvl := .drive .high
        rstLvl := .drive .low
        busIn := bs
        gapIn := gs
        drdyIn := ls
        tau := s.tau + 1 + g
        draws := s.draws + 5
        trace := triggerEvents (commandNumber axis rank.toNat) received ++
          [.timeSample (timerCount (s.tau + 1 + g)), .drdySample Config.drdyActiveLevel] ++ readEvents hi lo
        response := some { status := .ok, meas := bigEndian hi lo } }

/-- 44_axis_sequencer.md R125, R126: READ_AXIS whose one sample is not ready and whose deadline has then passed: the
trigger, the poll's samples, Timeout with Measurement 0, CS left low, and no result read. The model's choice: CMD, T_RES, T0
after the request and HI, LO as they were (log 12), and the true time, exactly the Delay and the gaps (log 4). -/
def Obligations.ReadAxisTimesOut : Prop :=
  ∀ (s : State) (axis : Axis) (rank : Byte) (tmo : Word32) (received : Byte) (bs : List Byte) (g d : Nat)
    (gs : List Nat) (l : Level) (ls : List Level),
    Ready s → rank.toNat ≤ 7 → s.busIn = received :: bs → s.gapIn = g :: d :: gs → s.drdyIn = l :: ls →
    l ≠ Config.drdyActiveLevel → (resolveTimeout (rankOf rank) tmo).toNat < d % 2 ^ 32 →
    exec (.readAxis axis rank tmo) s =
      .next { s with
        cmd := commandNumber axis rank.toNat
        tRes := resolveTimeout (rankOf rank) tmo
        t0 := timerCount (s.tau + 1 + g)
        csLvl := .drive .low
        rstLvl := .drive .low
        busIn := bs
        gapIn := gs
        drdyIn := ls
        tau := s.tau + 1 + g + d
        draws := s.draws + 4
        trace := triggerEvents (commandNumber axis rank.toNat) received ++
          [.timeSample (timerCount (s.tau + 1 + g)), .drdySample l, .timeSample (timerCount (s.tau + 1 + g + d))]
        response := some { status := .timeout } }

/-- 44_axis_sequencer.md R125, 95_test_vectors.md P4: a READ_AXIS does what TRIGGER, AWAIT and READ_RESULT do when issued
one after the other with both first ones OK: the same state, the three traces in a row, the same value. The model's choice:
that the two ways also agree in the transient registers after the request (log 12) and in the true time, none passing
between the three requests (log 4). -/
def Obligations.ReadAxisIsThreeRequests : Prop :=
  ∀ (s s1 s2 s3 : State) (axis : Axis) (rank : Byte) (tmo : Word32),
    exec (.trigger axis rank) s = .next s1 → s1.response = some { status := .ok } →
    exec (.await rank tmo) s1 = .next s2 → s2.response = some { status := .ok } →
    exec .readResult s2 = .next s3 →
    exec (.readAxis axis rank tmo) s = .next { s3 with trace := s1.trace ++ s2.trace ++ s3.trace }

/-- 44_axis_sequencer.md R126, with R125 and 30_encoding.md R79: a READ_AXIS that times out leaves CS low with no result
byte taken; one that fails with InvalidPeriod leaves CS untouched; both answer MEAS 0. The model's choice: that HI and LO are
as they were after the Timeout (log 12). -/
def Obligations.FailedReadAxisChipSelect : Prop :=
  ∀ (s t : State) (axis : Axis) (rank : Byte) (tmo : Word32), s.bind = .bound →
    exec (.readAxis axis rank tmo) s = .next t →
    (∀ r, t.response = some r → r.status = .timeout →
      t.csLvl = .drive .low ∧ r.meas = 0#16 ∧ resultBytesOf t.trace = [] ∧ t.hi = s.hi ∧ t.lo = s.lo) ∧
    (∀ r, t.response = some r → r.status = .invalidPeriod → t.csLvl = s.csLvl ∧ r.meas = 0#16 ∧ t.trace = [])

/-- 70_reset_and_hazards.md R199: a READ_AXIS that succeeds lasts at least 1 us; one that times out lasts more than its
resolved timeout. -/
def Obligations.ReadAxisDuration : Prop :=
  ∀ (s t : State) (axis : Axis) (rank : Byte) (tmo : Word32), s.bind = .bound →
    exec (.readAxis axis rank tmo) s = .next t →
    (∀ r, t.response = some r → r.status = .ok → s.tau + 1 ≤ t.tau) ∧
    (∀ r, t.response = some r → r.status = .timeout → s.tau + 1 + (resolveTimeout (rankOf rank) tmo).toNat < t.tau)

/-- 44_axis_sequencer.md R125: READ_AXIS leaves BIND, the directions, BUS_CFG, the sample registers and VALID as they are. -/
def Obligations.ReadAxisFrame : Prop :=
  ∀ (s t : State) (axis : Axis) (rank : Byte) (tmo : Word32), s.bind = .bound →
    exec (.readAxis axis rank tmo) s = .next t →
    t = { s with cmd := t.cmd, tRes := t.tRes, t0 := t.t0, hi := t.hi, lo := t.lo, csLvl := t.csLvl, rstLvl := t.rstLvl,
                 seq := t.seq, trace := t.trace, response := t.response, drdyIn := t.drdyIn, busIn := t.busIn,
                 gapIn := t.gapIn, tau := t.tau, draws := t.draws }

/-! ### Three-axis sequencer -/

/-- 44_axis_sequencer.md R127, R132: SAMPLE_ALL in which every axis is ready at its first sample. The model's choice: CMD,
T_RES, T0, HI, LO after the request (log 12), and the true time, exactly the Delays and the gaps (log 4). -/
def Obligations.SampleAllCompletes : Prop :=
  ∀ (s : State) (r1 h1 l1 r2 h2 l2 r3 h3 l3 : Byte) (bs : List Byte) (g1 g2 g3 : Nat) (gs : List Nat)
    (ls : List Level),
    Ready s → s.busIn = r1 :: h1 :: l1 :: r2 :: h2 :: l2 :: r3 :: h3 :: l3 :: bs → s.gapIn = g1 :: g2 :: g3 :: gs →
    s.drdyIn = Config.drdyActiveLevel :: Config.drdyActiveLevel :: Config.drdyActiveLevel :: ls →
    let t1 := s.tau + 2000 + 1 + g1
    let t2 := t1 + 1 + g2
    let t3 := t2 + 1 + g3
    exec .sampleAll s =
      .next { s with
        cmd := 3#8
        tRes := 501#32
        t0 := timerCount t3
        hi := h3
        lo := l3
        sx := bigEndian h1 l1
        sy := bigEndian h2 l2
        sz := bigEndian h3 l3
        valid := true
        csLvl := .drive .high
        rstLvl := .drive .low
        busCfg := some fixedBusConfig
        busIn := bs
        gapIn := gs
        drdyIn := ls
        tau := t3
        draws := s.draws + 15
        trace := [.pinWrite .cs .low, .delay 2000, .busCfg fixedBusConfig] ++
          (triggerEvents 0x01#8 r1 ++ [.timeSample (timerCount t1), .drdySample Config.drdyActiveLevel] ++ readEvents h1 l1) ++
          (triggerEvents 0x02#8 r2 ++ [.timeSample (timerCount t2), .drdySample Config.drdyActiveLevel] ++ readEvents h2 l2) ++
          (triggerEvents 0x03#8 r3 ++ [.timeSample (timerCount t3), .drdySample Config.drdyActiveLevel] ++ readEvents h3 l3) ++
          [.pinWrite .cs .high]
        response := some { status := .ok, x := bigEndian h1 l1, y := bigEndian h2 l2, z := bigEndian h3 l3, valid := true } }

/-- 44_axis_sequencer.md R127 (the source's scenario), 95_test_vectors.md W6, P2: X times out, Y and Z succeed: X is 0, VALID is
0, Y and Z are their readings, and CS is low from X's trigger on until Y's read ends. The model's choice: CMD, T_RES, T0, HI,
LO after the request (log 12), and the true time, exactly the Delays and the gaps (log 4). -/
def Obligations.SampleAllSurvivesTimeoutOfX : Prop :=
  ∀ (s : State) (r1 r2 h2 l2 r3 h3 l3 : Byte) (bs : List Byte) (g0 g1 g2 g3 : Nat) (gs : List Nat)
    (l : Level) (ls : List Level),
    Ready s → s.busIn = r1 :: r2 :: h2 :: l2 :: r3 :: h3 :: l3 :: bs → s.gapIn = g0 :: g1 :: g2 :: g3 :: gs →
    l ≠ Config.drdyActiveLevel → s.drdyIn = l :: Config.drdyActiveLevel :: Config.drdyActiveLevel :: ls →
    501 < g1 % 2 ^ 32 →
    let t0 := s.tau + 2000 + 1 + g0
    let t1 := t0 + g1
    let t2 := t1 + 1 + g2
    let t3 := t2 + 1 + g3
    exec .sampleAll s =
      .next { s with
        cmd := 3#8
        tRes := 501#32
        t0 := timerCount t3
        hi := h3
        lo := l3
        sx := 0#16
        sy := bigEndian h2 l2
        sz := bigEndian h3 l3
        valid := false
        csLvl := .drive .high
        rstLvl := .drive .low
        busCfg := some fixedBusConfig
        busIn := bs
        gapIn := gs
        drdyIn := ls
        tau := t3
        draws := s.draws + 14
        trace := [.pinWrite .cs .low, .delay 2000, .busCfg fixedBusConfig] ++
          (triggerEvents 0x01#8 r1 ++ [.timeSample (timerCount t0), .drdySample l, .timeSample (timerCount t1)]) ++
          (triggerEvents 0x02#8 r2 ++ [.timeSample (timerCount t2), .drdySample Config.drdyActiveLevel] ++ readEvents h2 l2) ++
          (triggerEvents 0x03#8 r3 ++ [.timeSample (timerCount t3), .drdySample Config.drdyActiveLevel] ++ readEvents h3 l3) ++
          [.pinWrite .cs .high]
        response := some { status := .ok, x := 0#16, y := bigEndian h2 l2, z := bigEndian h3 l3, valid := false } }

/-- 44_axis_sequencer.md R130: a SAMPLE_ALL that has ended attempted each of X, Y and Z exactly once, in this order,
whatever the earlier ones returned. -/
def Obligations.EveryAxisAttemptedOnce : Prop :=
  ∀ s t : State, s.bind = .bound → exec .sampleAll s = .next t → t.seq = .idle →
    commandsOf t.trace = [0x01#8, 0x02#8, 0x03#8]

/-- 44_axis_sequencer.md R128: VALID of an ended SAMPLE_ALL is 1 exactly when all three axis reads returned OK, that is
when two result bytes were read for each of the three axes. -/
def Obligations.ValidExactlyWhenAllRead : Prop :=
  ∀ s t : State, s.bind = .bound → exec .sampleAll s = .next t → t.seq = .idle →
    (t.valid = true ↔ (resultBytesOf t.trace).length = 6)

/-- 44_axis_sequencer.md R127, R128, R129, R133: the three reads of an ended SAMPLE_ALL, one after the other; each sample
register holds its reading or 0 when that read failed, VALID is the conjunction, a failure is always Timeout, STATUS is OK,
the response carries the registers, CS ends high. -/
def Obligations.SampleAllLatchesEachAxis : Prop :=
  ∀ s t : State, s.bind = .bound → exec .sampleAll s = .next t → t.seq = .idle →
    ∃ (a b c : Status × Measurement) (s1 s2 s3 : State),
      readAxisBody .x 0#8 0#32 (openSample (accept s)) = (some a, s1) ∧
      readAxisBody .y 0#8 0#32 (latchAxis .x a s1) = (some b, s2) ∧
      readAxisBody .z 0#8 0#32 (latchAxis .y b s2) = (some c, s3) ∧
      (∀ q ∈ [a, b, c], q.1 = .ok ∨ q.1 = .timeout) ∧
      t.sx = (if a.1 = .ok then a.2 else 0#16) ∧ t.sy = (if b.1 = .ok then b.2 else 0#16) ∧
      t.sz = (if c.1 = .ok then c.2 else 0#16) ∧
      t.valid = (decide (a.1 = .ok) && decide (b.1 = .ok) && decide (c.1 = .ok)) ∧
      t.response = some { status := .ok, x := t.sx, y := t.sy, z := t.sz, valid := t.valid } ∧
      t.csLvl = .drive .high ∧ t.rstLvl = .drive .low ∧ t.busCfg = some fixedBusConfig

/-- 44_axis_sequencer.md R127: SAMPLE_ALL leaves BIND and the directions as they are. -/
def Obligations.SampleAllFrame : Prop :=
  ∀ s t : State, s.bind = .bound → exec .sampleAll s = .next t →
    t.bind = s.bind ∧ t.dirDrdy = s.dirDrdy ∧ t.dirRst = s.dirRst ∧ t.dirCs = s.dirCs ∧ t.requests = s.requests

/-- 70_reset_and_hazards.md R199: a SAMPLE_ALL that has ended lasted at least 2003 us, and at least 3509 us when every axis
timed out. -/
def Obligations.SampleAllDuration : Prop :=
  ∀ s t : State, s.bind = .bound → exec .sampleAll s = .next t → t.seq = .idle →
    s.tau + 2003 ≤ t.tau ∧ (resultBytesOf t.trace = [] → s.tau + 3509 ≤ t.tau)

/-! ### Initialization and reset -/

/-- 45_initialization.md R146, R149: INIT whose first sample is ready, Unbound or Bound before: bus configuration, binding,
one read of X at rank 0, OK with SUCCESS 1, the value dropped. The model's choice: CMD, T_RES, T0, HI, LO after the request
(log 12), and the true time, exactly the Delay and the gap (log 4). -/
def Obligations.InitCompletes : Prop :=
  ∀ (s : State) (received hi lo : Byte) (bs : List Byte) (g : Nat) (gs : List Nat) (ls : List Level),
    s.seq = .idle → s.busIn = received :: hi :: lo :: bs → s.gapIn = g :: gs →
    s.drdyIn = Config.drdyActiveLevel :: ls →
    exec .init s =
      .next { s with
        bind := .bound
        dirDrdy := .input
        dirRst := .output
        dirCs := .output
        csLvl := .drive .high
        rstLvl := .drive .low
        busCfg := some fixedBusConfig
        cmd := 1#8
        tRes := 501#32
        t0 := timerCount (s.tau + 1 + g)
        hi := hi
        lo := lo
        busIn := bs
        gapIn := gs
        drdyIn := ls
        tau := s.tau + 1 + g
        draws := s.draws + 5
        trace := [.busCfg fixedBusConfig, .pinMode .drdy .input, .pinMode .rst .output, .pinMode .cs .output,
            .pinWrite .cs .high, .pinWrite .rst .low] ++ triggerEvents 0x01#8 received ++
          [.timeSample (timerCount (s.tau + 1 + g)), .drdySample Config.drdyActiveLevel] ++ readEvents hi lo
        response := some { status := .ok, success := true } }

/-- 45_initialization.md R146, R147, R148: whatever its read comes to, INIT leaves the pins bound and the bus configured,
touches neither the sample registers nor VALID, and when it has ended SUCCESS is 1 exactly when the read was OK, the
Measurement is not in the response, and CS is high after success and low after a Timeout. -/
def Obligations.InitOutcomes : Prop :=
  ∀ s : State, s.seq = .idle → ∃ t, exec .init s = .next t ∧ PinsBound t ∧ t.bind = .bound ∧ RstLow t ∧
    t.sx = s.sx ∧ t.sy = s.sy ∧ t.sz = s.sz ∧ t.valid = s.valid ∧ (∃ later, t.trace = initEvents ++ later) ∧
    ((t.seq = .idle ∧ t.response = some { status := .ok, success := true } ∧ t.csLvl = .drive .high) ∨
      (t.seq = .idle ∧ t.response = some { status := .timeout, success := false } ∧ t.csLvl = .drive .low) ∨
      (t.seq = .busy (.iRead (.wait .aSample)) ∧ t.response = none ∧ t.csLvl = .drive .low))

/-- 10_state.md R37, 70_reset_and_hazards.md R185: the values the spec gives the registers after reset, and no event. -/
def Obligations.ResetValues : Prop :=
  State.reset.bind = .unbound ∧ State.reset.csLvl = .z ∧ State.reset.rstLvl = .z ∧ State.reset.dirDrdy = .unset ∧
  State.reset.dirRst = .unset ∧ State.reset.dirCs = .unset ∧ State.reset.busCfg = none ∧ State.reset.seq = .idle ∧
  State.reset.trace = []

/-- 70_reset_and_hazards.md R187: while Unbound the five hardware requests are REJECTED with no event and nothing changed;
ENCODE and INIT are admitted. -/
def Obligations.UnboundAdmitsEncodeAndInit : Prop :=
  ∀ (s : State) (i : Instr), s.seq = .idle → s.bind = .unbound →
    (NeedsBound i → exec i s = .next { s with trace := [], response := some { status := .rejected } }) ∧
    ((i = .init ∨ ∃ axis rank, i = .encode axis rank) →
      ∃ t, exec i s = .next t ∧ t.response ≠ some { status := .rejected })

/-! ### The whole machine -/

/-- The invariant holds after reset (10_state.md R37). -/
def Obligations.ResetMeetsInvariant : Prop := Inv State.reset

/-- 10_state.md R21 to R25, 41_conversion_trigger.md R90, R91: every step keeps the invariant. -/
def Obligations.StepKeepsInvariant : Prop :=
  ∀ s t : State, Inv s → step s = .next t → Inv t

/-- 60_exceptions.md R160 ("never a fatal abort"), R158: from every state of the invariant a step answers a next state,
never a fault and never a refusal. -/
def Obligations.StepNeverStops : Prop :=
  ∀ s : State, Inv s → ∃ t, step s = .next t

/-- 10_state.md R21: BIND is Unbound at reset, becomes Bound only in a step of an INIT, and never becomes Unbound again; and
while Unbound the requests other than ENCODE and INIT are rejected. -/
def Obligations.OnlyInitBinds : Prop :=
  State.reset.bind = .unbound ∧
  (∀ s t : State, step s = .next t → (s.bind = .bound → t.bind = .bound) ∧ (t.bind ≠ s.bind → RunsInit s)) ∧
  (∀ (s : State) (i : Instr), s.seq = .idle → s.bind = .unbound → NeedsBound i →
    exec i s = .next { s with trace := [], response := some { status := .rejected } })

/-- 10_state.md R25, 45_initialization.md R145: the pin directions are written only in a step of an INIT, and to INPUT,
OUTPUT, OUTPUT. -/
def Obligations.OnlyInitSetsDirections : Prop :=
  ∀ s t : State, step s = .next t →
    (t.dirDrdy = s.dirDrdy ∨ (RunsInit s ∧ t.dirDrdy = .input)) ∧
    (t.dirRst = s.dirRst ∨ (RunsInit s ∧ t.dirRst = .output)) ∧
    (t.dirCs = s.dirCs ∨ (RunsInit s ∧ t.dirCs = .output))

/-- 10_state.md R24, 20_memory.md R51: BUS_CFG is written only in a step of an INIT or a SAMPLE_ALL, and always to the one
fixed configuration. -/
def Obligations.OnlyInitAndSampleConfigureBus : Prop :=
  ∀ s t : State, step s = .next t → t.busCfg ≠ s.busCfg →
    (RunsInit s ∨ RunsSampleAll s) ∧ t.busCfg = some fixedBusConfig

/-- 10_state.md R30, R31: SX, SY, SZ and VALID change only in a step of a SAMPLE_ALL. -/
def Obligations.OnlySampleAllWritesSamples : Prop :=
  ∀ s t : State, step s = .next t → ¬ RunsSampleAll s →
    t.sx = s.sx ∧ t.sy = s.sy ∧ t.sz = s.sz ∧ t.valid = s.valid

/-- 10_state.md R32, 60_exceptions.md R166: a request is not accepted while BUSY: a BUSY step leaves the host's requests
alone, and a request's meaning has no move in a BUSY state. -/
def Obligations.BusyAcceptsNoRequest : Prop :=
  (∀ (s t : State) (ph : Phase), s.seq = .busy ph → step s = .next t → t.requests = s.requests) ∧
  (∀ (s : State) (ph : Phase) (i : Instr), s.seq = .busy ph → IsRequest i → exec i s = .refused .requestWhileBusy)

/-- 60_exceptions.md R170, R171: the true time never decreases in a step; a timer sample is the true time modulo 2^32; and a
Delay puts at least its microseconds between the samples before and after it. -/
def Obligations.TimeOnlyAdvances : Prop :=
  (∀ s t : State, step s = .next t → s.tau ≤ t.tau) ∧
  (∀ s : State, s.tau ≤ (now s).2.tau ∧ (now s).1.toNat = (now s).2.tau % 2 ^ 32) ∧
  (∀ (s : State) (us : Nat), (now s).2.tau + us ≤ (now (delay us (now s).2)).2.tau)

/-- 20_memory.md R52: a PinWrite is performed only while its pin is an output. A phase that would drive a pin which is no
output stops by name, and so do the requests that would; every other phase goes on; no state of the invariant comes to the
stop. That the model stops, and a request before its first event, is its choice (log 10). -/
def Obligations.PinWritesNeedOutputs : Prop :=
  (∀ (s : State) (ph : Phase) (p : OutPin), p ∈ phaseDrives ph → isOutput s p = false →
    phaseStep ph s = .fault .pinNotOutput) ∧
  (∀ (s : State) (ph : Phase), (∀ p ∈ phaseDrives ph, isOutput s p = true) → ∃ t, phaseStep ph s = .next t) ∧
  (∀ s : State, s.seq = .idle → s.bind = .bound → s.dirCs ≠ .output → exec .readResult s = .fault .pinNotOutput) ∧
  (∀ s : State, s.seq = .idle → s.bind = .bound → s.dirRst ≠ .output ∨ s.dirCs ≠ .output →
    exec .sampleAll s = .fault .pinNotOutput ∧
    ∀ (axis : Axis) (rank : Byte) (tmo : Word32), rank.toNat ≤ 7 →
      exec (.trigger axis rank) s = .fault .pinNotOutput ∧ exec (.readAxis axis rank tmo) s = .fault .pinNotOutput) ∧
  (∀ (s : State) (ph : Phase) (p : OutPin), Inv s → s.seq = .busy ph → p ∈ phaseDrives ph → isOutput s p = true)

/-- 10_state.md R32, R33: running a request phase by phase from its first phase comes, after some number of steps, to
exactly the state the request's meaning answers at once. The model's choice: that a meaning runs the whole request at once
(log 7), and that the two ways also agree in the transient registers afterwards (log 12) and in the true time (log 4). -/
def Obligations.PhasesReachTheWholeRequest : Prop :=
  ∀ (s t : State) (i : Instr) (ph : Phase), firstPhase i = some ph → s.seq = .idle → (s.bind = .bound ∨ i = .init) →
    exec i s = .next t → ∃ n, Host.Core.run Sys2Proof.core n (goPhase ph (accept s)) = .next t
end

