-- ==== Sys2Proof/Laws/Operands.lean ====
section
/-! SUPPORT. The datapath: the rank check, the encoder, the composer, elapsed time. -/

namespace Sys2Proof.Laws

open Sys2Proof.Machine Sys2Proof.Safety

theorem rankOutOfRange_iff (r : Byte) : rankOutOfRange r = true ↔ 8 ≤ r.toNat := by
  rw [rankOutOfRange, decide_eq_true_iff, BitVec.lt_def]
  exact Nat.lt_iff_add_one_le

theorem rankOutOfRange_of_le {r : Byte} (h : r.toNat ≤ 7) : rankOutOfRange r = false := by
  have := rankOutOfRange_iff r
  cases hr : rankOutOfRange r
  · rfl
  · rw [hr] at this
    have := this.1 rfl
    omega

theorem rankOutOfRange_of_ge {r : Byte} (h : 8 ≤ r.toNat) : rankOutOfRange r = true := (rankOutOfRange_iff r).2 h

theorem le_of_rankInRange {r : Byte} (h : rankOutOfRange r = false) : r.toNat ≤ 7 := by
  by_contra hc
  rw [rankOutOfRange_of_ge (by omega)] at h
  cases h

theorem encodeCommand_eq_none_iff (axis : Axis) (r : Byte) : encodeCommand axis r = none ↔ rankOutOfRange r = true := by
  unfold encodeCommand
  split <;> simp_all

theorem encodeCommand_of_inRange {r : Byte} (axis : Axis) (h : rankOutOfRange r = false) :
    encodeCommand axis r = some (commandNumber axis r.toNat) := by
  have hr := le_of_rankInRange h
  obtain ⟨n, hn⟩ : ∃ n, n = r.toNat := ⟨_, rfl⟩
  have hr' : r = BitVec.ofNat 8 n := by rw [hn]; simp
  rw [← hn] at hr ⊢
  subst hr'
  rw [encodeCommand, if_neg (by simp [h])]
  congr 1
  interval_cases n <;> cases axis <;> rfl

/-- A byte the encoder gives is the command number of a rank in range. -/
theorem encodeCommand_some {axis : Axis} {r c : Byte} (h : encodeCommand axis r = some c) :
    rankOutOfRange r = false ∧ c = commandNumber axis r.toNat := by
  cases hr : rankOutOfRange r
  · rw [encodeCommand_of_inRange axis hr] at h
    exact ⟨rfl, (Option.some.inj h).symm⟩
  · rw [(encodeCommand_eq_none_iff axis r).2 hr] at h
    cases h

theorem commandNumber_legal (axis : Axis) {n : Nat} (h : n ≤ 7) : LegalCommand (commandNumber axis n) := by
  unfold LegalCommand
  interval_cases n <;> cases axis <;> decide

theorem encodeCommand_legal {axis : Axis} {r c : Byte} (h : encodeCommand axis r = some c) : LegalCommand c := by
  obtain ⟨hr, rfl⟩ := encodeCommand_some h
  exact commandNumber_legal axis (le_of_rankInRange hr)

theorem legalCommand_ne_placeholder {c : Byte} (h : LegalCommand c) : c ≠ placeholderByte := by
  rintro rfl
  exact h.2 (by decide)

/-- The command byte of a 4-bit rank in range, by number. -/
theorem commandByte_eq (axis : Axis) {r : BitVec 4} (h : r.toNat ≤ 7) :
    commandByte axis r = commandNumber axis r.toNat := by
  obtain ⟨n, hn⟩ : ∃ n, n = r.toNat := ⟨_, rfl⟩
  have hr' : r = BitVec.ofNat 4 n := by rw [hn]; simp
  rw [← hn] at h ⊢
  subst hr'
  interval_cases n <;> cases axis <;> rfl

theorem compose_toNat (hi lo : Byte) : (compose hi lo).toNat = hi.toNat * 256 + lo.toNat := by
  have h1 := hi.isLt
  have h2 := lo.isLt
  simp only [compose, BitVec.toNat_or, BitVec.toNat_shiftLeft, BitVec.toNat_setWidth]
  rw [Nat.mod_eq_of_lt (show hi.toNat < 2 ^ 16 by omega), Nat.mod_eq_of_lt (show lo.toNat < 2 ^ 16 by omega),
    Nat.mod_eq_of_lt (by rw [Nat.shiftLeft_eq]; omega), ← Nat.shiftLeft_add_eq_or_of_lt h2, Nat.shiftLeft_eq]

theorem compose_eq_bigEndian (hi lo : Byte) : compose hi lo = bigEndian hi lo := by
  apply BitVec.eq_of_toNat_eq
  have h1 := hi.isLt
  have h2 := lo.isLt
  rw [compose_toNat, bigEndian, BitVec.toNat_ofNat, Nat.mod_eq_of_lt]
  omega

theorem timerCount_toNat (tau : Nat) : (timerCount tau).toNat = tau % 2 ^ 32 := by
  simp [timerCount]

/-- Elapsed time of two counts is the true difference modulo 2^32. -/
theorem elapsed_toNat (a d : Nat) : (elapsed (timerCount (a + d)) (timerCount a)).toNat = d % 2 ^ 32 := by
  simp only [elapsed, timerCount, BitVec.toNat_sub, BitVec.toNat_ofNat]
  omega

theorem pastDeadline_iff (t t0 tRes : Word32) : pastDeadline t t0 tRes = true ↔ tRes.toNat < (elapsed t t0).toNat := by
  simp [pastDeadline, BitVec.lt_def]

@[simp] theorem isReady_active : isReady Config.drdyActiveLevel = true := by simp [isReady]

theorem isReady_iff (l : Level) : isReady l = true ↔ l = Config.drdyActiveLevel := by simp [isReady]

theorem isReady_of_ne {l : Level} (h : l ≠ Config.drdyActiveLevel) : isReady l = false := by simp [isReady, h]

end Sys2Proof.Laws
end

