-- ==== Sys2Proof/Laws/State.lean ====
section
/-! SUPPORT. What each named operation does to each field of State, so that no later proof unfolds a record update. -/

namespace Sys2Proof.Laws

open Sys2Proof.Machine

variable (s : State)

/-! ### emit -/

@[simp] theorem emit_bind (e : Event) : (emit e s).bind = s.bind := rfl
@[simp] theorem emit_csLvl (e : Event) : (emit e s).csLvl = s.csLvl := rfl
@[simp] theorem emit_rstLvl (e : Event) : (emit e s).rstLvl = s.rstLvl := rfl
@[simp] theorem emit_dirDrdy (e : Event) : (emit e s).dirDrdy = s.dirDrdy := rfl
@[simp] theorem emit_dirRst (e : Event) : (emit e s).dirRst = s.dirRst := rfl
@[simp] theorem emit_dirCs (e : Event) : (emit e s).dirCs = s.dirCs := rfl
@[simp] theorem emit_busCfg (e : Event) : (emit e s).busCfg = s.busCfg := rfl
@[simp] theorem emit_cmd (e : Event) : (emit e s).cmd = s.cmd := rfl
@[simp] theorem emit_tRes (e : Event) : (emit e s).tRes = s.tRes := rfl
@[simp] theorem emit_t0 (e : Event) : (emit e s).t0 = s.t0 := rfl
@[simp] theorem emit_hi (e : Event) : (emit e s).hi = s.hi := rfl
@[simp] theorem emit_lo (e : Event) : (emit e s).lo = s.lo := rfl
@[simp] theorem emit_sx (e : Event) : (emit e s).sx = s.sx := rfl
@[simp] theorem emit_sy (e : Event) : (emit e s).sy = s.sy := rfl
@[simp] theorem emit_sz (e : Event) : (emit e s).sz = s.sz := rfl
@[simp] theorem emit_valid (e : Event) : (emit e s).valid = s.valid := rfl
@[simp] theorem emit_seq (e : Event) : (emit e s).seq = s.seq := rfl
@[simp] theorem emit_trace (e : Event) : (emit e s).trace = s.trace ++ [e] := rfl
@[simp] theorem emit_response (e : Event) : (emit e s).response = s.response := rfl
@[simp] theorem emit_requests (e : Event) : (emit e s).requests = s.requests := rfl
@[simp] theorem emit_drdyIn (e : Event) : (emit e s).drdyIn = s.drdyIn := rfl
@[simp] theorem emit_busIn (e : Event) : (emit e s).busIn = s.busIn := rfl
@[simp] theorem emit_gapIn (e : Event) : (emit e s).gapIn = s.gapIn := rfl
@[simp] theorem emit_tau (e : Event) : (emit e s).tau = s.tau := rfl
@[simp] theorem emit_draws (e : Event) : (emit e s).draws = s.draws := rfl

/-! ### accept -/

@[simp] theorem accept_bind : (accept s).bind = s.bind := rfl
@[simp] theorem accept_csLvl : (accept s).csLvl = s.csLvl := rfl
@[simp] theorem accept_rstLvl : (accept s).rstLvl = s.rstLvl := rfl
@[simp] theorem accept_dirDrdy : (accept s).dirDrdy = s.dirDrdy := rfl
@[simp] theorem accept_dirRst : (accept s).dirRst = s.dirRst := rfl
@[simp] theorem accept_dirCs : (accept s).dirCs = s.dirCs := rfl
@[simp] theorem accept_busCfg : (accept s).busCfg = s.busCfg := rfl
@[simp] theorem accept_cmd : (accept s).cmd = s.cmd := rfl
@[simp] theorem accept_tRes : (accept s).tRes = s.tRes := rfl
@[simp] theorem accept_t0 : (accept s).t0 = s.t0 := rfl
@[simp] theorem accept_hi : (accept s).hi = s.hi := rfl
@[simp] theorem accept_lo : (accept s).lo = s.lo := rfl
@[simp] theorem accept_sx : (accept s).sx = s.sx := rfl
@[simp] theorem accept_sy : (accept s).sy = s.sy := rfl
@[simp] theorem accept_sz : (accept s).sz = s.sz := rfl
@[simp] theorem accept_valid : (accept s).valid = s.valid := rfl
@[simp] theorem accept_seq : (accept s).seq = s.seq := rfl
@[simp] theorem accept_trace : (accept s).trace = [] := rfl
@[simp] theorem accept_response : (accept s).response = none := rfl
@[simp] theorem accept_requests : (accept s).requests = s.requests := rfl
@[simp] theorem accept_drdyIn : (accept s).drdyIn = s.drdyIn := rfl
@[simp] theorem accept_busIn : (accept s).busIn = s.busIn := rfl
@[simp] theorem accept_gapIn : (accept s).gapIn = s.gapIn := rfl
@[simp] theorem accept_tau : (accept s).tau = s.tau := rfl
@[simp] theorem accept_draws : (accept s).draws = s.draws := rfl

/-! ### respond -/

@[simp] theorem respond_bind (r : Response) : (respond r s).bind = s.bind := rfl
@[simp] theorem respond_csLvl (r : Response) : (respond r s).csLvl = s.csLvl := rfl
@[simp] theorem respond_rstLvl (r : Response) : (respond r s).rstLvl = s.rstLvl := rfl
@[simp] theorem respond_dirDrdy (r : Response) : (respond r s).dirDrdy = s.dirDrdy := rfl
@[simp] theorem respond_dirRst (r : Response) : (respond r s).dirRst = s.dirRst := rfl
@[simp] theorem respond_dirCs (r : Response) : (respond r s).dirCs = s.dirCs := rfl
@[simp] theorem respond_busCfg (r : Response) : (respond r s).busCfg = s.busCfg := rfl
@[simp] theorem respond_cmd (r : Response) : (respond r s).cmd = s.cmd := rfl
@[simp] theorem respond_tRes (r : Response) : (respond r s).tRes = s.tRes := rfl
@[simp] theorem respond_t0 (r : Response) : (respond r s).t0 = s.t0 := rfl
@[simp] theorem respond_hi (r : Response) : (respond r s).hi = s.hi := rfl
@[simp] theorem respond_lo (r : Response) : (respond r s).lo = s.lo := rfl
@[simp] theorem respond_sx (r : Response) : (respond r s).sx = s.sx := rfl
@[simp] theorem respond_sy (r : Response) : (respond r s).sy = s.sy := rfl
@[simp] theorem respond_sz (r : Response) : (respond r s).sz = s.sz := rfl
@[simp] theorem respond_valid (r : Response) : (respond r s).valid = s.valid := rfl
@[simp] theorem respond_seq (r : Response) : (respond r s).seq = .idle := rfl
@[simp] theorem respond_trace (r : Response) : (respond r s).trace = s.trace := rfl
@[simp] theorem respond_response (r : Response) : (respond r s).response = some r := rfl
@[simp] theorem respond_requests (r : Response) : (respond r s).requests = s.requests := rfl
@[simp] theorem respond_drdyIn (r : Response) : (respond r s).drdyIn = s.drdyIn := rfl
@[simp] theorem respond_busIn (r : Response) : (respond r s).busIn = s.busIn := rfl
@[simp] theorem respond_gapIn (r : Response) : (respond r s).gapIn = s.gapIn := rfl
@[simp] theorem respond_tau (r : Response) : (respond r s).tau = s.tau := rfl
@[simp] theorem respond_draws (r : Response) : (respond r s).draws = s.draws := rfl

/-! ### endWith -/

@[simp] theorem endWith_bind (st : Status) : (endWith st s).bind = s.bind := rfl
@[simp] theorem endWith_csLvl (st : Status) : (endWith st s).csLvl = s.csLvl := rfl
@[simp] theorem endWith_rstLvl (st : Status) : (endWith st s).rstLvl = s.rstLvl := rfl
@[simp] theorem endWith_dirDrdy (st : Status) : (endWith st s).dirDrdy = s.dirDrdy := rfl
@[simp] theorem endWith_dirRst (st : Status) : (endWith st s).dirRst = s.dirRst := rfl
@[simp] theorem endWith_dirCs (st : Status) : (endWith st s).dirCs = s.dirCs := rfl
@[simp] theorem endWith_busCfg (st : Status) : (endWith st s).busCfg = s.busCfg := rfl
@[simp] theorem endWith_cmd (st : Status) : (endWith st s).cmd = s.cmd := rfl
@[simp] theorem endWith_tRes (st : Status) : (endWith st s).tRes = s.tRes := rfl
@[simp] theorem endWith_t0 (st : Status) : (endWith st s).t0 = s.t0 := rfl
@[simp] theorem endWith_hi (st : Status) : (endWith st s).hi = s.hi := rfl
@[simp] theorem endWith_lo (st : Status) : (endWith st s).lo = s.lo := rfl
@[simp] theorem endWith_sx (st : Status) : (endWith st s).sx = s.sx := rfl
@[simp] theorem endWith_sy (st : Status) : (endWith st s).sy = s.sy := rfl
@[simp] theorem endWith_sz (st : Status) : (endWith st s).sz = s.sz := rfl
@[simp] theorem endWith_valid (st : Status) : (endWith st s).valid = s.valid := rfl
@[simp] theorem endWith_seq (st : Status) : (endWith st s).seq = .idle := rfl
@[simp] theorem endWith_trace (st : Status) : (endWith st s).trace = s.trace := rfl
@[simp] theorem endWith_response (st : Status) : (endWith st s).response = some { status := st } := rfl
@[simp] theorem endWith_requests (st : Status) : (endWith st s).requests = s.requests := rfl
@[simp] theorem endWith_drdyIn (st : Status) : (endWith st s).drdyIn = s.drdyIn := rfl
@[simp] theorem endWith_busIn (st : Status) : (endWith st s).busIn = s.busIn := rfl
@[simp] theorem endWith_gapIn (st : Status) : (endWith st s).gapIn = s.gapIn := rfl
@[simp] theorem endWith_tau (st : Status) : (endWith st s).tau = s.tau := rfl
@[simp] theorem endWith_draws (st : Status) : (endWith st s).draws = s.draws := rfl

/-! ### goPhase -/

@[simp] theorem goPhase_bind (ph : Phase) : (goPhase ph s).bind = s.bind := rfl
@[simp] theorem goPhase_csLvl (ph : Phase) : (goPhase ph s).csLvl = s.csLvl := rfl
@[simp] theorem goPhase_rstLvl (ph : Phase) : (goPhase ph s).rstLvl = s.rstLvl := rfl
@[simp] theorem goPhase_dirDrdy (ph : Phase) : (goPhase ph s).dirDrdy = s.dirDrdy := rfl
@[simp] theorem goPhase_dirRst (ph : Phase) : (goPhase ph s).dirRst = s.dirRst := rfl
@[simp] theorem goPhase_dirCs (ph : Phase) : (goPhase ph s).dirCs = s.dirCs := rfl
@[simp] theorem goPhase_busCfg (ph : Phase) : (goPhase ph s).busCfg = s.busCfg := rfl
@[simp] theorem goPhase_cmd (ph : Phase) : (goPhase ph s).cmd = s.cmd := rfl
@[simp] theorem goPhase_tRes (ph : Phase) : (goPhase ph s).tRes = s.tRes := rfl
@[simp] theorem goPhase_t0 (ph : Phase) : (goPhase ph s).t0 = s.t0 := rfl
@[simp] theorem goPhase_hi (ph : Phase) : (goPhase ph s).hi = s.hi := rfl
@[simp] theorem goPhase_lo (ph : Phase) : (goPhase ph s).lo = s.lo := rfl
@[simp] theorem goPhase_sx (ph : Phase) : (goPhase ph s).sx = s.sx := rfl
@[simp] theorem goPhase_sy (ph : Phase) : (goPhase ph s).sy = s.sy := rfl
@[simp] theorem goPhase_sz (ph : Phase) : (goPhase ph s).sz = s.sz := rfl
@[simp] theorem goPhase_valid (ph : Phase) : (goPhase ph s).valid = s.valid := rfl
@[simp] theorem goPhase_seq (ph : Phase) : (goPhase ph s).seq = .busy ph := rfl
@[simp] theorem goPhase_trace (ph : Phase) : (goPhase ph s).trace = s.trace := rfl
@[simp] theorem goPhase_response (ph : Phase) : (goPhase ph s).response = s.response := rfl
@[simp] theorem goPhase_requests (ph : Phase) : (goPhase ph s).requests = s.requests := rfl
@[simp] theorem goPhase_drdyIn (ph : Phase) : (goPhase ph s).drdyIn = s.drdyIn := rfl
@[simp] theorem goPhase_busIn (ph : Phase) : (goPhase ph s).busIn = s.busIn := rfl
@[simp] theorem goPhase_gapIn (ph : Phase) : (goPhase ph s).gapIn = s.gapIn := rfl
@[simp] theorem goPhase_tau (ph : Phase) : (goPhase ph s).tau = s.tau := rfl
@[simp] theorem goPhase_draws (ph : Phase) : (goPhase ph s).draws = s.draws := rfl

/-! ### pinMode -/

@[simp] theorem pinMode_bind (p : Pin) (d : Direction) : (pinMode p d s).bind = s.bind := by cases p <;> rfl
@[simp] theorem pinMode_csLvl (p : Pin) (d : Direction) : (pinMode p d s).csLvl = s.csLvl := by cases p <;> rfl
@[simp] theorem pinMode_rstLvl (p : Pin) (d : Direction) : (pinMode p d s).rstLvl = s.rstLvl := by cases p <;> rfl
@[simp] theorem pinMode_dirDrdy (p : Pin) (d : Direction) : (pinMode p d s).dirDrdy = (if p = .drdy then d else s.dirDrdy) := by cases p <;> rfl
@[simp] theorem pinMode_dirRst (p : Pin) (d : Direction) : (pinMode p d s).dirRst = (if p = .rst then d else s.dirRst) := by cases p <;> rfl
@[simp] theorem pinMode_dirCs (p : Pin) (d : Direction) : (pinMode p d s).dirCs = (if p = .cs then d else s.dirCs) := by cases p <;> rfl
@[simp] theorem pinMode_busCfg (p : Pin) (d : Direction) : (pinMode p d s).busCfg = s.busCfg := by cases p <;> rfl
@[simp] theorem pinMode_cmd (p : Pin) (d : Direction) : (pinMode p d s).cmd = s.cmd := by cases p <;> rfl
@[simp] theorem pinMode_tRes (p : Pin) (d : Direction) : (pinMode p d s).tRes = s.tRes := by cases p <;> rfl
@[simp] theorem pinMode_t0 (p : Pin) (d : Direction) : (pinMode p d s).t0 = s.t0 := by cases p <;> rfl
@[simp] theorem pinMode_hi (p : Pin) (d : Direction) : (pinMode p d s).hi = s.hi := by cases p <;> rfl
@[simp] theorem pinMode_lo (p : Pin) (d : Direction) : (pinMode p d s).lo = s.lo := by cases p <;> rfl
@[simp] theorem pinMode_sx (p : Pin) (d : Direction) : (pinMode p d s).sx = s.sx := by cases p <;> rfl
@[simp] theorem pinMode_sy (p : Pin) (d : Direction) : (pinMode p d s).sy = s.sy := by cases p <;> rfl
@[simp] theorem pinMode_sz (p : Pin) (d : Direction) : (pinMode p d s).sz = s.sz := by cases p <;> rfl
@[simp] theorem pinMode_valid (p : Pin) (d : Direction) : (pinMode p d s).valid = s.valid := by cases p <;> rfl
@[simp] theorem pinMode_seq (p : Pin) (d : Direction) : (pinMode p d s).seq = s.seq := by cases p <;> rfl
@[simp] theorem pinMode_trace (p : Pin) (d : Direction) : (pinMode p d s).trace = s.trace ++ [.pinMode p d] := by cases p <;> rfl
@[simp] theorem pinMode_response (p : Pin) (d : Direction) : (pinMode p d s).response = s.response := by cases p <;> rfl
@[simp] theorem pinMode_requests (p : Pin) (d : Direction) : (pinMode p d s).requests = s.requests := by cases p <;> rfl
@[simp] theorem pinMode_drdyIn (p : Pin) (d : Direction) : (pinMode p d s).drdyIn = s.drdyIn := by cases p <;> rfl
@[simp] theorem pinMode_busIn (p : Pin) (d : Direction) : (pinMode p d s).busIn = s.busIn := by cases p <;> rfl
@[simp] theorem pinMode_gapIn (p : Pin) (d : Direction) : (pinMode p d s).gapIn = s.gapIn := by cases p <;> rfl
@[simp] theorem pinMode_tau (p : Pin) (d : Direction) : (pinMode p d s).tau = s.tau := by cases p <;> rfl
@[simp] theorem pinMode_draws (p : Pin) (d : Direction) : (pinMode p d s).draws = s.draws := by cases p <;> rfl

/-! ### pinWrite -/

@[simp] theorem pinWrite_bind (p : OutPin) (l : Level) : (pinWrite p l s).bind = s.bind := by cases p <;> rfl
@[simp] theorem pinWrite_csLvl (p : OutPin) (l : Level) : (pinWrite p l s).csLvl = (if p = .cs then .drive l else s.csLvl) := by cases p <;> rfl
@[simp] theorem pinWrite_rstLvl (p : OutPin) (l : Level) : (pinWrite p l s).rstLvl = (if p = .rst then .drive l else s.rstLvl) := by cases p <;> rfl
@[simp] theorem pinWrite_dirDrdy (p : OutPin) (l : Level) : (pinWrite p l s).dirDrdy = s.dirDrdy := by cases p <;> rfl
@[simp] theorem pinWrite_dirRst (p : OutPin) (l : Level) : (pinWrite p l s).dirRst = s.dirRst := by cases p <;> rfl
@[simp] theorem pinWrite_dirCs (p : OutPin) (l : Level) : (pinWrite p l s).dirCs = s.dirCs := by cases p <;> rfl
@[simp] theorem pinWrite_busCfg (p : OutPin) (l : Level) : (pinWrite p l s).busCfg = s.busCfg := by cases p <;> rfl
@[simp] theorem pinWrite_cmd (p : OutPin) (l : Level) : (pinWrite p l s).cmd = s.cmd := by cases p <;> rfl
@[simp] theorem pinWrite_tRes (p : OutPin) (l : Level) : (pinWrite p l s).tRes = s.tRes := by cases p <;> rfl
@[simp] theorem pinWrite_t0 (p : OutPin) (l : Level) : (pinWrite p l s).t0 = s.t0 := by cases p <;> rfl
@[simp] theorem pinWrite_hi (p : OutPin) (l : Level) : (pinWrite p l s).hi = s.hi := by cases p <;> rfl
@[simp] theorem pinWrite_lo (p : OutPin) (l : Level) : (pinWrite p l s).lo = s.lo := by cases p <;> rfl
@[simp] theorem pinWrite_sx (p : OutPin) (l : Level) : (pinWrite p l s).sx = s.sx := by cases p <;> rfl
@[simp] theorem pinWrite_sy (p : OutPin) (l : Level) : (pinWrite p l s).sy = s.sy := by cases p <;> rfl
@[simp] theorem pinWrite_sz (p : OutPin) (l : Level) : (pinWrite p l s).sz = s.sz := by cases p <;> rfl
@[simp] theorem pinWrite_valid (p : OutPin) (l : Level) : (pinWrite p l s).valid = s.valid := by cases p <;> rfl
@[simp] theorem pinWrite_seq (p : OutPin) (l : Level) : (pinWrite p l s).seq = s.seq := by cases p <;> rfl
@[simp] theorem pinWrite_trace (p : OutPin) (l : Level) : (pinWrite p l s).trace = s.trace ++ [.pinWrite p l] := by cases p <;> rfl
@[simp] theorem pinWrite_response (p : OutPin) (l : Level) : (pinWrite p l s).response = s.response := by cases p <;> rfl
@[simp] theorem pinWrite_requests (p : OutPin) (l : Level) : (pinWrite p l s).requests = s.requests := by cases p <;> rfl
@[simp] theorem pinWrite_drdyIn (p : OutPin) (l : Level) : (pinWrite p l s).drdyIn = s.drdyIn := by cases p <;> rfl
@[simp] theorem pinWrite_busIn (p : OutPin) (l : Level) : (pinWrite p l s).busIn = s.busIn := by cases p <;> rfl
@[simp] theorem pinWrite_gapIn (p : OutPin) (l : Level) : (pinWrite p l s).gapIn = s.gapIn := by cases p <;> rfl
@[simp] theorem pinWrite_tau (p : OutPin) (l : Level) : (pinWrite p l s).tau = s.tau := by cases p <;> rfl
@[simp] theorem pinWrite_draws (p : OutPin) (l : Level) : (pinWrite p l s).draws = s.draws := by cases p <;> rfl

/-! ### applyBusCfg -/

@[simp] theorem applyBusCfg_bind : (applyBusCfg s).bind = s.bind := rfl
@[simp] theorem applyBusCfg_csLvl : (applyBusCfg s).csLvl = s.csLvl := rfl
@[simp] theorem applyBusCfg_rstLvl : (applyBusCfg s).rstLvl = s.rstLvl := rfl
@[simp] theorem applyBusCfg_dirDrdy : (applyBusCfg s).dirDrdy = s.dirDrdy := rfl
@[simp] theorem applyBusCfg_dirRst : (applyBusCfg s).dirRst = s.dirRst := rfl
@[simp] theorem applyBusCfg_dirCs : (applyBusCfg s).dirCs = s.dirCs := rfl
@[simp] theorem applyBusCfg_busCfg : (applyBusCfg s).busCfg = some fixedBusConfig := rfl
@[simp] theorem applyBusCfg_cmd : (applyBusCfg s).cmd = s.cmd := rfl
@[simp] theorem applyBusCfg_tRes : (applyBusCfg s).tRes = s.tRes := rfl
@[simp] theorem applyBusCfg_t0 : (applyBusCfg s).t0 = s.t0 := rfl
@[simp] theorem applyBusCfg_hi : (applyBusCfg s).hi = s.hi := rfl
@[simp] theorem applyBusCfg_lo : (applyBusCfg s).lo = s.lo := rfl
@[simp] theorem applyBusCfg_sx : (applyBusCfg s).sx = s.sx := rfl
@[simp] theorem applyBusCfg_sy : (applyBusCfg s).sy = s.sy := rfl
@[simp] theorem applyBusCfg_sz : (applyBusCfg s).sz = s.sz := rfl
@[simp] theorem applyBusCfg_valid : (applyBusCfg s).valid = s.valid := rfl
@[simp] theorem applyBusCfg_seq : (applyBusCfg s).seq = s.seq := rfl
@[simp] theorem applyBusCfg_trace : (applyBusCfg s).trace = s.trace ++ [.busCfg fixedBusConfig] := rfl
@[simp] theorem applyBusCfg_response : (applyBusCfg s).response = s.response := rfl
@[simp] theorem applyBusCfg_requests : (applyBusCfg s).requests = s.requests := rfl
@[simp] theorem applyBusCfg_drdyIn : (applyBusCfg s).drdyIn = s.drdyIn := rfl
@[simp] theorem applyBusCfg_busIn : (applyBusCfg s).busIn = s.busIn := rfl
@[simp] theorem applyBusCfg_gapIn : (applyBusCfg s).gapIn = s.gapIn := rfl
@[simp] theorem applyBusCfg_tau : (applyBusCfg s).tau = s.tau := rfl
@[simp] theorem applyBusCfg_draws : (applyBusCfg s).draws = s.draws := rfl

/-! ### delay -/

@[simp] theorem delay_bind (us : Nat) : (delay us s).bind = s.bind := rfl
@[simp] theorem delay_csLvl (us : Nat) : (delay us s).csLvl = s.csLvl := rfl
@[simp] theorem delay_rstLvl (us : Nat) : (delay us s).rstLvl = s.rstLvl := rfl
@[simp] theorem delay_dirDrdy (us : Nat) : (delay us s).dirDrdy = s.dirDrdy := rfl
@[simp] theorem delay_dirRst (us : Nat) : (delay us s).dirRst = s.dirRst := rfl
@[simp] theorem delay_dirCs (us : Nat) : (delay us s).dirCs = s.dirCs := rfl
@[simp] theorem delay_busCfg (us : Nat) : (delay us s).busCfg = s.busCfg := rfl
@[simp] theorem delay_cmd (us : Nat) : (delay us s).cmd = s.cmd := rfl
@[simp] theorem delay_tRes (us : Nat) : (delay us s).tRes = s.tRes := rfl
@[simp] theorem delay_t0 (us : Nat) : (delay us s).t0 = s.t0 := rfl
@[simp] theorem delay_hi (us : Nat) : (delay us s).hi = s.hi := rfl
@[simp] theorem delay_lo (us : Nat) : (delay us s).lo = s.lo := rfl
@[simp] theorem delay_sx (us : Nat) : (delay us s).sx = s.sx := rfl
@[simp] theorem delay_sy (us : Nat) : (delay us s).sy = s.sy := rfl
@[simp] theorem delay_sz (us : Nat) : (delay us s).sz = s.sz := rfl
@[simp] theorem delay_valid (us : Nat) : (delay us s).valid = s.valid := rfl
@[simp] theorem delay_seq (us : Nat) : (delay us s).seq = s.seq := rfl
@[simp] theorem delay_trace (us : Nat) : (delay us s).trace = s.trace ++ [.delay us] := rfl
@[simp] theorem delay_response (us : Nat) : (delay us s).response = s.response := rfl
@[simp] theorem delay_requests (us : Nat) : (delay us s).requests = s.requests := rfl
@[simp] theorem delay_drdyIn (us : Nat) : (delay us s).drdyIn = s.drdyIn := rfl
@[simp] theorem delay_busIn (us : Nat) : (delay us s).busIn = s.busIn := rfl
@[simp] theorem delay_gapIn (us : Nat) : (delay us s).gapIn = s.gapIn := rfl
@[simp] theorem delay_tau (us : Nat) : (delay us s).tau = s.tau + us := rfl
@[simp] theorem delay_draws (us : Nat) : (delay us s).draws = s.draws := rfl

/-! ### drawLevel -/

@[simp] theorem drawLevel_bind : ((drawLevel s).2).bind = s.bind := rfl
@[simp] theorem drawLevel_csLvl : ((drawLevel s).2).csLvl = s.csLvl := rfl
@[simp] theorem drawLevel_rstLvl : ((drawLevel s).2).rstLvl = s.rstLvl := rfl
@[simp] theorem drawLevel_dirDrdy : ((drawLevel s).2).dirDrdy = s.dirDrdy := rfl
@[simp] theorem drawLevel_dirRst : ((drawLevel s).2).dirRst = s.dirRst := rfl
@[simp] theorem drawLevel_dirCs : ((drawLevel s).2).dirCs = s.dirCs := rfl
@[simp] theorem drawLevel_busCfg : ((drawLevel s).2).busCfg = s.busCfg := rfl
@[simp] theorem drawLevel_cmd : ((drawLevel s).2).cmd = s.cmd := rfl
@[simp] theorem drawLevel_tRes : ((drawLevel s).2).tRes = s.tRes := rfl
@[simp] theorem drawLevel_t0 : ((drawLevel s).2).t0 = s.t0 := rfl
@[simp] theorem drawLevel_hi : ((drawLevel s).2).hi = s.hi := rfl
@[simp] theorem drawLevel_lo : ((drawLevel s).2).lo = s.lo := rfl
@[simp] theorem drawLevel_sx : ((drawLevel s).2).sx = s.sx := rfl
@[simp] theorem drawLevel_sy : ((drawLevel s).2).sy = s.sy := rfl
@[simp] theorem drawLevel_sz : ((drawLevel s).2).sz = s.sz := rfl
@[simp] theorem drawLevel_valid : ((drawLevel s).2).valid = s.valid := rfl
@[simp] theorem drawLevel_seq : ((drawLevel s).2).seq = s.seq := rfl
@[simp] theorem drawLevel_trace : ((drawLevel s).2).trace = s.trace := rfl
@[simp] theorem drawLevel_response : ((drawLevel s).2).response = s.response := rfl
@[simp] theorem drawLevel_requests : ((drawLevel s).2).requests = s.requests := rfl
@[simp] theorem drawLevel_drdyIn : ((drawLevel s).2).drdyIn = s.drdyIn.tail := rfl
@[simp] theorem drawLevel_busIn : ((drawLevel s).2).busIn = s.busIn := rfl
@[simp] theorem drawLevel_gapIn : ((drawLevel s).2).gapIn = s.gapIn := rfl
@[simp] theorem drawLevel_tau : ((drawLevel s).2).tau = s.tau := rfl
@[simp] theorem drawLevel_draws : ((drawLevel s).2).draws = s.draws + 1 := rfl

/-! ### drawByte -/

@[simp] theorem drawByte_bind : ((drawByte s).2).bind = s.bind := rfl
@[simp] theorem drawByte_csLvl : ((drawByte s).2).csLvl = s.csLvl := rfl
@[simp] theorem drawByte_rstLvl : ((drawByte s).2).rstLvl = s.rstLvl := rfl
@[simp] theorem drawByte_dirDrdy : ((drawByte s).2).dirDrdy = s.dirDrdy := rfl
@[simp] theorem drawByte_dirRst : ((drawByte s).2).dirRst = s.dirRst := rfl
@[simp] theorem drawByte_dirCs : ((drawByte s).2).dirCs = s.dirCs := rfl
@[simp] theorem drawByte_busCfg : ((drawByte s).2).busCfg = s.busCfg := rfl
@[simp] theorem drawByte_cmd : ((drawByte s).2).cmd = s.cmd := rfl
@[simp] theorem drawByte_tRes : ((drawByte s).2).tRes = s.tRes := rfl
@[simp] theorem drawByte_t0 : ((drawByte s).2).t0 = s.t0 := rfl
@[simp] theorem drawByte_hi : ((drawByte s).2).hi = s.hi := rfl
@[simp] theorem drawByte_lo : ((drawByte s).2).lo = s.lo := rfl
@[simp] theorem drawByte_sx : ((drawByte s).2).sx = s.sx := rfl
@[simp] theorem drawByte_sy : ((drawByte s).2).sy = s.sy := rfl
@[simp] theorem drawByte_sz : ((drawByte s).2).sz = s.sz := rfl
@[simp] theorem drawByte_valid : ((drawByte s).2).valid = s.valid := rfl
@[simp] theorem drawByte_seq : ((drawByte s).2).seq = s.seq := rfl
@[simp] theorem drawByte_trace : ((drawByte s).2).trace = s.trace := rfl
@[simp] theorem drawByte_response : ((drawByte s).2).response = s.response := rfl
@[simp] theorem drawByte_requests : ((drawByte s).2).requests = s.requests := rfl
@[simp] theorem drawByte_drdyIn : ((drawByte s).2).drdyIn = s.drdyIn := rfl
@[simp] theorem drawByte_busIn : ((drawByte s).2).busIn = s.busIn.tail := rfl
@[simp] theorem drawByte_gapIn : ((drawByte s).2).gapIn = s.gapIn := rfl
@[simp] theorem drawByte_tau : ((drawByte s).2).tau = s.tau := rfl
@[simp] theorem drawByte_draws : ((drawByte s).2).draws = s.draws + 1 := rfl

/-! ### drawGap -/

@[simp] theorem drawGap_bind : ((drawGap s).2).bind = s.bind := rfl
@[simp] theorem drawGap_csLvl : ((drawGap s).2).csLvl = s.csLvl := rfl
@[simp] theorem drawGap_rstLvl : ((drawGap s).2).rstLvl = s.rstLvl := rfl
@[simp] theorem drawGap_dirDrdy : ((drawGap s).2).dirDrdy = s.dirDrdy := rfl
@[simp] theorem drawGap_dirRst : ((drawGap s).2).dirRst = s.dirRst := rfl
@[simp] theorem drawGap_dirCs : ((drawGap s).2).dirCs = s.dirCs := rfl
@[simp] theorem drawGap_busCfg : ((drawGap s).2).busCfg = s.busCfg := rfl
@[simp] theorem drawGap_cmd : ((drawGap s).2).cmd = s.cmd := rfl
@[simp] theorem drawGap_tRes : ((drawGap s).2).tRes = s.tRes := rfl
@[simp] theorem drawGap_t0 : ((drawGap s).2).t0 = s.t0 := rfl
@[simp] theorem drawGap_hi : ((drawGap s).2).hi = s.hi := rfl
@[simp] theorem drawGap_lo : ((drawGap s).2).lo = s.lo := rfl
@[simp] theorem drawGap_sx : ((drawGap s).2).sx = s.sx := rfl
@[simp] theorem drawGap_sy : ((drawGap s).2).sy = s.sy := rfl
@[simp] theorem drawGap_sz : ((drawGap s).2).sz = s.sz := rfl
@[simp] theorem drawGap_valid : ((drawGap s).2).valid = s.valid := rfl
@[simp] theorem drawGap_seq : ((drawGap s).2).seq = s.seq := rfl
@[simp] theorem drawGap_trace : ((drawGap s).2).trace = s.trace := rfl
@[simp] theorem drawGap_response : ((drawGap s).2).response = s.response := rfl
@[simp] theorem drawGap_requests : ((drawGap s).2).requests = s.requests := rfl
@[simp] theorem drawGap_drdyIn : ((drawGap s).2).drdyIn = s.drdyIn := rfl
@[simp] theorem drawGap_busIn : ((drawGap s).2).busIn = s.busIn := rfl
@[simp] theorem drawGap_gapIn : ((drawGap s).2).gapIn = s.gapIn.tail := rfl
@[simp] theorem drawGap_tau : ((drawGap s).2).tau = s.tau := rfl
@[simp] theorem drawGap_draws : ((drawGap s).2).draws = s.draws + 1 := rfl

/-! ### xfer -/

@[simp] theorem xfer_bind (b : Byte) : ((xfer b s).2).bind = s.bind := rfl
@[simp] theorem xfer_csLvl (b : Byte) : ((xfer b s).2).csLvl = s.csLvl := rfl
@[simp] theorem xfer_rstLvl (b : Byte) : ((xfer b s).2).rstLvl = s.rstLvl := rfl
@[simp] theorem xfer_dirDrdy (b : Byte) : ((xfer b s).2).dirDrdy = s.dirDrdy := rfl
@[simp] theorem xfer_dirRst (b : Byte) : ((xfer b s).2).dirRst = s.dirRst := rfl
@[simp] theorem xfer_dirCs (b : Byte) : ((xfer b s).2).dirCs = s.dirCs := rfl
@[simp] theorem xfer_busCfg (b : Byte) : ((xfer b s).2).busCfg = s.busCfg := rfl
@[simp] theorem xfer_cmd (b : Byte) : ((xfer b s).2).cmd = s.cmd := rfl
@[simp] theorem xfer_tRes (b : Byte) : ((xfer b s).2).tRes = s.tRes := rfl
@[simp] theorem xfer_t0 (b : Byte) : ((xfer b s).2).t0 = s.t0 := rfl
@[simp] theorem xfer_hi (b : Byte) : ((xfer b s).2).hi = s.hi := rfl
@[simp] theorem xfer_lo (b : Byte) : ((xfer b s).2).lo = s.lo := rfl
@[simp] theorem xfer_sx (b : Byte) : ((xfer b s).2).sx = s.sx := rfl
@[simp] theorem xfer_sy (b : Byte) : ((xfer b s).2).sy = s.sy := rfl
@[simp] theorem xfer_sz (b : Byte) : ((xfer b s).2).sz = s.sz := rfl
@[simp] theorem xfer_valid (b : Byte) : ((xfer b s).2).valid = s.valid := rfl
@[simp] theorem xfer_seq (b : Byte) : ((xfer b s).2).seq = s.seq := rfl
@[simp] theorem xfer_trace (b : Byte) : ((xfer b s).2).trace = s.trace ++ [.xfer b (drawByte s).1] := rfl
@[simp] theorem xfer_response (b : Byte) : ((xfer b s).2).response = s.response := rfl
@[simp] theorem xfer_requests (b : Byte) : ((xfer b s).2).requests = s.requests := rfl
@[simp] theorem xfer_drdyIn (b : Byte) : ((xfer b s).2).drdyIn = s.drdyIn := rfl
@[simp] theorem xfer_busIn (b : Byte) : ((xfer b s).2).busIn = s.busIn.tail := rfl
@[simp] theorem xfer_gapIn (b : Byte) : ((xfer b s).2).gapIn = s.gapIn := rfl
@[simp] theorem xfer_tau (b : Byte) : ((xfer b s).2).tau = s.tau := rfl
@[simp] theorem xfer_draws (b : Byte) : ((xfer b s).2).draws = s.draws + 1 := rfl

/-! ### pinRead -/

@[simp] theorem pinRead_bind : ((pinRead s).2).bind = s.bind := rfl
@[simp] theorem pinRead_csLvl : ((pinRead s).2).csLvl = s.csLvl := rfl
@[simp] theorem pinRead_rstLvl : ((pinRead s).2).rstLvl = s.rstLvl := rfl
@[simp] theorem pinRead_dirDrdy : ((pinRead s).2).dirDrdy = s.dirDrdy := rfl
@[simp] theorem pinRead_dirRst : ((pinRead s).2).dirRst = s.dirRst := rfl
@[simp] theorem pinRead_dirCs : ((pinRead s).2).dirCs = s.dirCs := rfl
@[simp] theorem pinRead_busCfg : ((pinRead s).2).busCfg = s.busCfg := rfl
@[simp] theorem pinRead_cmd : ((pinRead s).2).cmd = s.cmd := rfl
@[simp] theorem pinRead_tRes : ((pinRead s).2).tRes = s.tRes := rfl
@[simp] theorem pinRead_t0 : ((pinRead s).2).t0 = s.t0 := rfl
@[simp] theorem pinRead_hi : ((pinRead s).2).hi = s.hi := rfl
@[simp] theorem pinRead_lo : ((pinRead s).2).lo = s.lo := rfl
@[simp] theorem pinRead_sx : ((pinRead s).2).sx = s.sx := rfl
@[simp] theorem pinRead_sy : ((pinRead s).2).sy = s.sy := rfl
@[simp] theorem pinRead_sz : ((pinRead s).2).sz = s.sz := rfl
@[simp] theorem pinRead_valid : ((pinRead s).2).valid = s.valid := rfl
@[simp] theorem pinRead_seq : ((pinRead s).2).seq = s.seq := rfl
@[simp] theorem pinRead_trace : ((pinRead s).2).trace = s.trace ++ [.drdySample (drawLevel s).1] := rfl
@[simp] theorem pinRead_response : ((pinRead s).2).response = s.response := rfl
@[simp] theorem pinRead_requests : ((pinRead s).2).requests = s.requests := rfl
@[simp] theorem pinRead_drdyIn : ((pinRead s).2).drdyIn = s.drdyIn.tail := rfl
@[simp] theorem pinRead_busIn : ((pinRead s).2).busIn = s.busIn := rfl
@[simp] theorem pinRead_gapIn : ((pinRead s).2).gapIn = s.gapIn := rfl
@[simp] theorem pinRead_tau : ((pinRead s).2).tau = s.tau := rfl
@[simp] theorem pinRead_draws : ((pinRead s).2).draws = s.draws + 1 := rfl

/-! ### now -/

@[simp] theorem now_bind : ((now s).2).bind = s.bind := rfl
@[simp] theorem now_csLvl : ((now s).2).csLvl = s.csLvl := rfl
@[simp] theorem now_rstLvl : ((now s).2).rstLvl = s.rstLvl := rfl
@[simp] theorem now_dirDrdy : ((now s).2).dirDrdy = s.dirDrdy := rfl
@[simp] theorem now_dirRst : ((now s).2).dirRst = s.dirRst := rfl
@[simp] theorem now_dirCs : ((now s).2).dirCs = s.dirCs := rfl
@[simp] theorem now_busCfg : ((now s).2).busCfg = s.busCfg := rfl
@[simp] theorem now_cmd : ((now s).2).cmd = s.cmd := rfl
@[simp] theorem now_tRes : ((now s).2).tRes = s.tRes := rfl
@[simp] theorem now_t0 : ((now s).2).t0 = s.t0 := rfl
@[simp] theorem now_hi : ((now s).2).hi = s.hi := rfl
@[simp] theorem now_lo : ((now s).2).lo = s.lo := rfl
@[simp] theorem now_sx : ((now s).2).sx = s.sx := rfl
@[simp] theorem now_sy : ((now s).2).sy = s.sy := rfl
@[simp] theorem now_sz : ((now s).2).sz = s.sz := rfl
@[simp] theorem now_valid : ((now s).2).valid = s.valid := rfl
@[simp] theorem now_seq : ((now s).2).seq = s.seq := rfl
@[simp] theorem now_trace : ((now s).2).trace = s.trace ++ [.timeSample (timerCount (s.tau + (drawGap s).1))] := rfl
@[simp] theorem now_response : ((now s).2).response = s.response := rfl
@[simp] theorem now_requests : ((now s).2).requests = s.requests := rfl
@[simp] theorem now_drdyIn : ((now s).2).drdyIn = s.drdyIn := rfl
@[simp] theorem now_busIn : ((now s).2).busIn = s.busIn := rfl
@[simp] theorem now_gapIn : ((now s).2).gapIn = s.gapIn.tail := rfl
@[simp] theorem now_tau : ((now s).2).tau = s.tau + (drawGap s).1 := rfl
@[simp] theorem now_draws : ((now s).2).draws = s.draws + 1 := rfl

/-! ### startValid -/

@[simp] theorem startValid_bind : (startValid s).bind = s.bind := rfl
@[simp] theorem startValid_csLvl : (startValid s).csLvl = s.csLvl := rfl
@[simp] theorem startValid_rstLvl : (startValid s).rstLvl = s.rstLvl := rfl
@[simp] theorem startValid_dirDrdy : (startValid s).dirDrdy = s.dirDrdy := rfl
@[simp] theorem startValid_dirRst : (startValid s).dirRst = s.dirRst := rfl
@[simp] theorem startValid_dirCs : (startValid s).dirCs = s.dirCs := rfl
@[simp] theorem startValid_busCfg : (startValid s).busCfg = s.busCfg := rfl
@[simp] theorem startValid_cmd : (startValid s).cmd = s.cmd := rfl
@[simp] theorem startValid_tRes : (startValid s).tRes = s.tRes := rfl
@[simp] theorem startValid_t0 : (startValid s).t0 = s.t0 := rfl
@[simp] theorem startValid_hi : (startValid s).hi = s.hi := rfl
@[simp] theorem startValid_lo : (startValid s).lo = s.lo := rfl
@[simp] theorem startValid_sx : (startValid s).sx = s.sx := rfl
@[simp] theorem startValid_sy : (startValid s).sy = s.sy := rfl
@[simp] theorem startValid_sz : (startValid s).sz = s.sz := rfl
@[simp] theorem startValid_valid : (startValid s).valid = true := rfl
@[simp] theorem startValid_seq : (startValid s).seq = s.seq := rfl
@[simp] theorem startValid_trace : (startValid s).trace = s.trace := rfl
@[simp] theorem startValid_response : (startValid s).response = s.response := rfl
@[simp] theorem startValid_requests : (startValid s).requests = s.requests := rfl
@[simp] theorem startValid_drdyIn : (startValid s).drdyIn = s.drdyIn := rfl
@[simp] theorem startValid_busIn : (startValid s).busIn = s.busIn := rfl
@[simp] theorem startValid_gapIn : (startValid s).gapIn = s.gapIn := rfl
@[simp] theorem startValid_tau : (startValid s).tau = s.tau := rfl
@[simp] theorem startValid_draws : (startValid s).draws = s.draws := rfl

/-! ### writeSample -/

@[simp] theorem writeSample_bind (k : Axis) (m : Measurement) : (writeSample k m s).bind = s.bind := by cases k <;> rfl
@[simp] theorem writeSample_csLvl (k : Axis) (m : Measurement) : (writeSample k m s).csLvl = s.csLvl := by cases k <;> rfl
@[simp] theorem writeSample_rstLvl (k : Axis) (m : Measurement) : (writeSample k m s).rstLvl = s.rstLvl := by cases k <;> rfl
@[simp] theorem writeSample_dirDrdy (k : Axis) (m : Measurement) : (writeSample k m s).dirDrdy = s.dirDrdy := by cases k <;> rfl
@[simp] theorem writeSample_dirRst (k : Axis) (m : Measurement) : (writeSample k m s).dirRst = s.dirRst := by cases k <;> rfl
@[simp] theorem writeSample_dirCs (k : Axis) (m : Measurement) : (writeSample k m s).dirCs = s.dirCs := by cases k <;> rfl
@[simp] theorem writeSample_busCfg (k : Axis) (m : Measurement) : (writeSample k m s).busCfg = s.busCfg := by cases k <;> rfl
@[simp] theorem writeSample_cmd (k : Axis) (m : Measurement) : (writeSample k m s).cmd = s.cmd := by cases k <;> rfl
@[simp] theorem writeSample_tRes (k : Axis) (m : Measurement) : (writeSample k m s).tRes = s.tRes := by cases k <;> rfl
@[simp] theorem writeSample_t0 (k : Axis) (m : Measurement) : (writeSample k m s).t0 = s.t0 := by cases k <;> rfl
@[simp] theorem writeSample_hi (k : Axis) (m : Measurement) : (writeSample k m s).hi = s.hi := by cases k <;> rfl
@[simp] theorem writeSample_lo (k : Axis) (m : Measurement) : (writeSample k m s).lo = s.lo := by cases k <;> rfl
@[simp] theorem writeSample_sx (k : Axis) (m : Measurement) : (writeSample k m s).sx = (if k = .x then m else s.sx) := by cases k <;> rfl
@[simp] theorem writeSample_sy (k : Axis) (m : Measurement) : (writeSample k m s).sy = (if k = .y then m else s.sy) := by cases k <;> rfl
@[simp] theorem writeSample_sz (k : Axis) (m : Measurement) : (writeSample k m s).sz = (if k = .z then m else s.sz) := by cases k <;> rfl
@[simp] theorem writeSample_valid (k : Axis) (m : Measurement) : (writeSample k m s).valid = s.valid := by cases k <;> rfl
@[simp] theorem writeSample_seq (k : Axis) (m : Measurement) : (writeSample k m s).seq = s.seq := by cases k <;> rfl
@[simp] theorem writeSample_trace (k : Axis) (m : Measurement) : (writeSample k m s).trace = s.trace := by cases k <;> rfl
@[simp] theorem writeSample_response (k : Axis) (m : Measurement) : (writeSample k m s).response = s.response := by cases k <;> rfl
@[simp] theorem writeSample_requests (k : Axis) (m : Measurement) : (writeSample k m s).requests = s.requests := by cases k <;> rfl
@[simp] theorem writeSample_drdyIn (k : Axis) (m : Measurement) : (writeSample k m s).drdyIn = s.drdyIn := by cases k <;> rfl
@[simp] theorem writeSample_busIn (k : Axis) (m : Measurement) : (writeSample k m s).busIn = s.busIn := by cases k <;> rfl
@[simp] theorem writeSample_gapIn (k : Axis) (m : Measurement) : (writeSample k m s).gapIn = s.gapIn := by cases k <;> rfl
@[simp] theorem writeSample_tau (k : Axis) (m : Measurement) : (writeSample k m s).tau = s.tau := by cases k <;> rfl
@[simp] theorem writeSample_draws (k : Axis) (m : Measurement) : (writeSample k m s).draws = s.draws := by cases k <;> rfl

/-! ### latchAxis -/

@[simp] theorem latchAxis_bind (k : Axis) (r : Status × Measurement) : (latchAxis k r s).bind = s.bind := by unfold latchAxis; split <;> cases k <;> simp_all [writeSample]
@[simp] theorem latchAxis_csLvl (k : Axis) (r : Status × Measurement) : (latchAxis k r s).csLvl = s.csLvl := by unfold latchAxis; split <;> cases k <;> simp_all [writeSample]
@[simp] theorem latchAxis_rstLvl (k : Axis) (r : Status × Measurement) : (latchAxis k r s).rstLvl = s.rstLvl := by unfold latchAxis; split <;> cases k <;> simp_all [writeSample]
@[simp] theorem latchAxis_dirDrdy (k : Axis) (r : Status × Measurement) : (latchAxis k r s).dirDrdy = s.dirDrdy := by unfold latchAxis; split <;> cases k <;> simp_all [writeSample]
@[simp] theorem latchAxis_dirRst (k : Axis) (r : Status × Measurement) : (latchAxis k r s).dirRst = s.dirRst := by unfold latchAxis; split <;> cases k <;> simp_all [writeSample]
@[simp] theorem latchAxis_dirCs (k : Axis) (r : Status × Measurement) : (latchAxis k r s).dirCs = s.dirCs := by unfold latchAxis; split <;> cases k <;> simp_all [writeSample]
@[simp] theorem latchAxis_busCfg (k : Axis) (r : Status × Measurement) : (latchAxis k r s).busCfg = s.busCfg := by unfold latchAxis; split <;> cases k <;> simp_all [writeSample]
@[simp] theorem latchAxis_cmd (k : Axis) (r : Status × Measurement) : (latchAxis k r s).cmd = s.cmd := by unfold latchAxis; split <;> cases k <;> simp_all [writeSample]
@[simp] theorem latchAxis_tRes (k : Axis) (r : Status × Measurement) : (latchAxis k r s).tRes = s.tRes := by unfold latchAxis; split <;> cases k <;> simp_all [writeSample]
@[simp] theorem latchAxis_t0 (k : Axis) (r : Status × Measurement) : (latchAxis k r s).t0 = s.t0 := by unfold latchAxis; split <;> cases k <;> simp_all [writeSample]
@[simp] theorem latchAxis_hi (k : Axis) (r : Status × Measurement) : (latchAxis k r s).hi = s.hi := by unfold latchAxis; split <;> cases k <;> simp_all [writeSample]
@[simp] theorem latchAxis_lo (k : Axis) (r : Status × Measurement) : (latchAxis k r s).lo = s.lo := by unfold latchAxis; split <;> cases k <;> simp_all [writeSample]
@[simp] theorem latchAxis_sx (k : Axis) (r : Status × Measurement) : (latchAxis k r s).sx = (if k = .x then (if r.1 = .ok then r.2 else 0#16) else s.sx) := by unfold latchAxis; split <;> cases k <;> simp_all [writeSample]
@[simp] theorem latchAxis_sy (k : Axis) (r : Status × Measurement) : (latchAxis k r s).sy = (if k = .y then (if r.1 = .ok then r.2 else 0#16) else s.sy) := by unfold latchAxis; split <;> cases k <;> simp_all [writeSample]
@[simp] theorem latchAxis_sz (k : Axis) (r : Status × Measurement) : (latchAxis k r s).sz = (if k = .z then (if r.1 = .ok then r.2 else 0#16) else s.sz) := by unfold latchAxis; split <;> cases k <;> simp_all [writeSample]
@[simp] theorem latchAxis_valid (k : Axis) (r : Status × Measurement) : (latchAxis k r s).valid = (if r.1 = .ok then s.valid else false) := by unfold latchAxis; split <;> cases k <;> simp_all [writeSample]
@[simp] theorem latchAxis_seq (k : Axis) (r : Status × Measurement) : (latchAxis k r s).seq = s.seq := by unfold latchAxis; split <;> cases k <;> simp_all [writeSample]
@[simp] theorem latchAxis_trace (k : Axis) (r : Status × Measurement) : (latchAxis k r s).trace = s.trace := by unfold latchAxis; split <;> cases k <;> simp_all [writeSample]
@[simp] theorem latchAxis_response (k : Axis) (r : Status × Measurement) : (latchAxis k r s).response = s.response := by unfold latchAxis; split <;> cases k <;> simp_all [writeSample]
@[simp] theorem latchAxis_requests (k : Axis) (r : Status × Measurement) : (latchAxis k r s).requests = s.requests := by unfold latchAxis; split <;> cases k <;> simp_all [writeSample]
@[simp] theorem latchAxis_drdyIn (k : Axis) (r : Status × Measurement) : (latchAxis k r s).drdyIn = s.drdyIn := by unfold latchAxis; split <;> cases k <;> simp_all [writeSample]
@[simp] theorem latchAxis_busIn (k : Axis) (r : Status × Measurement) : (latchAxis k r s).busIn = s.busIn := by unfold latchAxis; split <;> cases k <;> simp_all [writeSample]
@[simp] theorem latchAxis_gapIn (k : Axis) (r : Status × Measurement) : (latchAxis k r s).gapIn = s.gapIn := by unfold latchAxis; split <;> cases k <;> simp_all [writeSample]
@[simp] theorem latchAxis_tau (k : Axis) (r : Status × Measurement) : (latchAxis k r s).tau = s.tau := by unfold latchAxis; split <;> cases k <;> simp_all [writeSample]
@[simp] theorem latchAxis_draws (k : Axis) (r : Status × Measurement) : (latchAxis k r s).draws = s.draws := by unfold latchAxis; split <;> cases k <;> simp_all [writeSample]

end Sys2Proof.Laws
end

