-- ==== Sys2Proof/Laws/Ops.lean ====
section
/-! SUPPORT. What the checks before a request and the draws can do, said once. -/

namespace Sys2Proof.Laws

open Sys2Proof.Machine Sys2Proof.Safety

/-! ### Draws with an answer lined up -/

theorem drawByte_of_cons {s : State} {b : Byte} {bs : List Byte} (h : s.busIn = b :: bs) : (drawByte s).1 = b := by
  simp [drawByte, h]

theorem drawLevel_of_cons {s : State} {l : Level} {ls : List Level} (h : s.drdyIn = l :: ls) : (drawLevel s).1 = l := by
  simp [drawLevel, h]

theorem drawGap_of_cons {s : State} {g : Nat} {gs : List Nat} (h : s.gapIn = g :: gs) : (drawGap s).1 = g := by
  simp [drawGap, h]

@[simp] theorem xfer_fst (b : Byte) (s : State) : (xfer b s).1 = (drawByte s).1 := rfl

@[simp] theorem pinRead_fst (s : State) : (pinRead s).1 = (drawLevel s).1 := rfl

@[simp] theorem now_fst (s : State) : (now s).1 = timerCount (s.tau + (drawGap s).1) := rfl

/-! ### Admission -/

/-- A request in an IDLE block that is Bound if it must be runs its body on the accepted state. -/
theorem admitted_of_idle {nb : Bool} {s : State} {body : State → Result} (hi : s.seq = .idle)
    (hb : nb = true → s.bind = .bound) : admitted nb s body = body (accept s) := by
  unfold admitted
  rw [if_neg (by simp [hi]), if_neg]
  rintro ⟨h, hu⟩
  rw [hb h] at hu
  cases hu

/-- A request that answers a next state was rejected while Unbound, or ran its body on the accepted state. -/
theorem admitted_next {nb : Bool} {s t : State} {body : State → Result} (h : admitted nb s body = .next t) :
    s.seq = .idle ∧ ((nb = true ∧ s.bind = .unbound ∧ t = reject s) ∨
      ((nb = true → s.bind = .bound) ∧ body (accept s) = .next t)) := by
  unfold admitted at h
  split at h
  · cases h
  · rename_i hi
    refine ⟨not_not.mp hi, ?_⟩
    split at h
    · rename_i hu
      cases h
      exact .inl ⟨hu.1, hu.2, rfl⟩
    · rename_i hu
      refine .inr ⟨fun hn => ?_, h⟩
      cases hb : s.bind
      · exact absurd ⟨hn, hb⟩ hu
      · rfl

/-- While Unbound a request that needs a Bound block is rejected. -/
theorem admitted_unbound {s : State} {body : State → Result} (hi : s.seq = .idle) (hu : s.bind = .unbound) :
    admitted true s body = .next (reject s) := by
  simp [admitted, hi, hu]

/-- A request in a BUSY block has no move. -/
theorem admitted_busy {nb : Bool} {s : State} {body : State → Result} {ph : Phase} (hs : s.seq = .busy ph) :
    admitted nb s body = .refused .requestWhileBusy := by
  simp [admitted, hs]

/-! ### The pin guard -/

theorem guardPins_of_all {pins : List OutPin} {s : State} {r : Result} (h : pins.all (isOutput s) = true) :
    guardPins pins s r = r := if_pos h

/-- With both pins outputs no part is held up. -/
theorem all_isOutput {s : State} (h : pinsOutput s = true) (pins : List OutPin) : pins.all (isOutput s) = true := by
  rw [pinsOutput, Bool.and_eq_true] at h
  refine List.all_eq_true.2 fun p _ => ?_
  cases p
  · exact h.1
  · exact h.2

theorem guardPins_of_output {pins : List OutPin} {s : State} {r : Result} (h : pinsOutput s = true) :
    guardPins pins s r = r := guardPins_of_all (all_isOutput h pins)

theorem guardPins_fault {pins : List OutPin} {s : State} {r : Result} (h : pins.all (isOutput s) = false) :
    guardPins pins s r = .fault .pinNotOutput := if_neg (by simp [h])

theorem guardPins_next {pins : List OutPin} {s t : State} {r : Result} (h : guardPins pins s r = .next t) :
    pins.all (isOutput s) = true ∧ r = .next t := by
  unfold guardPins at h
  split at h
  · exact ⟨‹_›, h⟩
  · cases h

/-- A trigger drives both pins, unless its encoder fails. -/
theorem triggerDrives_all {rank : Byte} {s : State} :
    (triggerDrives rank).all (isOutput s) = true ↔ (rankOutOfRange rank = false → pinsOutput s = true) := by
  cases h : rankOutOfRange rank <;> simp [triggerDrives, pinsOutput, h, Bool.and_comm]

@[simp] theorem isOutput_accept (s : State) : isOutput (accept s) = isOutput s := rfl

@[simp] theorem pinsOutput_accept (s : State) : pinsOutput (accept s) = pinsOutput s := rfl

theorem pinsOutput_iff (s : State) : pinsOutput s = true ↔ s.dirRst = .output ∧ s.dirCs = .output := by
  simp [pinsOutput, isOutput]

theorem pinsOutput_of_bound {s : State} (h : PinsBound s) : pinsOutput s = true :=
  (pinsOutput_iff s).2 ⟨h.2.1, h.2.2.1⟩

/-- Rejecting changes no register: only the observation. -/
theorem reject_eq (s : State) (hi : s.seq = .idle) :
    reject s = { s with trace := [], response := some { status := .rejected } } := by
  ext1 <;> simp [reject, hi]

end Sys2Proof.Laws
end

