-- ==== Sys2Proof/Laws/Poll.lean ====
section
/-! SUPPORT. What a poll can do (42_ready_poll.md R102 to R108), said once: its outcome, its events, its frame. -/

namespace Sys2Proof.Laws

open Sys2Proof.Machine Sys2Proof.Safety

/-! ### One turn -/

/-- A turn whose sample is ready ends the poll there. -/
theorem pollTurn_ready {s : State} (h : (drawLevel s).1 = Config.drdyActiveLevel) :
    pollTurn s = (some .ok, (pinRead s).2) := by
  simp [pollTurn, h]

/-- A turn whose sample is not ready samples the timer and tests the deadline. -/
theorem pollTurn_notReady {s : State} (h : (drawLevel s).1 ≠ Config.drdyActiveLevel) :
    pollTurn s =
      (if pastDeadline (now (pinRead s).2).1 s.t0 s.tRes then some .timeout else none, (now (pinRead s).2).2) := by
  have hr : ¬ isReady (pinRead s).1 = true := by simp [isReady_of_ne h]
  have e : pastDeadline (now (pinRead s).2).1 (now (pinRead s).2).2.t0 (now (pinRead s).2).2.tRes =
      pastDeadline (now (pinRead s).2).1 s.t0 s.tRes := rfl
  unfold pollTurn
  cases hd : pastDeadline (now (pinRead s).2).1 s.t0 s.tRes
  · exact (if_neg hr).trans (if_neg (by rw [e, hd]; decide))
  · exact (if_neg hr).trans (if_pos (by rw [e, hd]))

/-- A turn does not end the poll, or ends it with OK or Timeout. -/
theorem pollTurn_status (s : State) :
    (pollTurn s).1 = none ∨ (pollTurn s).1 = some .ok ∨ (pollTurn s).1 = some .timeout := by
  by_cases h : (drawLevel s).1 = Config.drdyActiveLevel
  · simp [pollTurn_ready h]
  · rw [pollTurn_notReady h]
    dsimp only
    split <;> simp

@[simp] theorem pollTurn_bind (s : State) : (pollTurn s).2.bind = s.bind := by
  by_cases h : (drawLevel s).1 = Config.drdyActiveLevel
  · simp [pollTurn_ready h]
  · simp [pollTurn_notReady h]

@[simp] theorem pollTurn_csLvl (s : State) : (pollTurn s).2.csLvl = s.csLvl := by
  by_cases h : (drawLevel s).1 = Config.drdyActiveLevel
  · simp [pollTurn_ready h]
  · simp [pollTurn_notReady h]

@[simp] theorem pollTurn_rstLvl (s : State) : (pollTurn s).2.rstLvl = s.rstLvl := by
  by_cases h : (drawLevel s).1 = Config.drdyActiveLevel
  · simp [pollTurn_ready h]
  · simp [pollTurn_notReady h]

@[simp] theorem pollTurn_dirDrdy (s : State) : (pollTurn s).2.dirDrdy = s.dirDrdy := by
  by_cases h : (drawLevel s).1 = Config.drdyActiveLevel
  · simp [pollTurn_ready h]
  · simp [pollTurn_notReady h]

@[simp] theorem pollTurn_dirRst (s : State) : (pollTurn s).2.dirRst = s.dirRst := by
  by_cases h : (drawLevel s).1 = Config.drdyActiveLevel
  · simp [pollTurn_ready h]
  · simp [pollTurn_notReady h]

@[simp] theorem pollTurn_dirCs (s : State) : (pollTurn s).2.dirCs = s.dirCs := by
  by_cases h : (drawLevel s).1 = Config.drdyActiveLevel
  · simp [pollTurn_ready h]
  · simp [pollTurn_notReady h]

@[simp] theorem pollTurn_busCfg (s : State) : (pollTurn s).2.busCfg = s.busCfg := by
  by_cases h : (drawLevel s).1 = Config.drdyActiveLevel
  · simp [pollTurn_ready h]
  · simp [pollTurn_notReady h]

@[simp] theorem pollTurn_cmd (s : State) : (pollTurn s).2.cmd = s.cmd := by
  by_cases h : (drawLevel s).1 = Config.drdyActiveLevel
  · simp [pollTurn_ready h]
  · simp [pollTurn_notReady h]

@[simp] theorem pollTurn_tRes (s : State) : (pollTurn s).2.tRes = s.tRes := by
  by_cases h : (drawLevel s).1 = Config.drdyActiveLevel
  · simp [pollTurn_ready h]
  · simp [pollTurn_notReady h]

@[simp] theorem pollTurn_t0 (s : State) : (pollTurn s).2.t0 = s.t0 := by
  by_cases h : (drawLevel s).1 = Config.drdyActiveLevel
  · simp [pollTurn_ready h]
  · simp [pollTurn_notReady h]

@[simp] theorem pollTurn_hi (s : State) : (pollTurn s).2.hi = s.hi := by
  by_cases h : (drawLevel s).1 = Config.drdyActiveLevel
  · simp [pollTurn_ready h]
  · simp [pollTurn_notReady h]

@[simp] theorem pollTurn_lo (s : State) : (pollTurn s).2.lo = s.lo := by
  by_cases h : (drawLevel s).1 = Config.drdyActiveLevel
  · simp [pollTurn_ready h]
  · simp [pollTurn_notReady h]

@[simp] theorem pollTurn_sx (s : State) : (pollTurn s).2.sx = s.sx := by
  by_cases h : (drawLevel s).1 = Config.drdyActiveLevel
  · simp [pollTurn_ready h]
  · simp [pollTurn_notReady h]

@[simp] theorem pollTurn_sy (s : State) : (pollTurn s).2.sy = s.sy := by
  by_cases h : (drawLevel s).1 = Config.drdyActiveLevel
  · simp [pollTurn_ready h]
  · simp [pollTurn_notReady h]

@[simp] theorem pollTurn_sz (s : State) : (pollTurn s).2.sz = s.sz := by
  by_cases h : (drawLevel s).1 = Config.drdyActiveLevel
  · simp [pollTurn_ready h]
  · simp [pollTurn_notReady h]

@[simp] theorem pollTurn_valid (s : State) : (pollTurn s).2.valid = s.valid := by
  by_cases h : (drawLevel s).1 = Config.drdyActiveLevel
  · simp [pollTurn_ready h]
  · simp [pollTurn_notReady h]

@[simp] theorem pollTurn_seq (s : State) : (pollTurn s).2.seq = s.seq := by
  by_cases h : (drawLevel s).1 = Config.drdyActiveLevel
  · simp [pollTurn_ready h]
  · simp [pollTurn_notReady h]

@[simp] theorem pollTurn_response (s : State) : (pollTurn s).2.response = s.response := by
  by_cases h : (drawLevel s).1 = Config.drdyActiveLevel
  · simp [pollTurn_ready h]
  · simp [pollTurn_notReady h]

@[simp] theorem pollTurn_requests (s : State) : (pollTurn s).2.requests = s.requests := by
  by_cases h : (drawLevel s).1 = Config.drdyActiveLevel
  · simp [pollTurn_ready h]
  · simp [pollTurn_notReady h]

@[simp] theorem pollTurn_busIn (s : State) : (pollTurn s).2.busIn = s.busIn := by
  by_cases h : (drawLevel s).1 = Config.drdyActiveLevel
  · simp [pollTurn_ready h]
  · simp [pollTurn_notReady h]

theorem pollTurn_tau_le (s : State) : s.tau ≤ (pollTurn s).2.tau := by
  by_cases h : (drawLevel s).1 = Config.drdyActiveLevel
  · simp [pollTurn_ready h]
  · simp [pollTurn_notReady h]

/-! ### The loop -/

theorem pollLoop_zero (s : State) : pollLoop 0 s = (none, s) := rfl

theorem pollLoop_succ_of_some {s : State} {st : Status} (n : Nat) (h : (pollTurn s).1 = some st) :
    pollLoop (n + 1) s = (some st, (pollTurn s).2) := by
  simp [pollLoop, h]

theorem pollLoop_succ_of_none {s : State} (n : Nat) (h : (pollTurn s).1 = none) :
    pollLoop (n + 1) s = pollLoop n (pollTurn s).2 := by
  simp [pollLoop, h]

/-- What holds of one turn and composes holds of the loop. -/
theorem pollLoop_induct {R : State → State → Prop} (hr : ∀ s, R s s) (ht : ∀ s, R s (pollTurn s).2)
    (htr : ∀ a b c, R a b → R b c → R a c) (n : Nat) (s : State) : R s (pollLoop n s).2 := by
  induction n generalizing s with
  | zero => exact hr s
  | succ n ih =>
    cases h : (pollTurn s).1 with
    | some st => rw [pollLoop_succ_of_some n h]; exact ht s
    | none => rw [pollLoop_succ_of_none n h]; exact htr _ _ _ (ht s) (ih _)

@[simp] theorem pollLoop_bind (n : Nat) (s : State) : (pollLoop n s).2.bind = s.bind :=
  pollLoop_induct (R := fun a b => b.bind = a.bind) (fun _ => rfl) (fun s => pollTurn_bind s) (fun _ _ _ h k => k.trans h) n s

@[simp] theorem pollLoop_csLvl (n : Nat) (s : State) : (pollLoop n s).2.csLvl = s.csLvl :=
  pollLoop_induct (R := fun a b => b.csLvl = a.csLvl) (fun _ => rfl) (fun s => pollTurn_csLvl s) (fun _ _ _ h k => k.trans h) n s

@[simp] theorem pollLoop_rstLvl (n : Nat) (s : State) : (pollLoop n s).2.rstLvl = s.rstLvl :=
  pollLoop_induct (R := fun a b => b.rstLvl = a.rstLvl) (fun _ => rfl) (fun s => pollTurn_rstLvl s) (fun _ _ _ h k => k.trans h) n s

@[simp] theorem pollLoop_dirDrdy (n : Nat) (s : State) : (pollLoop n s).2.dirDrdy = s.dirDrdy :=
  pollLoop_induct (R := fun a b => b.dirDrdy = a.dirDrdy) (fun _ => rfl) (fun s => pollTurn_dirDrdy s) (fun _ _ _ h k => k.trans h) n s

@[simp] theorem pollLoop_dirRst (n : Nat) (s : State) : (pollLoop n s).2.dirRst = s.dirRst :=
  pollLoop_induct (R := fun a b => b.dirRst = a.dirRst) (fun _ => rfl) (fun s => pollTurn_dirRst s) (fun _ _ _ h k => k.trans h) n s

@[simp] theorem pollLoop_dirCs (n : Nat) (s : State) : (pollLoop n s).2.dirCs = s.dirCs :=
  pollLoop_induct (R := fun a b => b.dirCs = a.dirCs) (fun _ => rfl) (fun s => pollTurn_dirCs s) (fun _ _ _ h k => k.trans h) n s

@[simp] theorem pollLoop_busCfg (n : Nat) (s : State) : (pollLoop n s).2.busCfg = s.busCfg :=
  pollLoop_induct (R := fun a b => b.busCfg = a.busCfg) (fun _ => rfl) (fun s => pollTurn_busCfg s) (fun _ _ _ h k => k.trans h) n s

@[simp] theorem pollLoop_cmd (n : Nat) (s : State) : (pollLoop n s).2.cmd = s.cmd :=
  pollLoop_induct (R := fun a b => b.cmd = a.cmd) (fun _ => rfl) (fun s => pollTurn_cmd s) (fun _ _ _ h k => k.trans h) n s

@[simp] theorem pollLoop_tRes (n : Nat) (s : State) : (pollLoop n s).2.tRes = s.tRes :=
  pollLoop_induct (R := fun a b => b.tRes = a.tRes) (fun _ => rfl) (fun s => pollTurn_tRes s) (fun _ _ _ h k => k.trans h) n s

@[simp] theorem pollLoop_t0 (n : Nat) (s : State) : (pollLoop n s).2.t0 = s.t0 :=
  pollLoop_induct (R := fun a b => b.t0 = a.t0) (fun _ => rfl) (fun s => pollTurn_t0 s) (fun _ _ _ h k => k.trans h) n s

@[simp] theorem pollLoop_hi (n : Nat) (s : State) : (pollLoop n s).2.hi = s.hi :=
  pollLoop_induct (R := fun a b => b.hi = a.hi) (fun _ => rfl) (fun s => pollTurn_hi s) (fun _ _ _ h k => k.trans h) n s

@[simp] theorem pollLoop_lo (n : Nat) (s : State) : (pollLoop n s).2.lo = s.lo :=
  pollLoop_induct (R := fun a b => b.lo = a.lo) (fun _ => rfl) (fun s => pollTurn_lo s) (fun _ _ _ h k => k.trans h) n s

@[simp] theorem pollLoop_sx (n : Nat) (s : State) : (pollLoop n s).2.sx = s.sx :=
  pollLoop_induct (R := fun a b => b.sx = a.sx) (fun _ => rfl) (fun s => pollTurn_sx s) (fun _ _ _ h k => k.trans h) n s

@[simp] theorem pollLoop_sy (n : Nat) (s : State) : (pollLoop n s).2.sy = s.sy :=
  pollLoop_induct (R := fun a b => b.sy = a.sy) (fun _ => rfl) (fun s => pollTurn_sy s) (fun _ _ _ h k => k.trans h) n s

@[simp] theorem pollLoop_sz (n : Nat) (s : State) : (pollLoop n s).2.sz = s.sz :=
  pollLoop_induct (R := fun a b => b.sz = a.sz) (fun _ => rfl) (fun s => pollTurn_sz s) (fun _ _ _ h k => k.trans h) n s

@[simp] theorem pollLoop_valid (n : Nat) (s : State) : (pollLoop n s).2.valid = s.valid :=
  pollLoop_induct (R := fun a b => b.valid = a.valid) (fun _ => rfl) (fun s => pollTurn_valid s) (fun _ _ _ h k => k.trans h) n s

@[simp] theorem pollLoop_seq (n : Nat) (s : State) : (pollLoop n s).2.seq = s.seq :=
  pollLoop_induct (R := fun a b => b.seq = a.seq) (fun _ => rfl) (fun s => pollTurn_seq s) (fun _ _ _ h k => k.trans h) n s

@[simp] theorem pollLoop_response (n : Nat) (s : State) : (pollLoop n s).2.response = s.response :=
  pollLoop_induct (R := fun a b => b.response = a.response) (fun _ => rfl) (fun s => pollTurn_response s) (fun _ _ _ h k => k.trans h) n s

@[simp] theorem pollLoop_requests (n : Nat) (s : State) : (pollLoop n s).2.requests = s.requests :=
  pollLoop_induct (R := fun a b => b.requests = a.requests) (fun _ => rfl) (fun s => pollTurn_requests s) (fun _ _ _ h k => k.trans h) n s

@[simp] theorem pollLoop_busIn (n : Nat) (s : State) : (pollLoop n s).2.busIn = s.busIn :=
  pollLoop_induct (R := fun a b => b.busIn = a.busIn) (fun _ => rfl) (fun s => pollTurn_busIn s) (fun _ _ _ h k => k.trans h) n s

theorem pollLoop_tau_le (n : Nat) (s : State) : s.tau ≤ (pollLoop n s).2.tau :=
  pollLoop_induct (R := fun a b => a.tau ≤ b.tau) (fun _ => le_rfl) pollTurn_tau_le (fun _ _ _ => le_trans) n s

/-- The outcome of at least one turn, with the events it adds: OK ends at the one sample that saw the active level,
Timeout at a timer sample past the deadline, and otherwise the last timer sample is within it. -/
def PollEvents (s : State) (r : Option Status × State) (ev : List Event) : Prop :=
  r.2.trace = s.trace ++ ev ∧ (∀ e ∈ ev, isSample e = true) ∧
    (∀ l, Event.drdySample l ∈ ev.dropLast → l ≠ Config.drdyActiveLevel) ∧
    ((r.1 = some .ok ∧ ev.getLast? = some (.drdySample Config.drdyActiveLevel)) ∨
      (r.1 = some .timeout ∧ ev.getLast? = some (.timeSample (timerCount r.2.tau)) ∧
        s.tRes.toNat < (timerCount r.2.tau - s.t0).toNat) ∨
      (r.1 = none ∧ ev.getLast? = some (.timeSample (timerCount r.2.tau)) ∧
        (timerCount r.2.tau - s.t0).toNat ≤ s.tRes.toNat))

theorem pollTurn_events (s : State) : ∃ ev, PollEvents s (pollTurn s) ev := by
  by_cases h : (drawLevel s).1 = Config.drdyActiveLevel
  · refine ⟨[.drdySample Config.drdyActiveLevel], ?_⟩
    simp [PollEvents, pollTurn_ready h, h, isSample]
  · refine ⟨[.drdySample (drawLevel s).1, .timeSample (timerCount (now (pinRead s).2).2.tau)], ?_⟩
    rw [pollTurn_notReady h]
    refine ⟨by simp, by simp [isSample], by simpa using h, .inr ?_⟩
    cases hd : pastDeadline (now (pinRead s).2).1 s.t0 s.tRes
    · refine .inr ⟨by simp, by simp, ?_⟩
      by_contra hc
      rw [Bool.eq_false_iff] at hd
      exact hd ((pastDeadline_iff _ _ _).2 (by simpa [elapsed] using hc))
    · exact .inl ⟨by simp, by simp, by simpa [elapsed] using (pastDeadline_iff _ _ _).1 hd⟩

theorem pollEvents_append {s s' : State} {r : Option Status × State} {ev ev' : List Event}
    (h : PollEvents s (none, s') ev) (h' : PollEvents s' r ev') (ht : s'.tRes = s.tRes) (h0 : s'.t0 = s.t0) :
    PollEvents s r (ev ++ ev') := by
  obtain ⟨a, b, c, d⟩ := h
  obtain ⟨a', b', c', d'⟩ := h'
  have hne : ev' ≠ [] := by rintro rfl; simp at d'
  have hlast : ∀ l, Event.drdySample l ∈ ev → l ≠ Config.drdyActiveLevel := by
    intro l hl
    obtain ⟨x, hx⟩ : ∃ x, ev.getLast? = some (.timeSample x) := by
      rcases d with d | d | d
      · exact absurd d.1 (by simp)
      · exact ⟨_, d.2.1⟩
      · exact ⟨_, d.2.1⟩
    obtain ⟨init, rfl⟩ : ∃ init, ev = init ++ [.timeSample x] :=
      List.getLast?_eq_some_iff.1 hx
    simp only [List.mem_append, List.mem_singleton, reduceCtorEq, or_false] at hl
    exact c l (by simpa using hl)
  refine ⟨by rw [a', a, List.append_assoc], ?_, ?_, ?_⟩
  · intro e he
    rcases List.mem_append.1 he with he | he
    · exact b e he
    · exact b' e he
  · intro l hl
    rw [List.dropLast_append_of_ne_nil hne] at hl
    rcases List.mem_append.1 hl with hl | hl
    · exact hlast l hl
    · exact c' l hl
  · rw [List.getLast?_append_of_ne_nil _ hne, ← ht, ← h0]
    exact d'

theorem pollLoop_events (n : Nat) (s : State) : ∃ ev, PollEvents s (pollLoop (n + 1) s) ev := by
  induction n generalizing s with
  | zero =>
    obtain ⟨ev, h⟩ := pollTurn_events s
    refine ⟨ev, ?_⟩
    cases ht : (pollTurn s).1 with
    | some st => rw [pollLoop_succ_of_some 0 ht, ← ht]; exact h
    | none => rw [pollLoop_succ_of_none 0 ht, pollLoop_zero, ← ht]; exact h
  | succ n ih =>
    obtain ⟨ev, h⟩ := pollTurn_events s
    cases ht : (pollTurn s).1 with
    | some st => rw [pollLoop_succ_of_some _ ht, ← ht]; exact ⟨ev, h⟩
    | none =>
      rw [pollLoop_succ_of_none _ ht]
      obtain ⟨ev', h'⟩ := ih (pollTurn s).2
      exact ⟨ev ++ ev', pollEvents_append (s' := (pollTurn s).2) (by rw [← ht]; exact h) h' (by simp) (by simp)⟩

/-- A loop does not end the poll, or ends it with OK or Timeout. -/
theorem pollLoop_status (n : Nat) (s : State) :
    (pollLoop n s).1 = none ∨ (pollLoop n s).1 = some .ok ∨ (pollLoop n s).1 = some .timeout := by
  cases n with
  | zero => exact .inl rfl
  | succ n =>
    obtain ⟨ev, -, -, -, h⟩ := pollLoop_events n s
    rcases h with h | h | h <;> simp [h.1]

/-! ### The start of a poll and its body -/

/-- T_RES and T0 captured, by the registers (42_ready_poll.md R102). -/
theorem startPoll_eq (rank : Byte) (tmo : Word32) (s : State) :
    startPoll rank tmo s =
      { s with
        tRes := resolveTimeout (rankOf rank) tmo
        t0 := timerCount (s.tau + (drawGap s).1)
        gapIn := s.gapIn.tail
        tau := s.tau + (drawGap s).1
        draws := s.draws + 1
        trace := s.trace ++ [.timeSample (timerCount (s.tau + (drawGap s).1))] } := rfl

theorem awaitBody_outOfRange {rank : Byte} (tmo : Word32) (s : State) (h : rankOutOfRange rank = true) :
    awaitBody rank tmo s = (some .invalidPeriod, s) := by
  simp [awaitBody, h]

theorem awaitBody_inRange {rank : Byte} (tmo : Word32) (s : State) (h : rankOutOfRange rank = false) :
    awaitBody rank tmo s = pollLoop (s.drdyIn.length - 1 + 1) (startPoll rank tmo s) := by
  simp [awaitBody, h]

/-! ### A poll whose answers are lined up -/

/-- A turn whose sample is lined up and ready, by the registers (42_ready_poll.md R103). -/
theorem pollTurn_seesReady {s : State} {ls : List Level} (hl : s.drdyIn = Config.drdyActiveLevel :: ls) :
    pollTurn s =
      (some .ok, { s with
        drdyIn := ls
        draws := s.draws + 1
        trace := s.trace ++ [.drdySample Config.drdyActiveLevel] }) := by
  have hd : (drawLevel s).1 = Config.drdyActiveLevel := drawLevel_of_cons hl
  rw [pollTurn_ready hd]
  refine Prod.ext rfl ?_
  ext1 <;> simp [hl, hd]

/-- A turn whose sample is lined up and not ready, by the registers (42_ready_poll.md R103, R105). -/
theorem pollTurn_seesNotReady {s : State} {l : Level} {ls : List Level} {g : Nat} {gs : List Nat}
    (hl : s.drdyIn = l :: ls) (hg : s.gapIn = g :: gs) (hne : l ≠ Config.drdyActiveLevel) :
    pollTurn s =
      (if pastDeadline (timerCount (s.tau + g)) s.t0 s.tRes then some .timeout else none, { s with
        drdyIn := ls
        gapIn := gs
        tau := s.tau + g
        draws := s.draws + 2
        trace := s.trace ++ [.drdySample l, .timeSample (timerCount (s.tau + g))] }) := by
  have hd : (drawLevel s).1 = l := drawLevel_of_cons hl
  have hgap : (drawGap (pinRead s).2).1 = g := drawGap_of_cons (s := (pinRead s).2) hg
  rw [pollTurn_notReady (by rw [hd]; exact hne), now_fst, hgap, pinRead_tau]
  refine Prod.ext rfl ?_
  ext1 <;> simp [hl, hg, hgap, hd]

/-- Turns that see the inactive level within the deadline leave the loop waiting, by the registers
(42_ready_poll.md R102, R104). `base` is the time that has passed since T0. -/
theorem pollLoop_waits (ls : List Level) (gs : List Nat) (restL : List Level) (restG : List Nat) (s : State)
    (n base : Nat) (hlen : ls.length = gs.length) (hl : s.drdyIn = ls ++ restL) (hg : s.gapIn = gs ++ restG)
    (hn : NoneReady ls) (ht0 : s.t0 = timerCount (s.tau - base)) (hb : base ≤ s.tau)
    (hw : ∀ k, k ≤ gs.length → (base + (gs.take k).sum) % 2 ^ 32 ≤ s.tRes.toNat) :
    pollLoop (ls.length + n) s =
      pollLoop n { s with
        drdyIn := restL
        gapIn := restG
        tau := s.tau + gs.sum
        draws := s.draws + 2 * gs.length
        trace := s.trace ++ turnEvents s.tau ls gs } := by
  induction ls generalizing s gs base with
  | nil =>
    cases gs with
    | cons => simp at hlen
    | nil =>
      simp only [List.nil_append] at hl hg
      simp only [turnEvents, List.length_nil, Nat.zero_add]
      congr 1
      ext1 <;> simp [hl, hg]
  | cons l ls ih =>
    cases gs with
    | nil => simp at hlen
    | cons g gs =>
      simp only [List.length_cons, Nat.add_right_cancel_iff] at hlen
      have hturn := pollTurn_seesNotReady hl hg (hn l (by simp))
      have hpast : pastDeadline (timerCount (s.tau + g)) s.t0 s.tRes = false := by
        rw [Bool.eq_false_iff, Ne, pastDeadline_iff]
        have h1 := elapsed_toNat (s.tau - base) (base + g)
        rw [show s.tau - base + (base + g) = s.tau + g by omega] at h1
        have h2 := hw 1 (by simp)
        simp only [List.take_succ_cons, List.take_zero, List.sum_cons, List.sum_nil, Nat.add_zero] at h2
        rw [ht0, h1]
        omega
      rw [hpast] at hturn
      rw [show (l :: ls).length + n = (ls.length + n) + 1 by simp; omega,
        pollLoop_succ_of_none _ (by rw [hturn]; rfl), hturn,
        ih gs _ (base + g) hlen rfl rfl (fun x hx => hn x (by simp [hx])) (by simp [ht0]; congr 1; omega)
          (by dsimp only; omega)]
      · congr 1
        ext1 <;> simp [turnEvents] <;> omega
      · intro k hk
        have := hw (k + 1) (by simpa using hk)
        rwa [List.take_succ_cons, List.sum_cons, ← Nat.add_assoc] at this

/-- A turn does not read the trace: it adds its events behind whatever stands there. -/
theorem pollTurn_trace (s : State) (tr : List Event) :
    pollTurn { s with trace := tr ++ s.trace } =
      ((pollTurn s).1, { (pollTurn s).2 with trace := tr ++ (pollTurn s).2.trace }) := by
  by_cases h : (drawLevel s).1 = Config.drdyActiveLevel
  · rw [pollTurn_ready h, pollTurn_ready (s := { s with trace := tr ++ s.trace }) h]
    refine Prod.ext rfl ?_
    ext1 <;> first | rfl | exact List.append_assoc _ _ _
  · rw [pollTurn_notReady h, pollTurn_notReady (s := { s with trace := tr ++ s.trace }) h]
    refine Prod.ext rfl ?_
    ext1 <;> first | rfl | simp; exact ⟨rfl, rfl⟩

/-- The loop does not read the trace. -/
theorem pollLoop_trace (n : Nat) (s : State) (tr : List Event) :
    pollLoop n { s with trace := tr ++ s.trace } =
      ((pollLoop n s).1, { (pollLoop n s).2 with trace := tr ++ (pollLoop n s).2.trace }) := by
  induction n generalizing s with
  | zero => rfl
  | succ n ih =>
    have ht := pollTurn_trace s tr
    cases h : (pollTurn s).1 with
    | some st => rw [pollLoop_succ_of_some n h, pollLoop_succ_of_some (st := st) n (by rw [ht]; exact h), ht]
    | none => rw [pollLoop_succ_of_none n h, pollLoop_succ_of_none n (by rw [ht]; exact h), ht, ih]

end Sys2Proof.Laws
end

