-- ==== Sys2Proof/Laws/Axis.lean ====
section
/-! SUPPORT. What a trigger, a result read and a single-axis read can do (41_conversion_trigger.md R91, 43_result_read.md R116,
44_axis_sequencer.md R125), said once: their outcome, their events, their frame. -/

namespace Sys2Proof.Laws

open Sys2Proof.Machine Sys2Proof.Safety

/-! ### Trigger -/

/-- The state after a successful trigger. -/
def triggered (axis : Axis) (rank : Byte) (s : State) : State :=
  { s with
    cmd := commandNumber axis rank.toNat
    csLvl := .drive .low
    rstLvl := .drive .low
    tau := s.tau + 1
    busIn := s.busIn.tail
    draws := s.draws + 1
    trace := s.trace ++ triggerEvents (commandNumber axis rank.toNat) (drawByte s).1 }

@[simp] theorem triggered_csLvl (axis : Axis) (rank : Byte) (s : State) :
    (triggered axis rank s).csLvl = .drive .low := rfl

@[simp] theorem triggered_rstLvl (axis : Axis) (rank : Byte) (s : State) :
    (triggered axis rank s).rstLvl = .drive .low := rfl

@[simp] theorem triggered_tau (axis : Axis) (rank : Byte) (s : State) : (triggered axis rank s).tau = s.tau + 1 := rfl

@[simp] theorem triggered_hi (axis : Axis) (rank : Byte) (s : State) : (triggered axis rank s).hi = s.hi := rfl

@[simp] theorem triggered_lo (axis : Axis) (rank : Byte) (s : State) : (triggered axis rank s).lo = s.lo := rfl

@[simp] theorem triggered_trace (axis : Axis) (rank : Byte) (s : State) :
    (triggered axis rank s).trace = s.trace ++ triggerEvents (commandNumber axis rank.toNat) (drawByte s).1 := rfl

theorem triggerBody_inRange {rank : Byte} (axis : Axis) (s : State) (h : rankOutOfRange rank = false) :
    triggerBody axis rank s = (.ok, triggered axis rank s) := by
  rw [triggerBody, encodeCommand_of_inRange axis h]
  refine Prod.ext rfl ?_
  ext1 <;> simp [triggered, sendCommand, resetPulse, resetHoldUs, triggerEvents, armEvents, drawByte]

theorem triggerBody_outOfRange {rank : Byte} (axis : Axis) (s : State) (h : rankOutOfRange rank = true) :
    triggerBody axis rank s = (.invalidPeriod, s) := by
  rw [triggerBody, (encodeCommand_eq_none_iff axis rank).2 h]

/-! ### Result read -/

/-- The state after a result read that receives `hi` and `lo`. -/
def resultRead (hi lo : Byte) (s : State) : State :=
  { s with
    hi := hi
    lo := lo
    csLvl := .drive .high
    busIn := s.busIn.tail.tail
    draws := s.draws + 2
    trace := s.trace ++ readEvents hi lo }

theorem readBody_eq (s : State) :
    readBody s =
      (compose (drawByte s).1 (drawByte (drawByte s).2).1, resultRead (drawByte s).1 (drawByte (drawByte s).2).1 s) := by
  refine Prod.ext rfl ?_
  ext1 <;> simp [readBody, readLo, readHi, resultRead, readEvents, placeholderByte, drawByte]

/-! ### Single-axis read -/

/-- A single-axis read with an out-of-range rank ends before anything happens. -/
theorem readAxisBody_outOfRange {rank : Byte} (axis : Axis) (tmo : Word32) (s : State) (h : rankOutOfRange rank = true) :
    readAxisBody axis rank tmo s = (some (.invalidPeriod, 0#16), s) := by
  simp [readAxisBody, triggerBody_outOfRange axis s h]

/-- The poll of a single-axis read, from its trigger's end. -/
def axisPoll (axis : Axis) (rank : Byte) (tmo : Word32) (s : State) : Option Status × State :=
  pollLoop (s.drdyIn.length - 1 + 1) (startPoll rank tmo (triggered axis rank s))

/-- A single-axis read of a rank in range is its trigger, its poll, and on OK its result read. -/
theorem readAxisBody_inRange {rank : Byte} (axis : Axis) (tmo : Word32) (s : State) (h : rankOutOfRange rank = false) :
    ((axisPoll axis rank tmo s).1 = some .ok ∧
      readAxisBody axis rank tmo s =
        (some (.ok, (readBody (axisPoll axis rank tmo s).2).1), (readBody (axisPoll axis rank tmo s).2).2)) ∨
    ((axisPoll axis rank tmo s).1 = some .timeout ∧
      readAxisBody axis rank tmo s = (some (.timeout, 0#16), (axisPoll axis rank tmo s).2)) ∨
    ((axisPoll axis rank tmo s).1 = none ∧ readAxisBody axis rank tmo s = (none, (axisPoll axis rank tmo s).2)) := by
  have hp : axisPoll axis rank tmo s = awaitBody rank tmo (triggered axis rank s) :=
    (awaitBody_inRange tmo _ h).symm
  obtain ⟨ev, -, -, -, hev⟩ := pollLoop_events (s.drdyIn.length - 1) (startPoll rank tmo (triggered axis rank s))
  rw [show pollLoop (s.drdyIn.length - 1 + 1) (startPoll rank tmo (triggered axis rank s)) = axisPoll axis rank tmo s from rfl]
    at hev
  simp only [readAxisBody, triggerBody_inRange axis s h, ← hp]
  obtain ⟨st, s2, hq⟩ : ∃ st s2, axisPoll axis rank tmo s = (st, s2) := ⟨_, _, rfl⟩
  rw [hq] at hev ⊢
  rcases hev with ⟨hs, -⟩ | ⟨hs, -⟩ | ⟨hs, -⟩
  · dsimp only at hs
    subst hs
    exact .inl ⟨rfl, rfl⟩
  · dsimp only at hs
    subst hs
    exact .inr (.inl ⟨rfl, rfl⟩)
  · dsimp only at hs
    subst hs
    exact .inr (.inr ⟨rfl, rfl⟩)

@[simp] theorem readAxisBody_bind (axis : Axis) (rank : Byte) (tmo : Word32) (s : State) :
    (readAxisBody axis rank tmo s).2.bind = s.bind := by
  cases h : rankOutOfRange rank
  · rcases readAxisBody_inRange axis tmo s h with ⟨-, e⟩ | ⟨-, e⟩ | ⟨-, e⟩ <;>
      simp [e, readBody_eq, resultRead, axisPoll, startPoll_eq, triggered]
  · simp [readAxisBody_outOfRange axis tmo s h]

@[simp] theorem readAxisBody_dirDrdy (axis : Axis) (rank : Byte) (tmo : Word32) (s : State) :
    (readAxisBody axis rank tmo s).2.dirDrdy = s.dirDrdy := by
  cases h : rankOutOfRange rank
  · rcases readAxisBody_inRange axis tmo s h with ⟨-, e⟩ | ⟨-, e⟩ | ⟨-, e⟩ <;>
      simp [e, readBody_eq, resultRead, axisPoll, startPoll_eq, triggered]
  · simp [readAxisBody_outOfRange axis tmo s h]

@[simp] theorem readAxisBody_dirRst (axis : Axis) (rank : Byte) (tmo : Word32) (s : State) :
    (readAxisBody axis rank tmo s).2.dirRst = s.dirRst := by
  cases h : rankOutOfRange rank
  · rcases readAxisBody_inRange axis tmo s h with ⟨-, e⟩ | ⟨-, e⟩ | ⟨-, e⟩ <;>
      simp [e, readBody_eq, resultRead, axisPoll, startPoll_eq, triggered]
  · simp [readAxisBody_outOfRange axis tmo s h]

@[simp] theorem readAxisBody_dirCs (axis : Axis) (rank : Byte) (tmo : Word32) (s : State) :
    (readAxisBody axis rank tmo s).2.dirCs = s.dirCs := by
  cases h : rankOutOfRange rank
  · rcases readAxisBody_inRange axis tmo s h with ⟨-, e⟩ | ⟨-, e⟩ | ⟨-, e⟩ <;>
      simp [e, readBody_eq, resultRead, axisPoll, startPoll_eq, triggered]
  · simp [readAxisBody_outOfRange axis tmo s h]

@[simp] theorem readAxisBody_busCfg (axis : Axis) (rank : Byte) (tmo : Word32) (s : State) :
    (readAxisBody axis rank tmo s).2.busCfg = s.busCfg := by
  cases h : rankOutOfRange rank
  · rcases readAxisBody_inRange axis tmo s h with ⟨-, e⟩ | ⟨-, e⟩ | ⟨-, e⟩ <;>
      simp [e, readBody_eq, resultRead, axisPoll, startPoll_eq, triggered]
  · simp [readAxisBody_outOfRange axis tmo s h]

@[simp] theorem readAxisBody_sx (axis : Axis) (rank : Byte) (tmo : Word32) (s : State) :
    (readAxisBody axis rank tmo s).2.sx = s.sx := by
  cases h : rankOutOfRange rank
  · rcases readAxisBody_inRange axis tmo s h with ⟨-, e⟩ | ⟨-, e⟩ | ⟨-, e⟩ <;>
      simp [e, readBody_eq, resultRead, axisPoll, startPoll_eq, triggered]
  · simp [readAxisBody_outOfRange axis tmo s h]

@[simp] theorem readAxisBody_sy (axis : Axis) (rank : Byte) (tmo : Word32) (s : State) :
    (readAxisBody axis rank tmo s).2.sy = s.sy := by
  cases h : rankOutOfRange rank
  · rcases readAxisBody_inRange axis tmo s h with ⟨-, e⟩ | ⟨-, e⟩ | ⟨-, e⟩ <;>
      simp [e, readBody_eq, resultRead, axisPoll, startPoll_eq, triggered]
  · simp [readAxisBody_outOfRange axis tmo s h]

@[simp] theorem readAxisBody_sz (axis : Axis) (rank : Byte) (tmo : Word32) (s : State) :
    (readAxisBody axis rank tmo s).2.sz = s.sz := by
  cases h : rankOutOfRange rank
  · rcases readAxisBody_inRange axis tmo s h with ⟨-, e⟩ | ⟨-, e⟩ | ⟨-, e⟩ <;>
      simp [e, readBody_eq, resultRead, axisPoll, startPoll_eq, triggered]
  · simp [readAxisBody_outOfRange axis tmo s h]

@[simp] theorem readAxisBody_valid (axis : Axis) (rank : Byte) (tmo : Word32) (s : State) :
    (readAxisBody axis rank tmo s).2.valid = s.valid := by
  cases h : rankOutOfRange rank
  · rcases readAxisBody_inRange axis tmo s h with ⟨-, e⟩ | ⟨-, e⟩ | ⟨-, e⟩ <;>
      simp [e, readBody_eq, resultRead, axisPoll, startPoll_eq, triggered]
  · simp [readAxisBody_outOfRange axis tmo s h]

@[simp] theorem readAxisBody_seq (axis : Axis) (rank : Byte) (tmo : Word32) (s : State) :
    (readAxisBody axis rank tmo s).2.seq = s.seq := by
  cases h : rankOutOfRange rank
  · rcases readAxisBody_inRange axis tmo s h with ⟨-, e⟩ | ⟨-, e⟩ | ⟨-, e⟩ <;>
      simp [e, readBody_eq, resultRead, axisPoll, startPoll_eq, triggered]
  · simp [readAxisBody_outOfRange axis tmo s h]

@[simp] theorem readAxisBody_response (axis : Axis) (rank : Byte) (tmo : Word32) (s : State) :
    (readAxisBody axis rank tmo s).2.response = s.response := by
  cases h : rankOutOfRange rank
  · rcases readAxisBody_inRange axis tmo s h with ⟨-, e⟩ | ⟨-, e⟩ | ⟨-, e⟩ <;>
      simp [e, readBody_eq, resultRead, axisPoll, startPoll_eq, triggered]
  · simp [readAxisBody_outOfRange axis tmo s h]

@[simp] theorem readAxisBody_requests (axis : Axis) (rank : Byte) (tmo : Word32) (s : State) :
    (readAxisBody axis rank tmo s).2.requests = s.requests := by
  cases h : rankOutOfRange rank
  · rcases readAxisBody_inRange axis tmo s h with ⟨-, e⟩ | ⟨-, e⟩ | ⟨-, e⟩ <;>
      simp [e, readBody_eq, resultRead, axisPoll, startPoll_eq, triggered]
  · simp [readAxisBody_outOfRange axis tmo s h]

/-! ### Traffic of event lists -/

@[simp] theorem commandsOf_append (a b : List Event) : commandsOf (a ++ b) = commandsOf a ++ commandsOf b := by
  simp [commandsOf]

@[simp] theorem resultBytesOf_append (a b : List Event) : resultBytesOf (a ++ b) = resultBytesOf a ++ resultBytesOf b := by
  simp [resultBytesOf]

theorem commandsOf_samples {ev : List Event} (h : ∀ e ∈ ev, isSample e = true) : commandsOf ev = [] := by
  rw [commandsOf, List.filterMap_eq_nil_iff]
  intro e he
  have := h e he
  cases e <;> simp_all [isSample]

theorem resultBytesOf_samples {ev : List Event} (h : ∀ e ∈ ev, isSample e = true) : resultBytesOf ev = [] := by
  rw [resultBytesOf, List.filterMap_eq_nil_iff]
  intro e he
  have := h e he
  cases e <;> simp_all [isSample]

@[simp] theorem commandsOf_triggerEvents (axis : Axis) {n : Nat} (h : n ≤ 7) (r : Byte) :
    commandsOf (triggerEvents (commandNumber axis n) r) = [commandNumber axis n] := by
  simp [commandsOf, triggerEvents, armEvents, legalCommand_ne_placeholder (commandNumber_legal axis h)]

@[simp] theorem resultBytesOf_triggerEvents (axis : Axis) {n : Nat} (h : n ≤ 7) (r : Byte) :
    resultBytesOf (triggerEvents (commandNumber axis n) r) = [] := by
  simp [resultBytesOf, triggerEvents, armEvents, legalCommand_ne_placeholder (commandNumber_legal axis h)]

@[simp] theorem commandsOf_readEvents (hi lo : Byte) : commandsOf (readEvents hi lo) = [] := by
  simp [commandsOf, readEvents, placeholderByte]

@[simp] theorem resultBytesOf_readEvents (hi lo : Byte) : resultBytesOf (readEvents hi lo) = [hi, lo] := by
  simp [resultBytesOf, readEvents, placeholderByte]

/-! ### All a single-axis read can do -/

/-- What a single-axis read comes to, by its result: its events after the trigger's, CHIP-SELECT, the result bytes and how
long it lasted. -/
def AxisOutcome (rank : Byte) (tmo : Word32) (s : State) (r : Option (Status × Measurement) × State)
    (later : List Event) : Prop :=
  (∃ m hi lo poll, r.1 = some (.ok, m) ∧ r.2.csLvl = .drive .high ∧ later = poll ++ readEvents hi lo ∧
      ∀ e ∈ poll, isSample e = true) ∨
    (r.1 = some (.timeout, 0#16) ∧ r.2.csLvl = .drive .low ∧ (∀ e ∈ later, isSample e = true) ∧
      s.tau + 1 + (resolveTimeout (rankOf rank) tmo).toNat < r.2.tau ∧ r.2.hi = s.hi ∧ r.2.lo = s.lo) ∨
    (r.1 = none ∧ r.2.csLvl = .drive .low ∧ ∀ e ∈ later, isSample e = true)

/-- A single-axis read of a rank in range. -/
theorem readAxisBody_spec {rank : Byte} (axis : Axis) (tmo : Word32) (s : State) (h : rankOutOfRange rank = false) :
    ∃ later, (readAxisBody axis rank tmo s).2.trace =
        s.trace ++ (triggerEvents (commandNumber axis rank.toNat) (drawByte s).1 ++ later) ∧
      (readAxisBody axis rank tmo s).2.rstLvl = .drive .low ∧
      (readAxisBody axis rank tmo s).2.tRes = resolveTimeout (rankOf rank) tmo ∧
      s.tau + 1 ≤ (readAxisBody axis rank tmo s).2.tau ∧
      AxisOutcome rank tmo s (readAxisBody axis rank tmo s) later := by
  obtain ⟨ev, htr, hs, -, hev⟩ := pollLoop_events (s.drdyIn.length - 1) (startPoll rank tmo (triggered axis rank s))
  have htau := pollLoop_tau_le (s.drdyIn.length - 1 + 1) (startPoll rank tmo (triggered axis rank s))
  have hhi := pollLoop_hi (s.drdyIn.length - 1 + 1) (startPoll rank tmo (triggered axis rank s))
  have hlo := pollLoop_lo (s.drdyIn.length - 1 + 1) (startPoll rank tmo (triggered axis rank s))
  have hcs := pollLoop_csLvl (s.drdyIn.length - 1 + 1) (startPoll rank tmo (triggered axis rank s))
  have hrst := pollLoop_rstLvl (s.drdyIn.length - 1 + 1) (startPoll rank tmo (triggered axis rank s))
  have hres := pollLoop_tRes (s.drdyIn.length - 1 + 1) (startPoll rank tmo (triggered axis rank s))
  rw [show pollLoop (s.drdyIn.length - 1 + 1) (startPoll rank tmo (triggered axis rank s)) = axisPoll axis rank tmo s from rfl]
    at htr hev htau hhi hlo hcs hrst hres
  simp only [startPoll_eq, triggered_trace, triggered_csLvl, triggered_rstLvl, triggered_tau, triggered_hi, triggered_lo,
    List.append_assoc] at htr hev htau hhi hlo hcs hrst hres
  obtain ⟨g, hg⟩ : ∃ g, g = (drawGap (triggered axis rank s)).1 := ⟨_, rfl⟩
  rw [← hg] at htr hev htau
  have hsamp : ∀ e ∈ Event.timeSample (timerCount (s.tau + 1 + g)) :: ev, isSample e = true := by
    intro e he
    rcases List.mem_cons.1 he with rfl | he
    · rfl
    · exact hs e he
  have hle : s.tau + 1 ≤ (axisPoll axis rank tmo s).2.tau := by omega
  rcases readAxisBody_inRange axis tmo s h with ⟨h1, e⟩ | ⟨h1, e⟩ | ⟨h1, e⟩
  · rw [e, readBody_eq]
    obtain ⟨hi, hhi'⟩ : ∃ b, b = (drawByte (axisPoll axis rank tmo s).2).1 := ⟨_, rfl⟩
    obtain ⟨lo, hlo'⟩ : ∃ b, b = (drawByte (drawByte (axisPoll axis rank tmo s).2).2).1 := ⟨_, rfl⟩
    rw [← hhi', ← hlo']
    exact ⟨_ :: ev ++ readEvents hi lo, by simp [resultRead, htr], hrst, hres, hle,
      .inl ⟨_, _, _, _, rfl, rfl, rfl, hsamp⟩⟩
  · rw [e]
    refine ⟨_ :: ev, by simp [htr], hrst, hres, hle, .inr (.inl ⟨rfl, hcs, hsamp, ?_, hhi, hlo⟩)⟩
    rcases hev with ⟨h2, -⟩ | ⟨-, -, hd⟩ | ⟨h2, -⟩
    · rw [h1] at h2; cases h2
    · obtain ⟨d, hd'⟩ := Nat.exists_eq_add_of_le htau
      have he := elapsed_toNat (s.tau + 1 + g) d
      rw [elapsed, ← hd'] at he
      rw [he] at hd
      have := Nat.mod_le d (2 ^ 32)
      dsimp only
      omega
    · rw [h1] at h2; cases h2
  · rw [e]
    exact ⟨_ :: ev, by simp [htr], hrst, hres, hle, .inr (.inr ⟨rfl, hcs, hsamp⟩)⟩

/-- A single-axis read that has ended: InvalidPeriod for a rank out of range, otherwise OK or Timeout. -/
theorem readAxisBody_status (axis : Axis) (rank : Byte) (tmo : Word32) (s : State) (r : Status × Measurement)
    (h : (readAxisBody axis rank tmo s).1 = some r) :
    (rankOutOfRange rank = true ∧ r = (.invalidPeriod, 0#16)) ∨
      (rankOutOfRange rank = false ∧ (r.1 = .ok ∨ r = (.timeout, 0#16))) := by
  cases hr : rankOutOfRange rank
  · obtain ⟨l, -, -, -, -, ho⟩ := readAxisBody_spec axis tmo s hr
    rcases ho with ⟨m, hi, lo, p, h1, -⟩ | ⟨h1, -⟩ | ⟨h1, -⟩ <;> rw [h] at h1 <;> cases h1 <;> simp
  · rw [readAxisBody_outOfRange _ _ _ hr] at h
    cases h
    simp

/-! ### A single-axis read whose answers are lined up -/

/-- The state after a single-axis read whose first sample is ready. -/
def axisDone (axis : Axis) (rank : Byte) (tmo : Word32) (received hi lo : Byte) (bs : List Byte) (g : Nat)
    (gs : List Nat) (ls : List Level) (s : State) : State :=
  { s with
    cmd := commandNumber axis rank.toNat
    tRes := resolveTimeout (rankOf rank) tmo
    t0 := timerCount (s.tau + 1 + g)
    hi := hi
    lo := lo
    csLvl := .drive .high
    rstLvl := .drive .low
    busIn := bs
    gapIn := gs
    drdyIn := ls
    tau := s.tau + 1 + g
    draws := s.draws + 5
    trace := s.trace ++ (triggerEvents (commandNumber axis rank.toNat) received ++
      [.timeSample (timerCount (s.tau + 1 + g)), .drdySample Config.drdyActiveLevel] ++ readEvents hi lo) }

theorem readAxisBody_ready {rank : Byte} {s : State} {received hi lo : Byte} {bs : List Byte} {g : Nat}
    {gs : List Nat} {ls : List Level} (axis : Axis) (tmo : Word32) (hk : rankOutOfRange rank = false)
    (hb : s.busIn = received :: hi :: lo :: bs) (hg : s.gapIn = g :: gs)
    (hl : s.drdyIn = Config.drdyActiveLevel :: ls) :
    readAxisBody axis rank tmo s =
      (some (.ok, bigEndian hi lo), axisDone axis rank tmo received hi lo bs g gs ls s) := by
  have e0 : (drawByte s).1 = received := drawByte_of_cons hb
  have eg : (drawGap (triggered axis rank s)).1 = g := drawGap_of_cons (s := triggered axis rank s) hg
  have el : (drawLevel (startPoll rank tmo (triggered axis rank s))).1 = Config.drdyActiveLevel :=
    drawLevel_of_cons (s := startPoll rank tmo (triggered axis rank s)) hl
  have hp : axisPoll axis rank tmo s = (some .ok, (pinRead (startPoll rank tmo (triggered axis rank s))).2) := by
    rw [axisPoll, pollLoop_succ_of_some (st := .ok) _ (by rw [pollTurn_ready el]), pollTurn_ready el]
  rcases readAxisBody_inRange axis tmo s hk with ⟨-, e⟩ | ⟨h, -⟩ | ⟨h, -⟩
  · rw [e, hp, readBody_eq]
    set q := (pinRead (startPoll rank tmo (triggered axis rank s))).2 with hq
    have hqb : q.busIn = hi :: lo :: bs := by simp [hq, startPoll_eq, triggered, hb]
    have e1 : (drawByte q).1 = hi := drawByte_of_cons hqb
    have e2 : (drawByte (drawByte q).2).1 = lo := drawByte_of_cons (bs := bs) (by simp [hqb])
    dsimp only
    rw [e1, e2, compose_eq_bigEndian]
    refine Prod.ext rfl ?_
    ext1 <;> simp [resultRead, hq, el] <;> simp [startPoll_eq, eg, axisDone] <;> simp [triggered, hb, hg, hl, e0]
  · rw [hp] at h
    cases h
  · rw [hp] at h
    cases h

/-- The state after a single-axis read whose first sample is not ready and whose deadline has passed then. -/
def axisTimedOut (axis : Axis) (rank : Byte) (tmo : Word32) (received : Byte) (bs : List Byte) (g d : Nat)
    (gs : List Nat) (l : Level) (ls : List Level) (s : State) : State :=
  { s with
    cmd := commandNumber axis rank.toNat
    tRes := resolveTimeout (rankOf rank) tmo
    t0 := timerCount (s.tau + 1 + g)
    csLvl := .drive .low
    rstLvl := .drive .low
    busIn := bs
    gapIn := gs
    drdyIn := ls
    tau := s.tau + 1 + g + d
    draws := s.draws + 4
    trace := s.trace ++ (triggerEvents (commandNumber axis rank.toNat) received ++
      [.timeSample (timerCount (s.tau + 1 + g)), .drdySample l, .timeSample (timerCount (s.tau + 1 + g + d))]) }

theorem readAxisBody_timedOut {rank : Byte} {s : State} {received : Byte} {bs : List Byte} {g d : Nat}
    {gs : List Nat} {l : Level} {ls : List Level} (axis : Axis) (tmo : Word32) (hk : rankOutOfRange rank = false)
    (hb : s.busIn = received :: bs) (hg : s.gapIn = g :: d :: gs) (hl : s.drdyIn = l :: ls)
    (hne : l ≠ Config.drdyActiveLevel) (hd : (resolveTimeout (rankOf rank) tmo).toNat < d % 2 ^ 32) :
    readAxisBody axis rank tmo s =
      (some (.timeout, 0#16), axisTimedOut axis rank tmo received bs g d gs l ls s) := by
  have e0 : (drawByte s).1 = received := drawByte_of_cons hb
  have eg : (drawGap (triggered axis rank s)).1 = g := drawGap_of_cons (s := triggered axis rank s) hg
  set q := startPoll rank tmo (triggered axis rank s) with hq
  have el : (drawLevel q).1 = l := drawLevel_of_cons (ls := ls) (by simp [hq, startPoll_eq, triggered, hl])
  have ed : (drawGap (pinRead q).2).1 = d :=
    drawGap_of_cons (gs := gs) (by simp [hq, startPoll_eq, triggered, hg])
  have hturn := pollTurn_notReady (s := q) (by rw [el]; exact hne)
  have hpast : pastDeadline (now (pinRead q).2).1 q.t0 q.tRes = true := by
    rw [pastDeadline_iff, now_fst, ed]
    have := elapsed_toNat (s.tau + 1 + g) d
    simp [hq, startPoll_eq, eg]
    rw [this]
    exact hd
  rw [hpast] at hturn
  have hp : axisPoll axis rank tmo s = (some .timeout, (now (pinRead q).2).2) := by
    rw [axisPoll, ← hq, pollLoop_succ_of_some (st := .timeout) _ (by rw [hturn]; rfl), hturn]
  rcases readAxisBody_inRange axis tmo s hk with ⟨h, -⟩ | ⟨-, e⟩ | ⟨h, -⟩
  · rw [hp] at h
    cases h
  · rw [e, hp]
    refine Prod.ext rfl ?_
    ext1 <;> simp [el, ed] <;> simp [hq, startPoll_eq, eg, axisTimedOut] <;> simp [triggered, hb, hg, hl, e0]
  · rw [hp] at h
    cases h

end Sys2Proof.Laws
end

