-- ==== Sys2Proof/Laws/Decode.lean ====
section
/-! SUPPORT. The fields of a request word and of a command byte by number (30_encoding.md R66, R73), and that the rows of
the opcode table do not overlap. -/

namespace Sys2Proof.Laws

theorem reqOp_toNat (w : Word16) : (reqOp w).toNat = w.toNat % 8 := by
  simp [reqOp, BitVec.extractLsb'_toNat]

theorem reqAxis_toNat (w : Word16) : (reqAxis w).toNat = w.toNat / 8 % 4 := by
  simp [reqAxis, BitVec.extractLsb'_toNat, Nat.shiftRight_eq_div_pow]

theorem reqRsv_toNat (w : Word16) : (reqRsv w).toNat = w.toNat / 32 % 8 := by
  simp [reqRsv, BitVec.extractLsb'_toNat, Nat.shiftRight_eq_div_pow]

theorem reqPeriod_toNat (w : Word16) : (reqPeriod w).toNat = w.toNat / 256 := by
  have := w.isLt
  simp [reqPeriod, BitVec.extractLsb'_toNat, Nat.shiftRight_eq_div_pow]
  omega

theorem requestWord_toNat (per : Byte) (ax : BitVec 2) (op : BitVec 3) :
    (requestWord per ax op).toNat = 256 * per.toNat + 8 * ax.toNat + op.toNat := by
  have := per.isLt
  have := ax.isLt
  have := op.isLt
  simp only [requestWord, BitVec.toNat_append]
  rw [← Nat.shiftLeft_add_eq_or_of_lt op.isLt, ← Nat.shiftLeft_add_eq_or_of_lt ax.isLt,
    ← Nat.shiftLeft_add_eq_or_of_lt (BitVec.isLt _)]
  simp only [Nat.shiftLeft_eq, BitVec.toNat_ofNat]
  omega

@[simp] theorem reqOp_requestWord (per : Byte) (ax : BitVec 2) (op : BitVec 3) : reqOp (requestWord per ax op) = op := by
  apply BitVec.eq_of_toNat_eq
  have := op.isLt
  rw [reqOp_toNat, requestWord_toNat]
  omega

@[simp] theorem reqAxis_requestWord (per : Byte) (ax : BitVec 2) (op : BitVec 3) :
    reqAxis (requestWord per ax op) = ax := by
  apply BitVec.eq_of_toNat_eq
  have := ax.isLt
  have := op.isLt
  rw [reqAxis_toNat, requestWord_toNat]
  omega

@[simp] theorem reqRsv_requestWord (per : Byte) (ax : BitVec 2) (op : BitVec 3) :
    reqRsv (requestWord per ax op) = 0#3 := by
  apply BitVec.eq_of_toNat_eq
  have := ax.isLt
  have := op.isLt
  rw [reqRsv_toNat, requestWord_toNat]
  simp
  omega

@[simp] theorem reqPeriod_requestWord (per : Byte) (ax : BitVec 2) (op : BitVec 3) :
    reqPeriod (requestWord per ax op) = per := by
  apply BitVec.eq_of_toNat_eq
  have := ax.isLt
  have := op.isLt
  rw [reqPeriod_toNat, requestWord_toNat]
  omega

/-- A word whose reserved bits are 0 is the word of its fields. -/
theorem requestWord_of_fields {w : Word16} (h : reqRsv w = 0#3) :
    requestWord (reqPeriod w) (reqAxis w) (reqOp w) = w := by
  apply BitVec.eq_of_toNat_eq
  have h' := congrArg BitVec.toNat h
  rw [reqRsv_toNat] at h'
  rw [requestWord_toNat, reqPeriod_toNat, reqAxis_toNat, reqOp_toNat]
  simp at h'
  omega

@[simp] theorem axisField_axisOfField {k : BitVec 2} (h : k ≠ 3#2) : axisField (axisOfField k) = k := by
  revert h
  revert k
  decide

@[simp] theorem axisOfField_axisField (a : Axis) : axisOfField (axisField a) = a := by
  cases a <;> rfl

theorem axisField_ne_three (a : Axis) : axisField a ≠ 3#2 := by
  cases a <;> decide

/-! ### The opcode table -/

/-- A row of spec/opcode_table.json: how many bits it has, its mask and its match. -/
structure TableRow where
  mnemonic : String
  bits : Nat
  mask : Nat
  pattern : Nat
  deriving DecidableEq, Repr

/-- spec/opcode_table.json, row by row. -/
def opcodeTable : List TableRow :=
  [⟨"ENCODE", 16, 0x00E7, 0x0000⟩, ⟨"TRIGGER", 16, 0x00E7, 0x0001⟩, ⟨"AWAIT", 16, 0x00FF, 0x0002⟩,
   ⟨"READ_RESULT", 16, 0xFFFF, 0x0003⟩, ⟨"READ_AXIS", 16, 0x00E7, 0x0004⟩, ⟨"SAMPLE_ALL", 16, 0xFFFF, 0x0005⟩,
   ⟨"INIT", 16, 0xFFFF, 0x0006⟩, ⟨"CMD_X", 8, 0x8F, 0x01⟩, ⟨"CMD_Y", 8, 0x8F, 0x02⟩, ⟨"CMD_Z", 8, 0x8F, 0x03⟩]

/-- Two rows of the same width differ in a bit both fix, so no encoding belongs to two rows. -/
theorem opcodeTable_rows_disjoint :
    opcodeTable.Pairwise fun a b => a.bits ≠ b.bits ∨ a.pattern &&& b.mask ≠ b.pattern &&& a.mask := by
  decide

end Sys2Proof.Laws
end

