-- ==== Sys2Proof/Laws/Exec.lean ====
section
/-! SUPPORT. What each request's meaning can answer, said once: its equation as an admitted body, and its inversion. -/

namespace Sys2Proof.Laws

open Sys2Proof.Machine Sys2Proof.Safety

/-! ### The arms as admitted bodies -/

theorem exec_encode (axis : Axis) (rank : Byte) (s : State) :
    exec (.encode axis rank) s = admitted false s fun s =>
      match encodeCommand axis rank with
      | none => .next (endWith .invalidPeriod s)
      | some c => .next (respond { status := .ok, cmd8 := c } s) := rfl

theorem exec_trigger (axis : Axis) (rank : Byte) (s : State) :
    exec (.trigger axis rank) s = admitted true s fun s =>
      guardPins (triggerDrives rank) s
        (.next (endWith (triggerBody axis rank s).1 (triggerBody axis rank s).2)) := rfl

theorem exec_await (rank : Byte) (tmo : Word32) (s : State) :
    exec (.await rank tmo) s = admitted true s fun s =>
      match awaitBody rank tmo s with
      | (some st, s') => .next (endWith st s')
      | (none, s') => .next (goPhase (.await rank tmo .aSample) s') := by
  show execAwait rank tmo s = _
  unfold execAwait
  congr 1
  funext s
  split <;> simp_all

theorem exec_readResult (s : State) :
    exec .readResult s = admitted true s fun s =>
      guardPins [.cs] s (.next (respond { status := .ok, meas := (readBody s).1 } (readBody s).2)) := rfl

theorem exec_readAxis (axis : Axis) (rank : Byte) (tmo : Word32) (s : State) :
    exec (.readAxis axis rank tmo) s = admitted true s fun s =>
      guardPins (triggerDrives rank) s
        (match readAxisBody axis rank tmo s with
         | (some r, s') => .next (respond (axisResponse r) s')
         | (none, s') => .next (goPhase (.readAxis axis rank tmo (.wait .aSample)) s')) := by
  show execReadAxis axis rank tmo s = _
  unfold execReadAxis
  congr 1
  funext s
  congr 1
  split <;> simp_all

theorem exec_sampleAll (s : State) :
    exec .sampleAll s = admitted true s fun s => guardPins [.cs, .rst] s (.next (sampleFrom axisOrder (openSample s))) := rfl

theorem exec_init (s : State) :
    exec .init s = admitted false s fun s => .next (throwawayRead (bindPins (applyBusCfg s))) := rfl

/-- A command of an axis is the one shared sending operation (30_encoding.md R71). -/
theorem exec_commandInstr (k : Axis) (r : BitVec 4) (s : State) :
    exec (commandInstr k r) s = sendDeviceCommand k r s := by
  cases k <;> rfl

/-- While Unbound the requests that need a Bound block are rejected (70_reset_and_hazards.md R187). -/
theorem exec_needsBound_unbound {s : State} {i : Instr} (hi : s.seq = .idle) (hu : s.bind = .unbound)
    (h : NeedsBound i) : exec i s = .next (reject s) := by
  rcases h with ⟨a, r, rfl⟩ | ⟨r, m, rfl⟩ | rfl | ⟨a, r, m, rfl⟩ | rfl
  · exact (exec_trigger a r s).trans (admitted_unbound hi hu)
  · exact (exec_await r m s).trans (admitted_unbound hi hu)
  · exact (exec_readResult s).trans (admitted_unbound hi hu)
  · exact (exec_readAxis a r m s).trans (admitted_unbound hi hu)
  · exact (exec_sampleAll s).trans (admitted_unbound hi hu)

/-! ### Inversions -/

/-- ENCODE answers the command byte or InvalidPeriod. -/
theorem exec_encode_next {axis : Axis} {rank : Byte} {s t : State} (h : exec (.encode axis rank) s = .next t) :
    s.seq = .idle ∧
      ((rankOutOfRange rank = true ∧ t = endWith .invalidPeriod (accept s)) ∨
       (rankOutOfRange rank = false ∧
         t = respond { status := .ok, cmd8 := commandNumber axis rank.toNat } (accept s))) := by
  rw [exec_encode] at h
  obtain ⟨hi, ⟨hf, -⟩ | ⟨-, h⟩⟩ := admitted_next h
  · cases hf
  · refine ⟨hi, ?_⟩
    cases hk : rankOutOfRange rank
    · rw [encodeCommand_of_inRange axis hk] at h
      cases h
      exact .inr ⟨rfl, rfl⟩
    · rw [(encodeCommand_eq_none_iff axis rank).2 hk] at h
      cases h
      exact .inl ⟨rfl, rfl⟩

/-- TRIGGER is rejected while Unbound, ends with InvalidPeriod, or triggers. -/
theorem exec_trigger_next {axis : Axis} {rank : Byte} {s t : State} (h : exec (.trigger axis rank) s = .next t) :
    s.seq = .idle ∧
      ((s.bind = .unbound ∧ t = reject s) ∨
       (s.bind = .bound ∧ rankOutOfRange rank = true ∧ t = endWith .invalidPeriod (accept s)) ∨
       (s.bind = .bound ∧ rankOutOfRange rank = false ∧ pinsOutput s = true ∧
         t = endWith .ok (triggered axis rank (accept s)))) := by
  rw [exec_trigger] at h
  obtain ⟨hi, ⟨-, hu, e⟩ | ⟨hb, h⟩⟩ := admitted_next h
  · exact ⟨hi, .inl ⟨hu, e⟩⟩
  · refine ⟨hi, .inr ?_⟩
    obtain ⟨hp, h⟩ := guardPins_next h
    cases hk : rankOutOfRange rank
    · rw [triggerBody_inRange axis _ hk] at h
      cases h
      exact .inr ⟨hb rfl, rfl, triggerDrives_all.1 hp hk, rfl⟩
    · rw [triggerBody_outOfRange axis _ hk] at h
      cases h
      exact .inl ⟨hb rfl, rfl, rfl⟩

/-- The poll of an AWAIT, from its acceptance. -/
def awaitPoll (rank : Byte) (tmo : Word32) (s : State) : Option Status × State :=
  pollLoop (s.drdyIn.length - 1 + 1) (startPoll rank tmo (accept s))

/-- AWAIT is rejected while Unbound, ends with InvalidPeriod, or polls: the poll has ended or the block is BUSY at its next
sample. -/
theorem exec_await_next {rank : Byte} {tmo : Word32} {s t : State} (h : exec (.await rank tmo) s = .next t) :
    s.seq = .idle ∧
      ((s.bind = .unbound ∧ t = reject s) ∨
       (s.bind = .bound ∧ rankOutOfRange rank = true ∧ t = endWith .invalidPeriod (accept s)) ∨
       (s.bind = .bound ∧ rankOutOfRange rank = false ∧
         ((∃ st, (awaitPoll rank tmo s).1 = some st ∧ t = endWith st (awaitPoll rank tmo s).2) ∨
          ((awaitPoll rank tmo s).1 = none ∧ t = goPhase (.await rank tmo .aSample) (awaitPoll rank tmo s).2)))) := by
  rw [exec_await] at h
  obtain ⟨hi, ⟨-, hu, e⟩ | ⟨hb, h⟩⟩ := admitted_next h
  · exact ⟨hi, .inl ⟨hu, e⟩⟩
  · refine ⟨hi, .inr ?_⟩
    cases hk : rankOutOfRange rank
    · rw [awaitBody_inRange tmo _ hk] at h
      rw [show pollLoop ((accept s).drdyIn.length - 1 + 1) (startPoll rank tmo (accept s)) = awaitPoll rank tmo s from rfl] at h
      refine .inr ⟨hb rfl, rfl, ?_⟩
      obtain ⟨st, s', hq⟩ : ∃ st s', awaitPoll rank tmo s = (st, s') := ⟨_, _, rfl⟩
      rw [hq] at h ⊢
      cases st with
      | some st => cases h; exact .inl ⟨st, rfl, rfl⟩
      | none => cases h; exact .inr ⟨rfl, rfl⟩
    · rw [awaitBody_outOfRange tmo _ hk] at h
      cases h
      exact .inl ⟨hb rfl, rfl, rfl⟩

/-- READ_RESULT is rejected while Unbound, or reads. -/
theorem exec_readResult_next {s t : State} (h : exec .readResult s = .next t) :
    s.seq = .idle ∧
      ((s.bind = .unbound ∧ t = reject s) ∨
       (s.bind = .bound ∧ s.dirCs = .output ∧
         t = respond { status := .ok, meas := (readBody (accept s)).1 } (readBody (accept s)).2)) := by
  rw [exec_readResult] at h
  obtain ⟨hi, ⟨-, hu, e⟩ | ⟨hb, h⟩⟩ := admitted_next h
  · exact ⟨hi, .inl ⟨hu, e⟩⟩
  · obtain ⟨hp, h⟩ := guardPins_next h
    cases h
    exact ⟨hi, .inr ⟨hb rfl, by simpa [isOutput] using hp, rfl⟩⟩

/-- READ_AXIS is rejected while Unbound, or its body has ended, or its poll goes on. -/
theorem exec_readAxis_next {axis : Axis} {rank : Byte} {tmo : Word32} {s t : State}
    (h : exec (.readAxis axis rank tmo) s = .next t) :
    s.seq = .idle ∧
      ((s.bind = .unbound ∧ t = reject s) ∨
       (s.bind = .bound ∧ (rankOutOfRange rank = false → pinsOutput s = true) ∧
         ((∃ r, (readAxisBody axis rank tmo (accept s)).1 = some r ∧
            t = respond (axisResponse r) (readAxisBody axis rank tmo (accept s)).2) ∨
          ((readAxisBody axis rank tmo (accept s)).1 = none ∧
            t = goPhase (.readAxis axis rank tmo (.wait .aSample)) (readAxisBody axis rank tmo (accept s)).2)))) := by
  rw [exec_readAxis] at h
  obtain ⟨hi, ⟨-, hu, e⟩ | ⟨hb, h⟩⟩ := admitted_next h
  · exact ⟨hi, .inl ⟨hu, e⟩⟩
  · obtain ⟨hp, h⟩ := guardPins_next h
    refine ⟨hi, .inr ⟨hb rfl, triggerDrives_all.1 hp, ?_⟩⟩
    obtain ⟨st, s', hq⟩ : ∃ st s', readAxisBody axis rank tmo (accept s) = (st, s') := ⟨_, _, rfl⟩
    rw [hq] at h ⊢
    cases st with
    | some r => cases h; exact .inl ⟨r, rfl, rfl⟩
    | none => cases h; exact .inr ⟨rfl, rfl⟩

/-- SAMPLE_ALL is rejected while Unbound, or runs its pass. -/
theorem exec_sampleAll_next {s t : State} (h : exec .sampleAll s = .next t) :
    s.seq = .idle ∧
      ((s.bind = .unbound ∧ t = reject s) ∨
       (s.bind = .bound ∧ pinsOutput s = true ∧ t = sampleFrom axisOrder (openSample (accept s)))) := by
  rw [exec_sampleAll] at h
  obtain ⟨hi, ⟨-, hu, e⟩ | ⟨hb, h⟩⟩ := admitted_next h
  · exact ⟨hi, .inl ⟨hu, e⟩⟩
  · obtain ⟨hp, h⟩ := guardPins_next h
    cases h
    exact ⟨hi, .inr ⟨hb rfl, by simpa [pinsOutput, and_comm] using hp, rfl⟩⟩

/-- INIT runs whenever the block is IDLE. -/
theorem exec_init_next {s t : State} (h : exec .init s = .next t) :
    s.seq = .idle ∧ t = throwawayRead (bindPins (applyBusCfg (accept s))) := by
  rw [exec_init] at h
  obtain ⟨hi, ⟨hf, -⟩ | ⟨-, h⟩⟩ := admitted_next h
  · cases hf
  · cases h
    exact ⟨hi, rfl⟩

/-! ### A pass of SAMPLE_ALL and INIT's read -/

/-- A pass at an axis: the axis read has ended and the pass goes on, or its poll goes on and the block is BUSY there. -/
theorem sampleFrom_cons (k : Axis) (ks : List Axis) (s : State) :
    (∃ r, (readAxisBody k samplePeriod useDefault s).1 = some r ∧
      sampleFrom (k :: ks) s = sampleFrom ks (latchAxis k r (readAxisBody k samplePeriod useDefault s).2)) ∨
    ((readAxisBody k samplePeriod useDefault s).1 = none ∧
      sampleFrom (k :: ks) s = goPhase (.sAxis k (.wait .aSample)) (readAxisBody k samplePeriod useDefault s).2) := by
  obtain ⟨st, s', hq⟩ : ∃ st s', readAxisBody k samplePeriod useDefault s = (st, s') := ⟨_, _, rfl⟩
  rw [sampleFrom, hq]
  cases st with
  | some r => exact .inl ⟨r, rfl, rfl⟩
  | none => exact .inr ⟨rfl, rfl⟩

/-- INIT's read has ended, or its poll goes on. -/
theorem throwawayRead_cases (s : State) :
    (∃ r, (readAxisBody initAxis initPeriod useDefault s).1 = some r ∧
      throwawayRead s = respond (initResponse r.1) (readAxisBody initAxis initPeriod useDefault s).2) ∨
    ((readAxisBody initAxis initPeriod useDefault s).1 = none ∧
      throwawayRead s = goPhase (.iRead (.wait .aSample)) (readAxisBody initAxis initPeriod useDefault s).2) := by
  obtain ⟨st, s', hq⟩ : ∃ st s', readAxisBody initAxis initPeriod useDefault s = (st, s') := ⟨_, _, rfl⟩
  rw [throwawayRead, hq]
  cases st with
  | some r => exact .inl ⟨r, rfl, rfl⟩
  | none => exact .inr ⟨rfl, rfl⟩

/-- Binding the pins, by the registers (45_initialization.md R145). -/
theorem bindPins_eq (s : State) :
    bindPins s =
      { s with
        bind := .bound
        dirDrdy := .input
        dirRst := .output
        dirCs := .output
        csLvl := .drive .high
        rstLvl := .drive .low
        trace := s.trace ++ [.pinMode .drdy .input, .pinMode .rst .output, .pinMode .cs .output,
          .pinWrite .cs .high, .pinWrite .rst .low] } := by
  ext1 <;> simp [bindPins]

/-- The start of SAMPLE_ALL, by the registers (44_axis_sequencer.md R127). -/
theorem openSample_eq (s : State) :
    openSample s =
      { s with
        valid := true
        csLvl := .drive .low
        busCfg := some fixedBusConfig
        tau := s.tau + settleUs
        trace := s.trace ++ [.pinWrite .cs .low, .delay settleUs, .busCfg fixedBusConfig] } := by
  ext1 <;> simp [openSample]

end Sys2Proof.Laws
end

