-- ==== Sys2Proof/Laws/PerInstr.lean ====
section
/-! SUPPORT. Per instruction: the encoding of a well-formed instruction has the bits its row of the opcode table fixes. -/

namespace Sys2Proof.Laws.RowBits

/-- The row of spec/opcode_table.json of an instruction. -/
def rowOf : Instr → TableRow
  | .encode _ _ => ⟨"ENCODE", 16, 0x00E7, 0x0000⟩
  | .trigger _ _ => ⟨"TRIGGER", 16, 0x00E7, 0x0001⟩
  | .await _ _ => ⟨"AWAIT", 16, 0x00FF, 0x0002⟩
  | .readResult => ⟨"READ_RESULT", 16, 0xFFFF, 0x0003⟩
  | .readAxis _ _ _ => ⟨"READ_AXIS", 16, 0x00E7, 0x0004⟩
  | .sampleAll => ⟨"SAMPLE_ALL", 16, 0xFFFF, 0x0005⟩
  | .init => ⟨"INIT", 16, 0xFFFF, 0x0006⟩
  | .cmdX _ => ⟨"CMD_X", 8, 0x8F, 0x01⟩
  | .cmdY _ => ⟨"CMD_Y", 8, 0x8F, 0x02⟩
  | .cmdZ _ => ⟨"CMD_Z", 8, 0x8F, 0x03⟩

/-- The row is one of the table's, and the encoding has the row's width and its fixed bits. -/
def Statement (i : Instr) : Prop :=
  rowOf i ∈ opcodeTable ∧
    (WellFormed i = true →
      match encode i with
      | .request r => (rowOf i).bits = 16 ∧ r.word &&& BitVec.ofNat 16 (rowOf i).mask = BitVec.ofNat 16 (rowOf i).pattern
      | .command b => (rowOf i).bits = 8 ∧ b &&& BitVec.ofNat 8 (rowOf i).mask = BitVec.ofNat 8 (rowOf i).pattern)

/-- Under a mask that leaves AXIS and PERIOD out, a request word is that of its operation alone. -/
theorem requestWord_masked (per : Byte) (ax : BitVec 2) (op : BitVec 3) :
    requestWord per ax op &&& 0x00E7#16 = requestWord 0#8 0#2 op := by
  have h : 0x00E7#16 = 0#8 ++ 7#3 ++ 0#2 ++ 7#3 := by decide
  rw [h, requestWord, requestWord, BitVec.and_append, BitVec.and_append, BitVec.and_append]
  simp only [BitVec.and_zero, show (7#3) = BitVec.allOnes 3 from rfl, BitVec.and_allOnes]

/-- Under a mask that leaves PERIOD out, a request word with AXIS = 0 is that of its operation alone. -/
theorem requestWord_masked_noAxis (per : Byte) (op : BitVec 3) :
    requestWord per 0#2 op &&& 0x00FF#16 = requestWord 0#8 0#2 op := by
  have h : 0x00FF#16 = 0#8 ++ 7#3 ++ 3#2 ++ 7#3 := by decide
  rw [h, requestWord, requestWord, BitVec.and_append, BitVec.and_append, BitVec.and_append]
  simp only [BitVec.and_zero, BitVec.zero_and, show (7#3) = BitVec.allOnes 3 from rfl, BitVec.and_allOnes]

theorem encode (axis : Axis) (rank : Byte) : Statement (.encode axis rank) :=
  ⟨by simp [rowOf, opcodeTable], fun _ => ⟨rfl, (requestWord_masked rank (axisField axis) 0#3).trans (by simp only [rowOf]; decide)⟩⟩

theorem trigger (axis : Axis) (rank : Byte) : Statement (.trigger axis rank) :=
  ⟨by simp [rowOf, opcodeTable], fun _ => ⟨rfl, (requestWord_masked rank (axisField axis) 1#3).trans (by simp only [rowOf]; decide)⟩⟩

theorem await (rank : Byte) (tmo : Word32) : Statement (.await rank tmo) :=
  ⟨by simp [rowOf, opcodeTable], fun _ => ⟨rfl, (requestWord_masked_noAxis rank 2#3).trans (by simp only [rowOf]; decide)⟩⟩

theorem readResult : Statement .readResult := ⟨by simp [rowOf, opcodeTable], fun _ => ⟨rfl, by decide⟩⟩

theorem readAxis (axis : Axis) (rank : Byte) (tmo : Word32) : Statement (.readAxis axis rank tmo) :=
  ⟨by simp [rowOf, opcodeTable], fun _ => ⟨rfl, (requestWord_masked rank (axisField axis) 4#3).trans (by simp only [rowOf]; decide)⟩⟩

theorem sampleAll : Statement .sampleAll := ⟨by simp [rowOf, opcodeTable], fun _ => ⟨rfl, by decide⟩⟩

theorem init : Statement .init := ⟨by simp [rowOf, opcodeTable], fun _ => ⟨rfl, by decide⟩⟩

theorem cmdX (rank : BitVec 4) : Statement (.cmdX rank) :=
  ⟨by simp [rowOf, opcodeTable], fun h => ⟨rfl, by revert h; revert rank; decide⟩⟩

theorem cmdY (rank : BitVec 4) : Statement (.cmdY rank) :=
  ⟨by simp [rowOf, opcodeTable], fun h => ⟨rfl, by revert h; revert rank; decide⟩⟩

theorem cmdZ (rank : BitVec 4) : Statement (.cmdZ rank) :=
  ⟨by simp [rowOf, opcodeTable], fun h => ⟨rfl, by revert h; revert rank; decide⟩⟩

end Sys2Proof.Laws.RowBits
end

