-- ==== Sys2Proof/Laws/Phases.lean ====
section
/-! SUPPORT. What a step can do (10_state.md R32, R33), said once: the four cases of a step, the phases of a BUSY block,
and running a part of a request phase by phase. -/

namespace Sys2Proof.Laws

open Sys2Proof.Machine Sys2Proof.Safety

/-! ### Command bytes at T_CMD -/

/-- One of the 24 command bytes decodes to the command of its axis and rank. -/
theorem decodeCommand_legal {b : Byte} (h : LegalCommand b) :
    ∃ k, decodeCommand b = .ok (commandInstr k (b.extractLsb' 4 4)) ∧ commandRankOk (b.extractLsb' 4 4) = true ∧
      commandByte k (b.extractLsb' 4 4) = b := by
  have key : ∀ b : Byte, (b &&& 0x8C#8 = 0#8 ∧ b &&& 0x03#8 ≠ 0#8) → commandRankOk (b.extractLsb' 4 4) = true ∧
      ((decodeCommand b = .ok (.cmdX (b.extractLsb' 4 4)) ∧ commandByte .x (b.extractLsb' 4 4) = b) ∨
       (decodeCommand b = .ok (.cmdY (b.extractLsb' 4 4)) ∧ commandByte .y (b.extractLsb' 4 4) = b) ∨
       (decodeCommand b = .ok (.cmdZ (b.extractLsb' 4 4)) ∧ commandByte .z (b.extractLsb' 4 4) = b)) := by decide
  obtain ⟨hr, ⟨h1, h2⟩ | ⟨h1, h2⟩ | ⟨h1, h2⟩⟩ := key b h
  · exact ⟨.x, h1, hr, h2⟩
  · exact ⟨.y, h1, hr, h2⟩
  · exact ⟨.z, h1, hr, h2⟩

/-- Any other byte is rejected. -/
theorem decodeCommand_illegal {b : Byte} (h : ¬ LegalCommand b) : ∃ e, decodeCommand b = .error e := by
  have key : ∀ b : Byte, ¬ (b &&& 0x8C#8 = 0#8 ∧ b &&& 0x03#8 ≠ 0#8) →
      decodeCommand b = .error .commandRank ∨ decodeCommand b = .error .notACommand := by decide
  rcases key b h with h | h <;> exact ⟨_, h⟩

/-! ### The cases of a step -/

theorem fetch_idle {s : State} {r : HostRequest} {rest : List HostRequest} (hi : s.seq = .idle)
    (hr : s.requests = r :: rest) : fetch s = .code (.request r) { s with requests := rest } := by
  simp [fetch, hi, hr]

/-- At T_CMD a command byte of the block is its phase: decoding it and running it changes nothing of that. -/
theorem step_sends {s : State} {ph : Phase} (hs : s.seq = .busy ph) (hp : sendsCommand ph = true)
    (hl : LegalCommand s.cmd) : step s = phaseStep ph s := by
  obtain ⟨k, h1, h2, h3⟩ := decodeCommand_legal hl
  have : step s = exec (commandInstr k (s.cmd.extractLsb' 4 4)) s := by simp [step, fetch, hs, hp, decode, h1]
  rw [this, exec_commandInstr, sendDeviceCommand, h3, h2]
  change (match s.seq with | .busy ph => if sendsCommand ph then phaseStep ph s else _ | .idle => _) = _
  rw [hs]
  simp [hp]

/-- A BUSY step that meets its conditions is its phase. -/
theorem step_phase {s : State} {ph : Phase} (hs : s.seq = .busy ph) (hl : sendsCommand ph = true → LegalCommand s.cmd)
    (hd : (phaseDrives ph).all (isOutput s) = true) : step s = .next (phaseNext ph s) := by
  rw [← guardPins_of_all (r := .next (phaseNext ph s)) hd]
  cases hp : sendsCommand ph
  · simp [step, fetch, hs, hp]
    rfl
  · exact step_sends hs hp (hl hp)

/-- A BUSY step that answers a next state met its conditions and was its phase. -/
theorem step_busy {s t : State} {ph : Phase} (hs : s.seq = .busy ph) (h : step s = .next t) :
    (phaseDrives ph).all (isOutput s) = true ∧ t = phaseNext ph s := by
  have key : phaseStep ph s = .next t → (phaseDrives ph).all (isOutput s) = true ∧ t = phaseNext ph s := by
    intro h
    obtain ⟨h1, h2⟩ := guardPins_next h
    cases h2
    exact ⟨h1, rfl⟩
  cases hp : sendsCommand ph
  · refine key ?_
    rw [← h]
    simp [step, fetch, hs, hp]
  · by_cases hl : LegalCommand s.cmd
    · exact key (by rw [← h, step_sends hs hp hl])
    · obtain ⟨e, he⟩ := decodeCommand_illegal hl
      simp [step, fetch, hs, hp, decode, he, rejectCode] at h

/-- Every step that answers a next state: nothing to do, a request the decoder rejects, a request, or a phase. -/
theorem step_cases {s t : State} (h : step s = .next t) :
    (s.seq = .idle ∧ s.requests = [] ∧ t = s) ∨
    (∃ r rest, s.seq = .idle ∧ s.requests = r :: rest ∧ (∃ e, decodeRequest r = .error e) ∧
      t = reject { s with requests := rest }) ∨
    (∃ r rest i, s.seq = .idle ∧ s.requests = r :: rest ∧ decodeRequest r = .ok i ∧
      exec i { s with requests := rest } = .next t) ∨
    (∃ ph, s.seq = .busy ph ∧ (phaseDrives ph).all (isOutput s) = true ∧ t = phaseNext ph s) := by
  obtain hs | ⟨ph, hs⟩ : s.seq = .idle ∨ ∃ ph, s.seq = .busy ph := by cases s.seq <;> simp
  · cases hr : s.requests with
    | nil =>
      simp only [step, fetch, hs, hr] at h
      cases h
      exact .inl ⟨hs, rfl, rfl⟩
    | cons r rest =>
      simp only [step, fetch_idle hs hr, decode] at h
      cases hd : decodeRequest r with
      | error e =>
        rw [hd] at h
        cases h
        exact .inr (.inl ⟨r, rest, hs, rfl, ⟨e, hd⟩, rfl⟩)
      | ok i =>
        rw [hd] at h
        exact .inr (.inr (.inl ⟨r, rest, i, hs, rfl, hd, h⟩))
  · exact .inr (.inr (.inr ⟨ph, hs, step_busy hs h⟩))

/-! ### Operations do not read SEQ -/

theorem now_goPhase (ph : Phase) (s : State) : now (goPhase ph s) = ((now s).1, goPhase ph (now s).2) := rfl

theorem pinRead_goPhase (ph : Phase) (s : State) :
    pinRead (goPhase ph s) = ((pinRead s).1, goPhase ph (pinRead s).2) := rfl

theorem goPhase_goPhase (ph ph' : Phase) (s : State) : goPhase ph (goPhase ph' s) = goPhase ph s := rfl

theorem sendCommand_goPhase (ph : Phase) (s : State) : sendCommand (goPhase ph s) = goPhase ph (sendCommand s) := rfl

theorem readHi_goPhase (ph : Phase) (s : State) : readHi (goPhase ph s) = goPhase ph (readHi s) := rfl

theorem readLo_goPhase (ph : Phase) (s : State) : readLo (goPhase ph s) = goPhase ph (readLo s) := rfl

theorem readHi_dirCs (s : State) : (readHi s).dirCs = s.dirCs := rfl

theorem readLo_dirCs (s : State) : (readLo s).dirCs = s.dirCs := rfl

theorem latchAxis_goPhase (k : Axis) (r : Status × Measurement) (ph : Phase) (s : State) :
    latchAxis k r (goPhase ph s) = goPhase ph (latchAxis k r s) := by
  unfold latchAxis
  split <;> cases k <;> rfl

/-! ### The poll's phases -/

/-- A poll's phase adds samples to the trace, never goes back in time, and leaves the pins, the bus configuration, the
host's requests, the sample registers and VALID alone. -/
theorem waitPhase_same (rank : Byte) (tmo : Word32) (p : WaitPhase) (s : State) :
    let s' := (waitPhase rank tmo p s).2
    s'.bind = s.bind ∧ s'.csLvl = s.csLvl ∧ s'.rstLvl = s.rstLvl ∧ s'.dirDrdy = s.dirDrdy ∧ s'.dirRst = s.dirRst ∧
      s'.dirCs = s.dirCs ∧ s'.busCfg = s.busCfg ∧ s'.requests = s.requests ∧ s'.sx = s.sx ∧ s'.sy = s.sy ∧
      s'.sz = s.sz ∧ s'.valid = s.valid ∧ s.tau ≤ s'.tau ∧
      ∃ ev, s'.trace = s.trace ++ ev ∧ ∀ e ∈ ev, isSample e = true := by
  cases p <;> simp only [waitPhase]
  · split <;> simp
  · simp [isSample]
  · split <;> simp [isSample]
  · split <;> simp [isSample]

/-- A step of a block that polls is its phase, whatever the poll belongs to: it sends nothing and drives no pin. -/
theorem step_pollPhase {p : Poll} {w : WaitPhase} {s : State} (hs : s.seq = .busy (pollPhase p w)) :
    step s = .next (phaseNext (pollPhase p w) s) :=
  step_phase hs (by cases p <;> exact nofun) (by cases p <;> rfl)

/-! ### Infinite runs -/

/-- A BUSY block has something to do. -/
theorem fetch_busy {s : State} {ph : Phase} (hs : s.seq = .busy ph) : fetch s ≠ .nothing := by
  rw [fetch, hs]
  dsimp only
  split <;> exact nofun

/-- A run that is BUSY from some point on keeps acting. -/
theorem keepsActing_of_busy {ρ : Nat → State} {k : Nat} (h : ∀ n, k ≤ n → ∃ ph, (ρ n).seq = .busy ph) :
    KeepsActing ρ := fun n =>
  ⟨max n k, le_max_left _ _, fetch_busy (h _ (le_max_right _ _)).choose_spec⟩

/-- A run that waits from some point on does not keep acting. -/
theorem not_keepsActing {ρ : Nat → State} {k : Nat} (h : ∀ n, k ≤ n → fetch (ρ n) = .nothing) : ¬ KeepsActing ρ := by
  intro ha
  obtain ⟨m, hm, hf⟩ := ha k
  exact hf (h m hm)

/-! ### Running phase by phase -/

/-- The second state is reached from the first by phases alone. -/
inductive Reaches : State → State → Prop
  | refl (a : State) : Reaches a a
  | next {s c : State} {ph : Phase} (hs : s.seq = .busy ph) (hl : sendsCommand ph = true → LegalCommand s.cmd)
      (hd : (phaseDrives ph).all (isOutput s) = true) (h : Reaches (phaseNext ph s) c) : Reaches s c

theorem Reaches.trans {a b c : State} (h : Reaches a b) (h' : Reaches b c) : Reaches a c := by
  induction h with
  | refl => exact h'
  | next hs hl hd _ ih => exact .next hs hl hd (ih h')

/-- What phases reach, steps reach. -/
theorem Reaches.run {a b : State} (h : Reaches a b) : ∃ n, Host.Core.run Sys2Proof.core n a = .next b := by
  induction h with
  | refl => exact ⟨0, rfl⟩
  | next hs hl hd _ ih =>
    obtain ⟨n, hn⟩ := ih
    refine ⟨n + 1, ?_⟩
    simp only [Host.Core.run]
    rw [show Sys2Proof.core.step _ = _ from step_phase hs hl hd]
    exact hn

/-- What every phase keeps, running phase by phase keeps. -/
theorem Reaches.keeps {P : State → Prop}
    (hP : ∀ s ph, s.seq = .busy ph → (phaseDrives ph).all (isOutput s) = true → P s → P (phaseNext ph s))
    {a b : State} (h : Reaches a b) : P a → P b := by
  induction h with
  | refl => exact id
  | next hs hl hd _ ih => exact fun h => ih (hP _ _ hs hd h)

theorem Reaches.phase {s c : State} {ph : Phase} (hl : sendsCommand ph = true → LegalCommand s.cmd)
    (hd : (phaseDrives ph).all (isOutput s) = true) (h : Reaches (phaseNext ph (goPhase ph s)) c) :
    Reaches (goPhase ph s) c :=
  .next rfl hl hd h

/-- The phases of a poll, in any request that polls, come to what the loop answers. -/
theorem reach_poll (W : WaitPhase → Phase) (K : Status → State → State) (rank : Byte) (tmo : Word32)
    (hW : ∀ p, sendsCommand (W p) = false ∧ phaseDrives (W p) = [])
    (hN : ∀ p s, phaseNext (W p) s =
      match waitPhase rank tmo p s with
      | (.goto p', s') => goPhase (W p') s'
      | (.done st, s') => K st s')
    (hK : ∀ st ph s, K st (goPhase ph s) = K st s) (n : Nat) (s : State) :
    Reaches (goPhase (W .aSample) s)
      (match pollLoop n s with
       | (some st, s') => K st s'
       | (none, s') => goPhase (W .aSample) s') := by
  induction n generalizing s with
  | zero => exact .refl _
  | succ n ih =>
    refine .phase (by simp [(hW _).1]) (by simp [(hW _).2]) ?_
    rw [hN, waitPhase, pinRead_goPhase]
    by_cases h : (drawLevel s).1 = Config.drdyActiveLevel
    · have ht := pollTurn_ready h
      rw [pollLoop_succ_of_some (st := .ok) n (by rw [ht]), ht, if_pos (by rw [isReady_iff]; exact h)]
      dsimp only
      rw [hK]
      exact .refl _
    · have ht := pollTurn_notReady h
      rw [if_neg (by rw [isReady_iff]; exact h)]
      dsimp only
      rw [goPhase_goPhase]
      refine .phase (by simp [(hW _).1]) (by simp [(hW _).2]) ?_
      rw [hN, waitPhase, now_goPhase]
      have e0 : (goPhase (W .aTime) (now (pinRead s).2).2).t0 = s.t0 := by simp
      have e1 : (goPhase (W .aTime) (now (pinRead s).2).2).tRes = s.tRes := by simp
      dsimp only
      rw [e0, e1]
      cases hp : pastDeadline (now (pinRead s).2).1 s.t0 s.tRes
      · rw [hp] at ht
        rw [pollLoop_succ_of_none n (by rw [ht]; rfl), ht, if_neg (by simp)]
        dsimp only
        rw [goPhase_goPhase]
        exact ih _
      · rw [hp] at ht
        rw [pollLoop_succ_of_some (st := .timeout) n (by rw [ht]; rfl), ht, if_pos rfl]
        dsimp only
        rw [hK]
        exact .refl _

/-- The phases of a poll from its first one come to what its body answers. -/
theorem reach_await (W : WaitPhase → Phase) (K : Status → State → State) (rank : Byte) (tmo : Word32)
    (hW : ∀ p, sendsCommand (W p) = false ∧ phaseDrives (W p) = [])
    (hN : ∀ p s, phaseNext (W p) s =
      match waitPhase rank tmo p s with
      | (.goto p', s') => goPhase (W p') s'
      | (.done st, s') => K st s')
    (hK : ∀ st ph s, K st (goPhase ph s) = K st s) (s : State) :
    Reaches (goPhase (W .aResolve) s)
      (match awaitBody rank tmo s with
       | (some st, s') => K st s'
       | (none, s') => goPhase (W .aSample) s') := by
  refine .phase (by simp [(hW _).1]) (by simp [(hW _).2]) ?_
  rw [hN, waitPhase]
  cases hk : rankOutOfRange rank
  · rw [awaitBody_inRange tmo s hk]
    simp only [Bool.false_eq_true, if_false]
    rw [show ∀ x, goPhase (W .aStart) { goPhase (W .aResolve) s with tRes := x } =
      goPhase (W .aStart) { s with tRes := x } from fun _ => rfl]
    refine .phase (by simp [(hW _).1]) (by simp [(hW _).2]) ?_
    rw [hN, waitPhase]
    exact reach_poll W K rank tmo hW hN hK _ (startPoll rank tmo s)
  · rw [awaitBody_outOfRange tmo s hk]
    simp only [if_true]
    rw [hK]
    exact .refl _

/-- The phases of a trigger come to what its body answers. -/
theorem reach_trig (W : TrigPhase → Phase) (K : Status → State → State) (axis : Axis) (rank : Byte)
    (hW : ∀ p, sendsCommand (W p) = true → p = .tCmd)
    (hN : ∀ p s, phaseNext (W p) s =
      match trigPhase axis rank p s with
      | (.goto p', s') => goPhase (W p') s'
      | (.done st, s') => K st s')
    (hK : ∀ st ph s, K st (goPhase ph s) = K st s) (hc : phaseDrives (W .tCheck) = []) (s : State)
    (hp : rankOutOfRange rank = false → pinsOutput s = true) :
    Reaches (goPhase (W .tCheck) s) (K (triggerBody axis rank s).1 (triggerBody axis rank s).2) := by
  refine .phase (fun h => by cases hW _ h) (by simp [hc]) ?_
  rw [hN, trigPhase, triggerBody]
  cases he : encodeCommand axis rank with
  | none =>
    dsimp only
    rw [hK]
    exact .refl _
  | some c =>
    have hp := hp (encodeCommand_some he).1
    dsimp only
    refine .phase (s := { s with cmd := c }) (fun h => by cases hW _ h) (all_isOutput hp _) ?_
    rw [hN, trigPhase]
    refine .phase (s := pinWrite .cs .low { s with cmd := c }) (fun h => by cases hW _ h) (all_isOutput hp _) ?_
    rw [hN, trigPhase]
    refine .phase (s := pinWrite .rst .high (pinWrite .cs .low { s with cmd := c }))
      (fun h => by cases hW _ h) (all_isOutput hp _) ?_
    rw [hN, trigPhase]
    refine .phase (s := delay resetHoldUs (pinWrite .rst .high (pinWrite .cs .low { s with cmd := c })))
      (fun h => by cases hW _ h) (all_isOutput hp _) ?_
    rw [hN, trigPhase]
    refine .phase (s := resetPulse (pinWrite .cs .low { s with cmd := c })) (fun _ => encodeCommand_legal he)
      (all_isOutput hp _) ?_
    rw [hN, trigPhase]
    dsimp only
    rw [sendCommand_goPhase, hK]
    exact .refl _

/-- The phases of a result read come to what its body answers. -/
theorem reach_read (W : ReadPhase → Phase) (K : Measurement → State → State) (hW : ∀ p, sendsCommand (W p) = false)
    (hD : ∀ p, phaseDrives (W p) = axisDrives (.read p))
    (hN : ∀ p s, phaseNext (W p) s =
      match readPhase p s with
      | (.goto p', s') => goPhase (W p') s'
      | (.done m, s') => K m s')
    (hK : ∀ m ph s, K m (goPhase ph s) = K m s) (s : State) (hp : isOutput s .cs = true) :
    Reaches (goPhase (W .rHi) s) (K (readBody s).1 (readBody s).2) := by
  have h2 : isOutput (readLo (readHi s)) .cs = true := by
    rw [isOutput, readLo_dirCs, readHi_dirCs, ← isOutput]
    exact hp
  refine .phase (fun h => by simp [hW] at h) (by simp [hD, axisDrives]) ?_
  rw [hN, readPhase, readHi_goPhase]
  dsimp only
  rw [goPhase_goPhase]
  refine .phase (fun h => by simp [hW] at h) (by simp [hD, axisDrives]) ?_
  rw [hN, readPhase, readLo_goPhase]
  dsimp only
  rw [goPhase_goPhase]
  refine .phase (fun h => by simp [hW] at h) (by simp [hD, axisDrives, h2]) ?_
  rw [hN, readPhase]
  dsimp only
  rw [← hK (readBody s).1 (W .rDesel) (readBody s).2]
  exact .refl _

/-- The phases of a single-axis read, in any request that holds one, come to what its body answers. -/
theorem reach_axis (W : AxisPhase → Phase) (K : Status × Measurement → State → State) (axis : Axis) (rank : Byte)
    (tmo : Word32) (hS : ∀ p, sendsCommand (W p) = axisSends p) (hD : ∀ p, phaseDrives (W p) = axisDrives p)
    (hN : ∀ p s, phaseNext (W p) s =
      match axisPhase axis rank tmo p s with
      | (.goto p', s') => goPhase (W p') s'
      | (.done r, s') => K r s')
    (hK : ∀ r ph s, K r (goPhase ph s) = K r s) (s : State) (hp : rankOutOfRange rank = false → pinsOutput s = true) :
    Reaches (goPhase (W (.trig .tCheck)) s)
      (match readAxisBody axis rank tmo s with
       | (some r, s') => K r s'
       | (none, s') => goPhase (W (.wait .aSample)) s') := by
  have h1 := reach_trig (fun p => W (.trig p))
    (fun st s => match st with
      | .ok => goPhase (W (.wait .aResolve)) s
      | e => K (e, 0#16) s) axis rank
    (by intro p h; rw [hS] at h; cases p <;> simp [axisSends] at h ⊢)
    (by
      intro p s
      rw [hN]
      simp only [axisPhase]
      obtain ⟨o, s', h⟩ : ∃ o s', trigPhase axis rank p s = (o, s') := ⟨_, _, rfl⟩
      rw [h]
      rcases o with p' | e
      · rfl
      · cases e <;> rfl)
    (by intro st ph s; cases st <;> first | rfl | exact hK _ _ _) (by simp [hD, axisDrives]) s hp
  refine h1.trans ?_
  cases hk : rankOutOfRange rank
  · rw [triggerBody_inRange _ _ hk]
    dsimp only
    have h2 := reach_await (fun p => W (.wait p))
      (fun st s => match st with
        | .ok => goPhase (W (.read .rHi)) s
        | e => K (e, 0#16) s) rank tmo
      (by intro p; rw [hS, hD]; cases p <;> simp [axisSends, axisDrives])
      (by
        intro p s
        rw [hN]
        simp only [axisPhase]
        obtain ⟨o, s', h⟩ : ∃ o s', waitPhase rank tmo p s = (o, s') := ⟨_, _, rfl⟩
        rw [h]
        rcases o with p' | e
        · rfl
        · cases e <;> rfl)
      (by intro st ph s; cases st <;> first | rfl | exact hK _ _ _) (triggered axis rank s)
    refine h2.trans ?_
    rw [readAxisBody, triggerBody_inRange _ _ hk]
    dsimp only
    have hpo : pinsOutput (awaitBody rank tmo (triggered axis rank s)).2 = true := by
      rw [awaitBody_inRange _ _ hk]
      have := hp hk
      rw [pinsOutput_iff] at this ⊢
      simpa [startPoll_eq, triggered] using this
    obtain ⟨st, s2, hq⟩ : ∃ st s2, awaitBody rank tmo (triggered axis rank s) = (st, s2) := ⟨_, _, rfl⟩
    rw [hq] at hpo ⊢
    rcases st with _ | st
    · exact .refl _
    · cases st
      · exact reach_read (fun p => W (.read p)) (fun m s => K (.ok, m) s) (by intro p; rw [hS]; cases p <;> rfl) (fun _ => hD _)
          (by
            intro p s
            rw [hN]
            simp only [axisPhase]
            obtain ⟨o, s', h⟩ : ∃ o s', readPhase p s = (o, s') := ⟨_, _, rfl⟩
            rw [h]
            rcases o with p' | e <;> rfl)
          (fun _ _ _ => hK _ _ _) s2 (by simpa using all_isOutput hpo [.cs])
      all_goals exact .refl _
  · rw [readAxisBody_outOfRange _ _ _ hk, triggerBody_outOfRange _ _ hk]
    exact .refl _

end Sys2Proof.Laws
end

