-- ==== Sys2Proof/Tests/Slice0.lean ====
section
/-! SUPPORT. Tests on the spec's own vectors (95_test_vectors.md), the WellFormed smoke test, and for every statement with
hypotheses a witness that meets them. -/

namespace Sys2Proof.Tests

open Sys2Proof Sys2Proof.Machine Sys2Proof.Safety Sys2Proof.Laws

/-! ### WellFormed smoke (30_encoding.md R70) -/

theorem test_illFormed_cmdX : WellFormed (.cmdX 8#4) = false := by decide

theorem test_illFormed_cmdY : WellFormed (.cmdY 8#4) = false := by decide

theorem test_illFormed_cmdZ : WellFormed (.cmdZ 15#4) = false := by decide

/-! ### Decoding, bit by bit (30_encoding.md R66, R73, R81): PERIOD RSV AXIS OP -/

theorem test_decode_encode : decodeTableWord 16 0b00000011_000_00_000 = some (.encode .x 3#8) := by decide

theorem test_decode_trigger : decodeTableWord 16 0b00000101_000_01_001 = some (.trigger .y 5#8) := by decide

theorem test_decode_await : decodeTableWord 16 0b00000101_000_00_010 = some (.await 5#8 0#32) := by decide

theorem test_decode_readResult : decodeTableWord 16 0b00000000_000_00_011 = some .readResult := by decide

theorem test_decode_readAxis : decodeTableWord 16 0b00001001_000_10_100 = some (.readAxis .z 9#8 0#32) := by decide

theorem test_decode_sampleAll : decodeTableWord 16 0b00000000_000_00_101 = some .sampleAll := by decide

theorem test_decode_init : decodeTableWord 16 0b00000000_000_00_110 = some .init := by decide

theorem test_decode_cmdX : decodeTableWord 8 0b0111_0001 = some (.cmdX 7#4) := by decide

theorem test_decode_cmdY : decodeTableWord 8 0b0101_0010 = some (.cmdY 5#4) := by decide

theorem test_decode_cmdZ : decodeTableWord 8 0b0010_0011 = some (.cmdZ 2#4) := by decide

/-- P1: READ_AXIS Y, 2, 1500 is word 0x020C with TIMEOUT_US 1500. -/
theorem test_decode_timeout : decode (.request ⟨0x020C#16, 1500#32⟩) = .ok (.readAxis .y 2#8 1500#32) := by decide

/-- V26 to V32 and V39, in the order of the checks of 30_encoding.md R80. -/
theorem test_decode_rejects :
    decode (.request ⟨0x0007#16, 0#32⟩) = .error .opReserved ∧ decode (.request ⟨0x0020#16, 0#32⟩) = .error .rsvNonzero ∧
    decode (.request ⟨0x0018#16, 0#32⟩) = .error .axisNone ∧ decode (.request ⟨0x001C#16, 0#32⟩) = .error .axisNone ∧
    decode (.request ⟨0x000A#16, 0#32⟩) = .error .axisUnused ∧
    decode (.request ⟨0x0103#16, 0#32⟩) = .error .periodUnused ∧
    decode (.request ⟨0x0005#16, 5#32⟩) = .error .timeoutUnused ∧
    decode (.request ⟨0x0000#16, 1#32⟩) = .error .timeoutUnused := by decide

/-- Bytes the block never emits: 0x00, 0x04, 0x81 (30_encoding.md R70). -/
theorem test_decode_command_rejects :
    decode (.command 0x00#8) = .error .notACommand ∧ decode (.command 0x04#8) = .error .notACommand ∧
    decode (.command 0x81#8) = .error .commandRank := by decide

/-! ### Small states -/

/-- The level that is not DRDY_ACTIVE_LEVEL. -/
def idleLevel : Level :=
  match Config.drdyActiveLevel with
  | .low => .high
  | .high => .low

theorem idleLevel_ne : idleLevel ≠ Config.drdyActiveLevel := by
  unfold idleLevel
  cases Config.drdyActiveLevel <;> decide

/-- A block as INIT leaves it, its timer at 0. -/
def booted : State :=
  { State.reset with
    bind := .bound, dirDrdy := .input, dirRst := .output, dirCs := .output, csLvl := .drive .high,
    rstLvl := .drive .low, busCfg := some fixedBusConfig, tau := 0 }

/-- The same with the agents' answers lined up. -/
def answers (ls : List Level) (bs : List Byte) (gs : List Nat) : State :=
  { booted with drdyIn := ls, busIn := bs, gapIn := gs }

/-- The same with a request in progress. -/
def inPhase (ph : Phase) (s : State) : State := { s with seq := .busy ph, csLvl := .drive .low }

/-- The host's request at the front. -/
def asks (r : HostRequest) (s : State) : State := { s with requests := [r] }

/-- Whether a step's answer is a next state with a property. -/
def Answers (P : State → Prop) (r : Result) : Prop := ∃ t, r = .next t ∧ P t

theorem booted_ready : Ready booted := ⟨rfl, rfl, rfl⟩

theorem answers_ready (ls : List Level) (bs : List Byte) (gs : List Nat) : Ready (answers ls bs gs) := ⟨rfl, rfl, rfl⟩

theorem booted_inv : Inv booted :=
  ⟨.inr rfl, fun _ => ⟨rfl, rfl, rfl, by decide, by decide, rfl⟩, fun _ => rfl, fun h => by cases h⟩

/-! ### Encoder (V1, V2) -/

theorem test_encode_z7 :
    exec (.encode .z 7#8) State.reset = .next { State.reset with response := some { status := .ok, cmd8 := 0x73#8 } } := rfl

theorem test_encode_z16 :
    exec (.encode .z 16#8) State.reset = .next { State.reset with response := some { status := .invalidPeriod } } := rfl

/-! ### Trigger (V3, V3a) -/

theorem test_trigger_y5 : Answers (fun t =>
    t.trace = [.pinWrite .cs .low, .pinWrite .rst .high, .delay 1, .pinWrite .rst .low, .xfer 0x52#8 0x99#8] ∧
    t.response = some { status := .ok } ∧ t.csLvl = .drive .low ∧ t.rstLvl = .drive .low)
    (exec (.trigger .y 5#8) (answers [] [0x99#8] [])) := ⟨_, rfl, rfl, rfl, rfl, rfl⟩

theorem test_trigger_z8 : Answers (fun t => t.trace = [] ∧ t.response = some { status := .invalidPeriod } ∧
    t.csLvl = .drive .high ∧ t.cmd = booted.cmd) (exec (.trigger .z 8#8) booted) := ⟨_, rfl, rfl, rfl, rfl, rfl⟩

/-! ### Timeouts and composition (V4, V5, V15) -/

theorem test_resolveTimeout : resolveTimeout 3#3 0#32 = 4001#32 ∧ resolveTimeout 7#3 10#32 = 10#32 ∧
    resolveTimeout 0#3 100000#32 = 100000#32 := by decide

theorem test_compose : asS16 (compose 0x12#8 0x34#8) = 4660 ∧ asS16 (compose 0xFF#8 0xFF#8) = -1 ∧
    asS16 (compose 0x80#8 0x00#8) = -32768 ∧ asS16 (compose 0x7F#8 0xFF#8) = 32767 ∧
    asS16 (compose 0xAB#8 0xCD#8) = -21555 := by decide

/-! ### Result read (V16) -/

theorem test_readResult : Answers (fun t =>
    t.trace = [.xfer 0x00#8 0x12#8, .xfer 0x00#8 0x34#8, .pinWrite .cs .high] ∧
    t.response = some { status := .ok, meas := 0x1234#16 } ∧ t.csLvl = .drive .high)
    (exec .readResult (answers [] [0x12#8, 0x34#8] [])) := ⟨_, rfl, rfl, rfl, rfl⟩

/-! ### Poll (V7, V9) -/

/-- V9: T0 is 0xFFFFFF00; 255 and 501 us later the poll continues across the wrap, 502 us later it has timed out. -/
def v9 : State := answers [idleLevel, idleLevel, idleLevel] [] [0xFFFFFF00, 255, 246, 1]

theorem test_await_v9 : Answers (fun t =>
    t.trace = [.timeSample 0xFFFFFF00#32, .drdySample idleLevel, .timeSample 0xFFFFFFFF#32, .drdySample idleLevel,
      .timeSample 0x000000F5#32, .drdySample idleLevel, .timeSample 0x000000F6#32] ∧
    t.response = some { status := .timeout } ∧ t.csLvl = .drive .high) (exec (.await 0#8 0#32) v9) := by
  rw [exec_await, admitted_of_idle rfl (fun _ => rfl), awaitBody_inRange _ _ (by decide)]
  have h := pollLoop_waits [idleLevel, idleLevel] [255, 246] [idleLevel] [1] (startPoll 0#8 0#32 (accept v9)) 1 0 rfl
    rfl rfl (by simp [NoneReady, idleLevel_ne]) rfl (Nat.zero_le _) (by intro k hk; have hk : k ≤ 2 := hk; interval_cases k <;> decide)
  rw [show pollLoop ((accept v9).drdyIn.length - 1 + 1) (startPoll 0#8 0#32 (accept v9)) =
    pollLoop ([idleLevel, idleLevel].length + 1) (startPoll 0#8 0#32 (accept v9)) from rfl, h]
  have h2 := pollTurn_seesNotReady (s := { startPoll 0#8 0#32 (accept v9) with
        drdyIn := [idleLevel]
        gapIn := [1]
        tau := (startPoll 0#8 0#32 (accept v9)).tau + [255, 246].sum
        draws := (startPoll 0#8 0#32 (accept v9)).draws + 2 * [255, 246].length
        trace := (startPoll 0#8 0#32 (accept v9)).trace ++
          turnEvents (startPoll 0#8 0#32 (accept v9)).tau [idleLevel, idleLevel] [255, 246] }) rfl rfl idleLevel_ne
  rw [pollLoop_succ_of_some (st := .timeout) _ (by rw [h2]; rfl), h2]
  exact ⟨_, rfl, rfl, rfl, rfl⟩

/-- V8: 501 us after T0 the poll still continues, and the next sample is ready. -/
theorem test_await_v8 : Answers (fun t =>
    t.trace = [.timeSample 1000#32, .drdySample idleLevel, .timeSample 1501#32, .drdySample Config.drdyActiveLevel] ∧
    t.response = some { status := .ok } ∧ t.tRes = 501#32)
    (exec (.await 0#8 0#32) (answers [idleLevel, Config.drdyActiveLevel] [] [1000, 501])) := by
  rw [exec_await, admitted_of_idle rfl (fun _ => rfl), awaitBody_inRange _ _ (by decide)]
  set q := startPoll 0#8 0#32 (accept (answers [idleLevel, Config.drdyActiveLevel] [] [1000, 501])) with hq
  have h := pollLoop_waits [idleLevel] [501] [Config.drdyActiveLevel] [] q 1 0 rfl rfl rfl
    (by simp [NoneReady, idleLevel_ne]) rfl (Nat.zero_le _)
    (by intro k hk; have hk : k ≤ 1 := hk; interval_cases k <;> decide)
  have e : (accept (answers [idleLevel, Config.drdyActiveLevel] [] [1000, 501])).drdyIn.length - 1 + 1 =
    [idleLevel].length + 1 := rfl
  rw [e, h,
    pollLoop_succ_of_some (st := .ok) _ (by rw [pollTurn_seesReady rfl]), pollTurn_seesReady rfl]
  exact ⟨_, rfl, rfl, rfl, rfl⟩

/-! ### Single-axis read (V18, V19) -/

theorem test_readAxis_v18 : Answers (fun t =>
    t.trace = [.pinWrite .cs .low, .pinWrite .rst .high, .delay 1, .pinWrite .rst .low, .xfer 0x01#8 0x77#8,
      .timeSample 300#32, .drdySample Config.drdyActiveLevel, .xfer 0x00#8 0x00#8, .xfer 0x00#8 0x2A#8,
      .pinWrite .cs .high] ∧
    t.response = some { status := .ok, meas := 42#16 } ∧ t.csLvl = .drive .high)
    (exec (.readAxis .x 0#8 0#32) (answers [Config.drdyActiveLevel] [0x77#8, 0x00#8, 0x2A#8] [299])) := by
  rw [exec_readAxis, admitted_of_idle rfl (fun _ => rfl), guardPins_of_output rfl,
    readAxisBody_ready .x 0#32 (by decide) rfl rfl rfl]
  exact ⟨_, rfl, rfl, rfl, rfl⟩

/-- V19's end: the deadline is passed at a timer sample, nothing is read, CS stays low. -/
theorem test_readAxis_timesOut : Answers (fun t =>
    t.trace = [.pinWrite .cs .low, .pinWrite .rst .high, .delay 1, .pinWrite .rst .low, .xfer 0x02#8 0x77#8,
      .timeSample 0#32, .drdySample idleLevel, .timeSample 502#32] ∧
    t.response = some { status := .timeout } ∧ t.csLvl = .drive .low ∧ t.seq = .idle)
    (exec (.readAxis .y 0#8 0#32) (answers [idleLevel] [0x77#8] [4294967295, 502])) := by
  rw [exec_readAxis, admitted_of_idle rfl (fun _ => rfl), guardPins_of_output rfl,
    readAxisBody_timedOut .y 0#32 (by decide) rfl rfl rfl idleLevel_ne (by decide)]
  exact ⟨_, rfl, rfl, rfl, rfl, rfl⟩

/-! ### Full sample (V21, W6) -/

/-- V21: every axis ready at its first sample. -/
def v21 : State :=
  answers [Config.drdyActiveLevel, Config.drdyActiveLevel, Config.drdyActiveLevel]
    [0x77#8, 0x00#8, 0x01#8, 0x77#8, 0xFF#8, 0xFE#8, 0x77#8, 0x7F#8, 0xFF#8] [10, 10, 10]

theorem test_sampleAll_v21 : Answers (fun t =>
    t.response = some { status := .ok, x := 1#16, y := 0xFFFE#16, z := 32767#16, valid := true } ∧
    t.csLvl = .drive .high ∧ t.seq = .idle ∧ (resultBytesOf t.trace).length = 6) (exec .sampleAll v21) := by
  rw [exec_sampleAll, admitted_of_idle rfl (fun _ => rfl), guardPins_of_output rfl, axisOrder, sampleFrom,
    readAxisBody_ready .x useDefault (by decide) rfl rfl rfl]
  dsimp only
  rw [sampleFrom, readAxisBody_ready .y useDefault (by decide) rfl rfl rfl]
  dsimp only
  rw [sampleFrom, readAxisBody_ready .z useDefault (by decide) rfl rfl rfl]
  exact ⟨_, rfl, rfl, rfl, rfl, rfl⟩

/-- W6: X times out, Y and Z are read. -/
def w6 : State :=
  answers [idleLevel, Config.drdyActiveLevel, Config.drdyActiveLevel]
    [0x77#8, 0x77#8, 0x12#8, 0x34#8, 0x77#8, 0xFF#8, 0xFF#8] [10, 502, 10, 10]

theorem test_sampleAll_w6 : Answers (fun t =>
    t.response = some { status := .ok, x := 0#16, y := 4660#16, z := 0xFFFF#16, valid := false } ∧
    t.valid = false ∧ t.seq = .idle ∧ commandsOf t.trace = [0x01#8, 0x02#8, 0x03#8]) (exec .sampleAll w6) := by
  rw [exec_sampleAll, admitted_of_idle rfl (fun _ => rfl), guardPins_of_output rfl, axisOrder, sampleFrom,
    readAxisBody_timedOut .x useDefault (by decide) rfl rfl rfl idleLevel_ne (by decide)]
  dsimp only
  rw [sampleFrom, readAxisBody_ready .y useDefault (by decide) rfl rfl rfl]
  dsimp only
  rw [sampleFrom, readAxisBody_ready .z useDefault (by decide) rfl rfl rfl]
  exact ⟨_, rfl, rfl, rfl, rfl, rfl⟩

/-! ### Initialization (V24, V25) -/

/-- V24: INIT from reset with the answers lined up. -/
def v24 : State :=
  { State.reset with drdyIn := [Config.drdyActiveLevel], busIn := [0x77#8, 0x80#8, 0x00#8], gapIn := [99] }

theorem test_init_v24 : Answers (fun t =>
    t.response = some { status := .ok, success := true } ∧ t.bind = .bound ∧ t.csLvl = .drive .high ∧
    t.dirDrdy = .input ∧ t.trace.take 6 = initEvents) (exec .init v24) := by
  rw [exec_init, admitted_of_idle rfl (fun h => by cases h), throwawayRead,
    readAxisBody_ready initAxis useDefault (by decide) rfl rfl rfl]
  exact ⟨_, rfl, rfl, rfl, rfl, rfl, rfl⟩

theorem test_init_v25 : Answers (fun t =>
    t.response = some { status := .timeout, success := false } ∧ t.bind = .bound ∧ t.csLvl = .drive .low)
    (exec .init { State.reset with drdyIn := [idleLevel], busIn := [0x77#8], gapIn := [99, 502] }) := by
  rw [exec_init, admitted_of_idle rfl (fun h => by cases h), throwawayRead,
    readAxisBody_timedOut initAxis useDefault (by decide) rfl rfl rfl idleLevel_ne (by decide)]
  exact ⟨_, rfl, rfl, rfl, rfl⟩

/-! ### Device command bytes (30_encoding.md R71; V3a, V3b, P2) -/

theorem test_cmdX : Answers (fun t => t.trace = [.xfer 0x71#8 0x77#8] ∧ t.response = some { status := .ok } ∧ t.seq = .idle)
    (exec (.cmdX 7#4) (inPhase (.trigger .x 7#8 .tCmd) (answers [] [0x77#8] []))) := ⟨_, rfl, rfl, rfl, rfl⟩

theorem test_cmdY : Answers (fun t => t.trace = [.xfer 0x52#8 0x77#8] ∧ t.cmd = 0x52#8)
    (exec (.cmdY 5#4) (answers [] [0x77#8] [])) := ⟨_, rfl, rfl, rfl⟩

theorem test_cmdZ : Answers (fun t => t.trace = [.xfer 0x03#8 0x77#8] ∧ t.seq = .busy (.sAxis .z (.wait .aResolve)))
    (exec (.cmdZ 0#4) (inPhase (.sAxis .z (.trig .tCmd)) (answers [] [0x77#8] []))) := ⟨_, rfl, rfl, rfl⟩

theorem test_cmdX_rank8 : exec (.cmdX 8#4) booted = .refused .illegalCommandByte := rfl

/-! ### Steps and rejection (V32 to V36) -/

theorem test_step_v33 : Answers (fun t => t.response = some { status := .rejected } ∧ t.trace = [] ∧ t.bind = .unbound)
    (step (asks ⟨0x0001#16, 0#32⟩ State.reset)) := ⟨_, rfl, rfl, rfl, rfl⟩

theorem test_step_v35 : Answers (fun t => t.response = some { status := .ok, cmd8 := 0x01#8 } ∧ t.requests = [])
    (step (asks ⟨0x0000#16, 0#32⟩ State.reset)) := ⟨_, rfl, rfl, rfl⟩

/-- The first step after a request word is placed runs that request. -/
theorem test_placed_request : Answers (fun t => t.response = some { status := .ok } ∧ t.cmd = 0x52#8)
    (step (State.reset.withFetchWord 16 0x0509)) := ⟨_, rfl, rfl, rfl⟩

/-- The first step after a command byte is placed sends it and ends the TRIGGER it belongs to. -/
theorem test_placed_command : Answers (fun t =>
    t.response = some { status := .ok } ∧ commandsOf t.trace = [0x52#8] ∧ t.seq = .idle)
    (step (State.reset.withFetchWord 8 0x52)) := ⟨_, rfl, rfl, rfl, rfl⟩

/-! ### Witnesses: states and operands that meet a statement's hypotheses, clause by clause -/

theorem witness_DecodeOfEncode : WellFormed (.readAxis .z 255#8 0xFFFFFFFF#32) = true ∧ WellFormed (.cmdZ 7#4) = true := by
  decide

theorem witness_EncodeOfDecode : decode (.request ⟨0xFF14#16, 0xFFFFFFFF#32⟩) = .ok (.readAxis .z 255#8 0xFFFFFFFF#32) ∧
    decode (.command 0x73#8) = .ok (.cmdZ 7#4) := by decide

/-- V26 to V34 and V39: each reason to reject, in a state with the request waiting. -/
theorem witness_RejectedRequestChangesNothing :
    (asks ⟨0x0007#16, 0#32⟩ booted).seq = .idle ∧ RequestRejected ⟨0x0007#16, 0#32⟩ booted.bind ∧
    RequestRejected ⟨0x0020#16, 0#32⟩ .bound ∧ RequestRejected ⟨0x0018#16, 0#32⟩ .bound ∧
    RequestRejected ⟨0x000A#16, 0#32⟩ .bound ∧ RequestRejected ⟨0x0103#16, 0#32⟩ .bound ∧
    RequestRejected ⟨0x001C#16, 0#32⟩ .bound ∧
    RequestRejected ⟨0x0005#16, 5#32⟩ .bound ∧ RequestRejected ⟨0x0000#16, 1#32⟩ .unbound ∧
    RequestRejected ⟨0x0001#16, 0#32⟩ State.reset.bind ∧ RequestRejected ⟨0x0005#16, 0#32⟩ State.reset.bind := by
  refine ⟨rfl, ?_, ?_, ?_, ?_, ?_, ?_, ?_, ?_, ?_, ?_⟩ <;> simp only [RequestRejected] <;> decide

/-- V35 to V38: requests that are admitted. -/
theorem witness_OtherRequestsAreAdmitted :
    ¬ RequestRejected ⟨0x0000#16, 0#32⟩ State.reset.bind ∧ ¬ RequestRejected ⟨0x0006#16, 0#32⟩ State.reset.bind ∧
    ¬ RequestRejected ⟨0xFF00#16, 0#32⟩ .bound ∧ ¬ RequestRejected ⟨0x0004#16, 0xFFFFFFFF#32⟩ .bound ∧
    (asks ⟨0x0000#16, 0#32⟩ State.reset).seq = .idle ∧
    Answers (fun t => t.response = some { status := .ok, cmd8 := 0x01#8 }) (step (asks ⟨0x0000#16, 0#32⟩ State.reset)) := by
  refine ⟨?_, ?_, ?_, ?_, rfl, _, rfl, rfl⟩ <;> simp only [RequestRejected] <;> decide

theorem witness_StepRunsDecoded :
    ((asks ⟨0x0003#16, 0#32⟩ booted).seq = .idle ∧ decodeRequest ⟨0x0003#16, 0#32⟩ = .ok .readResult) ∧
    (sendsCommand (.iRead (.trig .tCmd)) = true ∧ decodeCommand 0x01#8 = .ok (.cmdX 0#4)) ∧
    sendsCommand (.await 0#8 0#32 .aSample) = false := ⟨⟨rfl, rfl⟩, ⟨rfl, rfl⟩, rfl⟩

theorem witness_IdleBlockWaits : State.reset.seq = .idle ∧ State.reset.requests = [] := ⟨rfl, rfl⟩

/-- Both sides of the range check. -/
theorem witness_EncoderNibbles : (7#8 : Byte).toNat ≤ 7 ∧ 8 ≤ (8#8 : Byte).toNat ∧ 8 ≤ (255#8 : Byte).toNat ∧
    booted.seq = .idle ∧ booted.bind = .bound := by
  refine ⟨by decide, by decide, by decide, rfl, rfl⟩

theorem witness_EmittedCommandBytes : encodeCommand .z 7#8 = some 0x73#8 ∧ encodeCommand .x 0#8 = some 0x01#8 := by decide

theorem witness_EncodeCompletes : State.reset.seq = .idle ∧ (7#8 : Byte).toNat ≤ 7 := ⟨rfl, by decide⟩

theorem witness_InvalidPeriodExactly :
    (booted.seq = .idle ∧ booted.bind = .bound ∧ 8 ≤ (8#8 : Byte).toNat) ∧
    Answers (fun t => t.response = some { status := .ok, cmd8 := 0x73#8 }) (exec (.encode .z 7#8) booted) :=
  ⟨⟨rfl, rfl, by decide⟩, _, rfl, rfl⟩

theorem witness_CommandByteEndsTrigger :
    (inPhase (.trigger .x 7#8 .tCmd) booted).seq = .busy (.trigger .x 7#8 .tCmd) ∧ (7#4 : BitVec 4).toNat ≤ 7 :=
  ⟨rfl, by decide⟩

theorem witness_CommandByteLeadsToPoll :
    (inPhase (.readAxis .y 2#8 1500#32 (.trig .tCmd)) booted).seq = .busy (.readAxis .y 2#8 1500#32 (.trig .tCmd)) ∧
    (inPhase (.sAxis .z (.trig .tCmd)) booted).seq = .busy (.sAxis .z (.trig .tCmd)) ∧
    (inPhase (.iRead (.trig .tCmd)) booted).seq = .busy (.iRead (.trig .tCmd)) ∧ (0#4 : BitVec 4).toNat ≤ 7 :=
  ⟨rfl, rfl, rfl, by decide⟩

theorem witness_CommandByteAlone :
    (∀ ph, booted.seq = .busy ph → sendsCommand ph = false) ∧
    (∀ ph, (inPhase (.await 0#8 0#32 .aTime) booted).seq = .busy ph → sendsCommand ph = false) := by
  refine ⟨fun ph h => (by cases h), fun ph h => (by cases h; rfl)⟩

theorem witness_IllegalCommandRefused :
    8 ≤ (8#4 : BitVec 4).toNat ∧ sendsCommand (.trigger .x 0#8 .tCmd) = true ∧
    (inPhase (.trigger .x 0#8 .tCmd) booted).cmd = 0x00#8 ∧ ¬ LegalCommand 0x00#8 ∧ ¬ LegalCommand 0x80#8 := by
  refine ⟨by decide, rfl, rfl, ?_, ?_⟩ <;> unfold LegalCommand <;> decide

theorem witness_TriggerCompletes : Ready booted ∧ (0#8 : Byte).toNat ≤ 7 ∧ (7#8 : Byte).toNat ≤ 7 :=
  ⟨booted_ready, by decide, by decide⟩

/-- A TRIGGER at T_CMD, its select and pulse behind it. -/
def atCommand : State :=
  { inPhase (.trigger .y 5#8 .tCmd) booted with cmd := 0x52#8, trace := armEvents }

theorem atCommand_inv : Inv atCommand :=
  ⟨.inr rfl, fun _ => ⟨rfl, rfl, rfl, by decide, by decide, rfl⟩, ⟨rfl, by decide, rfl, rfl⟩⟩

theorem witness_CommandsFollowResetPulse :
    Inv atCommand ∧ ArmedSoFar atCommand ∧ Answers (fun t => t.seq = .idle) (step atCommand) := by
  refine ⟨atCommand_inv, ⟨?_, ?_⟩, _, rfl, rfl⟩
  · intro before out inp after h
    have hm : Event.xfer out inp ∈ atCommand.trace := by rw [h]; simp
    simp [atCommand, armEvents] at hm
  · intro ph p h hp
    cases h
    cases hp
    exact ⟨[], rfl⟩

theorem witness_TrafficStaysLegal :
    Inv atCommand ∧ LegalTraffic atCommand.trace ∧ Answers (fun t => commandsOf t.trace = [0x52#8]) (step atCommand) := by
  refine ⟨atCommand_inv, ?_, _, rfl, rfl⟩
  intro out inp hm
  simp [atCommand, armEvents] at hm

theorem witness_TimeoutResolution : (1#32 : Word32) ≠ 0#32 ∧ (0xFFFFFFFF#32 : Word32) ≠ 0#32 := by decide

/-- A wrap between the samples, and a difference of 2^32. -/
theorem witness_ElapsedIsModular : (0xFFFFFF00 : Nat) ≤ 0x1000000F5 ∧ 0x1000000F5 - 0xFFFFFF00 < 2 ^ 32 ∧
    (0 : Nat) ≤ 2 ^ 32 ∧ ¬ (2 ^ 32 - 0 < 2 ^ 32) := by decide

/-- V8: one not-ready sample with the elapsed time equal to T_RES, then the ready one. -/
theorem witness_AwaitCompletesReady :
    let s := answers [idleLevel, Config.drdyActiveLevel] [] [1000, 501]
    s.seq = .idle ∧ s.bind = .bound ∧ (0#8 : Byte).toNat ≤ 7 ∧
    s.drdyIn = [idleLevel] ++ Config.drdyActiveLevel :: [] ∧ s.gapIn = 1000 :: ([501] ++ []) ∧
    NoneReady [idleLevel] ∧ WithinDeadline (resolveTimeout (rankOf 0#8) 0#32) [501] := by
  refine ⟨rfl, rfl, by decide, rfl, rfl, by simp [NoneReady, idleLevel_ne], ?_⟩
  intro k hk
  have hk : k ≤ 1 := hk
  interval_cases k <;> decide

/-- V9: elapsed 255 and 501 within T_RES, across the wrap, then 502. -/
theorem witness_AwaitTimesOut :
    v9.seq = .idle ∧ v9.bind = .bound ∧ (0#8 : Byte).toNat ≤ 7 ∧
    v9.drdyIn = [idleLevel, idleLevel] ++ idleLevel :: [] ∧ v9.gapIn = 0xFFFFFF00 :: ([255, 246] ++ 1 :: []) ∧
    NoneReady [idleLevel, idleLevel] ∧ idleLevel ≠ Config.drdyActiveLevel ∧
    WithinDeadline (resolveTimeout (rankOf 0#8) 0#32) [255, 246] ∧
    (resolveTimeout (rankOf 0#8) 0#32).toNat < ([255, 246].sum + 1) % 2 ^ 32 := by
  refine ⟨rfl, rfl, by decide, rfl, rfl, by simp [NoneReady, idleLevel_ne], idleLevel_ne, ?_, by decide⟩
  intro k hk
  have hk : k ≤ 2 := hk
  interval_cases k <;> decide

/-- The three outcomes: V8 ends with OK, V9 with Timeout, and with one inactive level lined up and 400 us passed the poll
goes on. -/
theorem witness_AwaitOutcomes :
    (booted.seq = .idle ∧ booted.bind = .bound ∧ (7#8 : Byte).toNat ≤ 7) ∧
    Answers (fun t => t.response = some { status := .ok })
      (exec (.await 0#8 0#32) (answers [idleLevel, Config.drdyActiveLevel] [] [1000, 501])) ∧
    Answers (fun t => t.response = some { status := .timeout }) (exec (.await 0#8 0#32) v9) ∧
    Answers (fun t => t.seq = .busy (.await 0#8 0#32 .aSample) ∧ t.response = none ∧ t.t0 = 7#32 ∧
        t.trace = [.timeSample 7#32, .drdySample idleLevel, .timeSample 407#32])
      (exec (.await 0#8 0#32) (answers [idleLevel] [] [7, 400])) := by
  obtain ⟨t, h, -, hr, -⟩ := test_await_v8
  obtain ⟨t', h', -, hr', -⟩ := test_await_v9
  refine ⟨⟨rfl, rfl, by decide⟩, ⟨t, h, hr⟩, ⟨t', h', hr'⟩, ?_⟩
  rw [exec_await, admitted_of_idle rfl (fun _ => rfl), awaitBody_inRange _ _ (by decide)]
  have h := pollLoop_waits [idleLevel] [400] [] [] (startPoll 0#8 0#32 (accept (answers [idleLevel] [] [7, 400]))) 0 0 rfl
    rfl rfl (by simp [NoneReady, idleLevel_ne]) rfl (Nat.zero_le _)
    (by intro k hk; have hk : k ≤ 1 := hk; interval_cases k <;> decide)
  rw [show pollLoop ((accept (answers [idleLevel] [] [7, 400])).drdyIn.length - 1 + 1) = pollLoop ([idleLevel].length + 0)
    from rfl, h, pollLoop_zero]
  exact ⟨_, rfl, rfl, rfl, rfl, rfl⟩

/-- The answers of AWAIT that the frame speaks about, OK and Timeout. -/
theorem witness_AwaitFrame : v9.bind = .bound ∧ Answers (fun t => t.seq = .idle) (exec (.await 0#8 0#32) v9) ∧
    Answers (fun t => t.response = some { status := .invalidPeriod }) (exec (.await 8#8 1000#32) v9) := by
  obtain ⟨t, h, -, hr, -⟩ := test_await_v9
  obtain ⟨-, h'⟩ := exec_await_next h
  refine ⟨rfl, ⟨t, h, ?_⟩, _, rfl, rfl⟩
  rcases h' with ⟨hu, -⟩ | ⟨-, -, rfl⟩ | ⟨-, -, ⟨st, -, rfl⟩ | ⟨-, rfl⟩⟩
  · cases hu
  · rfl
  · rfl
  · simp [awaitPoll, startPoll_eq] at hr

/-- In each of the four polls: a turn that sees ready, one that does not, a timer sample at T_RES and one past it. -/
theorem witness_PollTurnOrder : ∀ p : Poll,
    let sampling (l : Level) := inPhase (pollPhase p .aSample) (answers [l] [] [])
    let timing (g : Nat) := { inPhase (pollPhase p .aTime) (answers [] [] [g]) with tRes := 501#32 }
    (sampling idleLevel).seq = .busy (pollPhase p .aSample) ∧
    (drawLevel (sampling Config.drdyActiveLevel)).1 = Config.drdyActiveLevel ∧
    (drawLevel (sampling idleLevel)).1 ≠ Config.drdyActiveLevel ∧
    (timing 501).seq = .busy (pollPhase p .aTime) ∧
    (timing 502).tRes.toNat < (BitVec.ofNat 32 ((timing 502).tau + (drawGap (timing 502)).1) - (timing 502).t0).toNat ∧
    (BitVec.ofNat 32 ((timing 501).tau + (drawGap (timing 501)).1) - (timing 501).t0).toNat ≤ (timing 501).tRes.toNat :=
  fun _ => ⟨rfl, rfl, idleLevel_ne, rfl, by simp [inPhase, answers, booted, State.reset, drawGap],
    by simp [inPhase, answers, booted, State.reset, drawGap]⟩

theorem witness_LargestTimeoutNeverExpires :
    (∃ t, exec (.await 0#8 0xFFFFFFFF#32) booted = .next t) ∧
    (∃ t, exec (.readAxis .y 0#8 0xFFFFFFFF#32) booted = .next t) ∧
    (∀ p : Poll, let s := { inPhase (pollPhase p .aTime) (answers [] [] [5]) with tRes := 0xFFFFFFFF#32 }
     s.seq = .busy (pollPhase p .aTime) ∧ ∃ t, step s = .next t) := by
  refine ⟨⟨_, rfl⟩, ⟨_, rfl⟩, fun p => ⟨rfl, _, step_phase rfl ?_ ?_⟩⟩
  · cases p <;> exact fun h => by cases h
  · cases p <;> rfl

/-- Gaps of at most 400 us with T_RES 501: the time passed exceeds T_RES at the second; for a BUSY poll 300 us in, too. -/
theorem witness_PollEndsInTime :
    (let s := answers [idleLevel, idleLevel] [] [7, 400, 400]
     Ready s ∧ s.gapIn = 7 :: ([400, 400] ++ []) ∧ [400, 400].length ≤ max 1 s.drdyIn.length ∧
     (∀ d ∈ [400, 400], d ≤ 400) ∧ (resolveTimeout (rankOf 0#8) 0#32).toNat + 400 ≤ 0xFFFFFFFF ∧
     (resolveTimeout (rankOf 0#8) 0#32).toNat < [400, 400].sum) ∧
    ∀ p : Poll, let s := { inPhase (pollPhase p .aSample) (answers [] [] [400]) with tRes := 501#32, tau := 1300, t0 := 1000#32 }
     s.seq = .busy (pollPhase p .aSample) ∧ 300 ≤ s.tau ∧ s.t0 = timerCount (s.tau - 300) ∧ 300 ≤ s.tRes.toNat ∧
     s.gapIn = [400] ++ [] ∧ (∀ d ∈ [400], d ≤ 400) ∧ s.tRes.toNat + 400 ≤ 0xFFFFFFFF ∧ s.tRes.toNat < 300 + [400].sum :=
  ⟨⟨answers_ready _ _ _, rfl, by decide, by decide, by decide, by decide⟩,
    fun _ => ⟨rfl, by simp, by simp [timerCount], by simp, rfl, by decide, by simp, by simp⟩⟩

/-- An AWAIT at A_SAMPLE whose level is inactive and whose next timer sample is 502 us after T0. -/
def lateAwait : State := { inPhase (.await 0#8 0#32 .aSample) (answers [idleLevel] [] [502]) with tRes := 501#32 }

/-- Its run: the sample, the timer sample past the deadline, then waiting. -/
def lateRun : Nat → State
  | 0 => lateAwait
  | 1 => goPhase (.await 0#8 0#32 .aTime) (pinRead lateAwait).2
  | _ + 2 => endWith .timeout (now (pinRead lateAwait).2).2

theorem witness_PollEndsAsTimePasses :
    let p := Poll.ofAwait 0#8 0#32
    IsRun lateRun ∧ TimePasses lateRun ∧
    ((lateRun 0).seq = .busy (pollPhase p .aSample) ∧ 0 ≤ (lateRun 0).tau ∧
      (lateRun 0).t0 = timerCount ((lateRun 0).tau - 0) ∧ 0 ≤ (lateRun 0).tRes.toNat) ∧
    (lateRun 1).seq = .busy (pollPhase p .aTime) ∧
    (∀ n, (lateRun n).seq = .busy (pollPhase p .aTime) → (drawGap (lateRun n)).1 ≤ 502) ∧
    (lateRun 0).tRes.toNat + 502 ≤ 0xFFFFFFFF := by
  refine ⟨?_, fun h => absurd h (not_keepsActing (k := 2) ?_), ⟨rfl, Nat.zero_le _, rfl, Nat.zero_le _⟩, rfl, ?_, by decide⟩
  · intro n
    match n with
    | 0 =>
      rw [step_pollPhase (p := .ofAwait 0#8 0#32) (w := .aSample) rfl]
      refine congrArg Host.Outcome.next ?_
      rw [pollPhase, phaseNext, lateRun, waitPhase, if_neg]
      · rfl
      · rw [isReady_iff]
        exact idleLevel_ne
    | 1 =>
      rw [step_pollPhase (p := .ofAwait 0#8 0#32) (w := .aTime) rfl]
      refine congrArg Host.Outcome.next ?_
      rw [pollPhase, phaseNext, waitPhase, if_pos (by decide)]
      rfl
    | _ + 2 => rfl
  · intro n hn
    match n with
    | n + 2 => rfl
  · intro n h
    match n with
    | 0 => cases h
    | 1 => exact le_rfl
    | _ + 2 => cases h

/-- As INIT leaves the pins, and with CHIP-SELECT alone an output. -/
theorem witness_ReadResultCompletes :
    (let s := answers [] [0x12#8, 0x34#8] []
     s.seq = .idle ∧ s.bind = .bound ∧ s.dirCs = .output ∧ s.busIn = 0x12#8 :: 0x34#8 :: []) ∧
    (let s := { answers [] [0x12#8, 0x34#8] [] with dirRst := .unset }
     s.seq = .idle ∧ s.bind = .bound ∧ s.dirCs = .output ∧ s.busIn = 0x12#8 :: 0x34#8 :: []) :=
  ⟨⟨rfl, rfl, rfl, rfl⟩, rfl, rfl, rfl, rfl⟩

theorem witness_ReadResultOfAnyBytes : booted.seq = .idle ∧ booted.bind = .bound ∧ booted.dirCs = .output :=
  ⟨rfl, rfl, rfl⟩

theorem witness_ReadAxisCompletes :
    let s := answers [Config.drdyActiveLevel] [0x77#8, 0x00#8, 0x2A#8] [299]
    Ready s ∧ (7#8 : Byte).toNat ≤ 7 ∧ s.busIn = 0x77#8 :: 0x00#8 :: 0x2A#8 :: [] ∧ s.gapIn = 299 :: [] ∧
    s.drdyIn = Config.drdyActiveLevel :: [] := ⟨answers_ready _ _ _, by decide, rfl, rfl, rfl⟩

/-- P4, requests 1 to 3, each on the state the one before leaves. -/
theorem witness_ReadAxisIsThreeRequests :
    ∃ s1 s2 s3, exec (.trigger .y 5#8) (answers [Config.drdyActiveLevel] [0x77#8, 0x01#8, 0x00#8] [20000]) = .next s1 ∧
      s1.response = some { status := .ok } ∧ exec (.await 5#8 0#32) s1 = .next s2 ∧
      s2.response = some { status := .ok } ∧ exec .readResult s2 = .next s3 ∧
      s3.response = some { status := .ok, meas := 256#16 } := by
  refine ⟨_, { startPoll 5#8 0#32 (accept (endWith .ok (triggerBody .y 5#8 (accept
      (answers [Config.drdyActiveLevel] [0x77#8, 0x01#8, 0x00#8] [20000]))).2)) with
        drdyIn := []
        draws := 3
        trace := [.timeSample 20001#32, .drdySample Config.drdyActiveLevel]
        response := some { status := .ok } }, _, rfl, rfl, ?_, rfl, rfl, rfl⟩
  change exec (.await 5#8 0#32) (endWith .ok (triggerBody .y 5#8 (accept
    (answers [Config.drdyActiveLevel] [0x77#8, 0x01#8, 0x00#8] [20000]))).2) = _
  rw [exec_await, admitted_of_idle rfl (fun _ => rfl), awaitBody_inRange _ _ (by decide),
    pollLoop_succ_of_some (st := .ok) _ (by rw [pollTurn_seesReady rfl]), pollTurn_seesReady rfl]
  rfl

theorem witness_ReadAxisTimesOut :
    let s := answers [idleLevel] [0x77#8] [4294967295, 502]
    Ready s ∧ (0#8 : Byte).toNat ≤ 7 ∧ s.busIn = 0x77#8 :: [] ∧ s.gapIn = 4294967295 :: 502 :: [] ∧
    s.drdyIn = idleLevel :: [] ∧ idleLevel ≠ Config.drdyActiveLevel ∧
    (resolveTimeout (rankOf 0#8) 0#32).toNat < 502 % 2 ^ 32 :=
  ⟨answers_ready _ _ _, by decide, rfl, rfl, rfl, idleLevel_ne, by decide⟩

/-- Both failures: a Timeout, and rank 9 (V17). -/
theorem witness_FailedReadAxisChipSelect :
    booted.bind = .bound ∧
    Answers (fun t => ∃ r, t.response = some r ∧ r.status = .timeout)
      (exec (.readAxis .y 0#8 0#32) (answers [idleLevel] [0x77#8] [4294967295, 502])) ∧
    Answers (fun t => ∃ r, t.response = some r ∧ r.status = .invalidPeriod) (exec (.readAxis .z 9#8 0#32) booted) := by
  obtain ⟨t, h, -, hr, -⟩ := test_readAxis_timesOut
  exact ⟨rfl, ⟨t, h, _, hr, rfl⟩, _, rfl, _, rfl, rfl⟩

theorem witness_ReadAxisDuration :
    Answers (fun t => ∃ r, t.response = some r ∧ r.status = .ok)
      (exec (.readAxis .x 0#8 0#32) (answers [Config.drdyActiveLevel] [0x77#8, 0x00#8, 0x2A#8] [299])) ∧
    Answers (fun t => ∃ r, t.response = some r ∧ r.status = .timeout)
      (exec (.readAxis .y 0#8 0#32) (answers [idleLevel] [0x77#8] [4294967295, 502])) := by
  obtain ⟨t, h, -, hr, -⟩ := test_readAxis_v18
  obtain ⟨t', h', -, hr', -⟩ := test_readAxis_timesOut
  exact ⟨⟨t, h, _, hr, rfl⟩, t', h', _, hr', rfl⟩

theorem witness_ReadAxisFrame :
    Answers (fun t => t.csLvl = .drive .high)
      (exec (.readAxis .x 0#8 0#32) (answers [Config.drdyActiveLevel] [0x77#8, 0x00#8, 0x2A#8] [299])) := by
  obtain ⟨t, h, -, -, hc⟩ := test_readAxis_v18
  exact ⟨t, h, hc⟩

theorem witness_SampleAllCompletes :
    Ready v21 ∧ v21.busIn = 0x77#8 :: 0x00#8 :: 0x01#8 :: 0x77#8 :: 0xFF#8 :: 0xFE#8 :: 0x77#8 :: 0x7F#8 :: 0xFF#8 :: [] ∧
    v21.gapIn = 10 :: 10 :: 10 :: [] ∧
    v21.drdyIn = Config.drdyActiveLevel :: Config.drdyActiveLevel :: Config.drdyActiveLevel :: [] :=
  ⟨answers_ready _ _ _, rfl, rfl, rfl⟩

theorem witness_SampleAllSurvivesTimeoutOfX :
    Ready w6 ∧ w6.busIn = 0x77#8 :: 0x77#8 :: 0x12#8 :: 0x34#8 :: 0x77#8 :: 0xFF#8 :: 0xFF#8 :: [] ∧
    w6.gapIn = 10 :: 502 :: 10 :: 10 :: [] ∧ idleLevel ≠ Config.drdyActiveLevel ∧
    w6.drdyIn = idleLevel :: Config.drdyActiveLevel :: Config.drdyActiveLevel :: [] ∧ 501 < 502 % 2 ^ 32 :=
  ⟨answers_ready _ _ _, rfl, rfl, idleLevel_ne, rfl, by decide⟩

theorem witness_EveryAxisAttemptedOnce :
    w6.bind = .bound ∧ Answers (fun t => t.seq = .idle) (exec .sampleAll w6) := by
  obtain ⟨t, h, -, -, hs, -⟩ := test_sampleAll_w6
  exact ⟨rfl, t, h, hs⟩

/-- A pass with VALID 1 and one with VALID 0. -/
theorem witness_ValidExactlyWhenAllRead :
    Answers (fun t => t.seq = .idle ∧ (resultBytesOf t.trace).length = 6) (exec .sampleAll v21) ∧
    Answers (fun t => t.seq = .idle ∧ t.valid = false) (exec .sampleAll w6) := by
  obtain ⟨t, h, -, -, hs, hr⟩ := test_sampleAll_v21
  obtain ⟨t', h', -, hv, hs', -⟩ := test_sampleAll_w6
  exact ⟨⟨t, h, hs, hr⟩, t', h', hs', hv⟩

theorem witness_SampleAllLatchesEachAxis :
    v21.bind = .bound ∧ Answers (fun t => t.seq = .idle) (exec .sampleAll v21) := by
  obtain ⟨t, h, -, -, hs, -⟩ := test_sampleAll_v21
  exact ⟨rfl, t, h, hs⟩

theorem witness_SampleAllFrame : w6.bind = .bound ∧ ∃ t, exec .sampleAll w6 = .next t := by
  obtain ⟨t, h, -⟩ := test_sampleAll_w6
  exact ⟨rfl, t, h⟩

/-- V22: every axis times out, so that no result byte is transferred. -/
theorem witness_SampleAllDuration :
    Answers (fun t => t.seq = .idle ∧ resultBytesOf t.trace = [] ∧
        t.response = some { status := .ok } ∧ t.csLvl = .drive .high)
      (exec .sampleAll (answers [idleLevel, idleLevel, idleLevel] [0x77#8, 0x77#8, 0x77#8] [10, 502, 10, 502, 10, 502])) := by
  rw [exec_sampleAll, admitted_of_idle rfl (fun _ => rfl), guardPins_of_output rfl, axisOrder, sampleFrom,
    readAxisBody_timedOut .x useDefault (by decide) rfl rfl rfl idleLevel_ne (by decide)]
  dsimp only
  rw [sampleFrom, readAxisBody_timedOut .y useDefault (by decide) rfl rfl rfl idleLevel_ne (by decide)]
  dsimp only
  rw [sampleFrom, readAxisBody_timedOut .z useDefault (by decide) rfl rfl rfl idleLevel_ne (by decide)]
  exact ⟨_, rfl, rfl, rfl, rfl, rfl⟩

theorem witness_InitCompletes :
    v24.seq = .idle ∧ v24.busIn = 0x77#8 :: 0x80#8 :: 0x00#8 :: [] ∧ v24.gapIn = 99 :: [] ∧
    v24.drdyIn = Config.drdyActiveLevel :: [] := ⟨rfl, rfl, rfl, rfl⟩

theorem witness_InitOutcomes : State.reset.seq = .idle ∧ booted.seq = .idle := ⟨rfl, rfl⟩

theorem witness_UnboundAdmitsEncodeAndInit :
    State.reset.seq = .idle ∧ State.reset.bind = .unbound ∧ NeedsBound .sampleAll ∧ NeedsBound (.trigger .x 0#8) :=
  ⟨rfl, rfl, by simp [NeedsBound], by simp [NeedsBound]⟩

/-- A step of the invariant in the middle of a request, and one from reset. -/
theorem witness_StepKeepsInvariant :
    (Inv atCommand ∧ ∃ t, step atCommand = .next t) ∧ (Inv booted ∧ ∃ t, step booted = .next t) :=
  ⟨⟨atCommand_inv, _, rfl⟩, booted_inv, _, rfl⟩

theorem witness_StepNeverStops : Inv booted ∧ Inv atCommand := ⟨booted_inv, atCommand_inv⟩

/-- The steps of an INIT from reset: the request, and the last bind phase, where BIND changes. -/
theorem witness_OnlyInitBinds :
    Answers (fun t => t.bind = .bound) (step (asks ⟨0x0006#16, 0#32⟩ v24)) ∧
    Answers (fun t => t.bind ≠ State.reset.bind)
      (step { State.reset with seq := .busy (.iBind .bRstLo), dirRst := .output, dirCs := .output }) ∧
    State.reset.seq = .idle ∧ State.reset.bind = .unbound ∧ NeedsBound .readResult := by
  obtain ⟨t, h, -, hb, -⟩ := test_init_v24
  exact ⟨⟨t, h, hb⟩, ⟨_, rfl, by decide⟩, rfl, rfl, by simp [NeedsBound]⟩

theorem witness_OnlyInitSetsDirections :
    Answers (fun t => t.dirDrdy = .input) (step { State.reset with seq := .busy (.iBind .bDirDrdy) }) ∧
    Answers (fun t => t.dirDrdy = .unset) (step State.reset) := ⟨⟨_, rfl, rfl⟩, _, rfl, rfl⟩

theorem witness_OnlyInitAndSampleConfigureBus :
    Answers (fun t => t.busCfg ≠ State.reset.busCfg) (step { State.reset with seq := .busy .iCfg }) ∧
    Answers (fun t => t.busCfg ≠ none) (step { inPhase .sCfg booted with busCfg := none }) := by
  refine ⟨⟨_, rfl, ?_⟩, _, rfl, ?_⟩
  · intro h
    cases h
  · intro h
    cases h

theorem witness_OnlySampleAllWritesSamples :
    (∃ t, step atCommand = .next t) ∧ ¬ RunsSampleAll atCommand ∧ ¬ RunsSampleAll State.reset := by
  refine ⟨⟨_, rfl⟩, fun h => h, ?_⟩
  rintro ⟨r, rest, h, -⟩
  cases h

theorem witness_BusyAcceptsNoRequest :
    atCommand.seq = .busy (.trigger .y 5#8 .tCmd) ∧ (∃ t, step (asks ⟨0x0003#16, 0#32⟩ atCommand) = .next t) ∧
    IsRequest .readResult ∧ IsRequest .init := ⟨rfl, ⟨_, rfl⟩, by simp [IsRequest, NeedsBound], by simp [IsRequest]⟩

theorem witness_TimeOnlyAdvances : ∃ t, step (inPhase .sSettle booted) = .next t := ⟨_, rfl⟩

/-- A phase that drives RESET with RESET alone no output, the same for CHIP-SELECT, phases that go on there, requests of a
block with either alone no output, and a phase of the invariant. -/
theorem witness_PinWritesNeedOutputs :
    (let noRst := { booted with dirRst := .unset }
     let noCs := { booted with dirCs := .input }
     OutPin.rst ∈ phaseDrives (.sAxis .x (.trig .tRstHi)) ∧ isOutput noRst .rst = false ∧
     OutPin.cs ∈ phaseDrives .sSel ∧ isOutput noCs .cs = false ∧
     (∀ p ∈ phaseDrives .sSel, isOutput noRst p = true) ∧ (∀ p ∈ phaseDrives .sCfg, isOutput State.reset p = true) ∧
     noRst.seq = .idle ∧ noRst.bind = .bound ∧ noRst.dirRst ≠ .output ∧ noRst.dirCs = .output ∧
     noCs.seq = .idle ∧ noCs.bind = .bound ∧ noCs.dirCs ≠ .output ∧ noCs.dirRst = .output ∧ (7#8 : Byte).toNat ≤ 7) ∧
    (let s := { atCommand with seq := .busy (.trigger .y 5#8 .tRstHi) }
     Inv s ∧ s.seq = .busy (.trigger .y 5#8 .tRstHi) ∧ OutPin.rst ∈ phaseDrives (.trigger .y 5#8 .tRstHi)) := by
  refine ⟨?_, ⟨.inr rfl, fun _ => ⟨rfl, rfl, rfl, by decide, by decide, rfl⟩, ⟨rfl, by decide, rfl, rfl⟩⟩, rfl, by decide⟩
  refine ⟨by decide, rfl, by decide, rfl, ?_, ?_, rfl, rfl, nofun, rfl, rfl, rfl, nofun, rfl, by decide⟩
  · simp [phaseDrives, isOutput, booted]
  · simp [phaseDrives]

theorem witness_PhasesReachTheWholeRequest :
    firstPhase .sampleAll = some .sInit ∧ w6.seq = .idle ∧ w6.bind = .bound ∧ (∃ t, exec .sampleAll w6 = .next t) ∧
    firstPhase .init = some .iCfg ∧ v24.bind = .unbound ∧ ∃ t, exec .init v24 = .next t := by
  obtain ⟨t, h, -⟩ := test_sampleAll_w6
  obtain ⟨t', h', -⟩ := test_init_v24
  exact ⟨rfl, rfl, rfl, ⟨t, h⟩, rfl, rfl, t', h'⟩

end Sys2Proof.Tests
end

