-- ==== Sys2Proof/Proofs/RequestPhases.lean ====
section
/-! What stands after reset, what a step runs, and that a request's meaning is its phases in a row (10_state.md R32, R33,
R37). -/

namespace Sys2Proof.Proofs

open Sys2Proof.Machine Sys2Proof.Safety Sys2Proof.Laws

/-! ### The state after reset and where a step finds its instruction -/

/-- Settles O47: State.reset holds them. -/
theorem resetValues : Obligations.ResetValues := ⟨rfl, rfl, rfl, rfl, rfl, rfl, rfl, rfl, rfl⟩

/-- Settles O49: after reset no bus is configured, the block is Unbound and nothing is touched. -/
theorem resetMeetsInvariant : Obligations.ResetMeetsInvariant where
  busFixed := .inl rfl
  boundPins := nofun
  seqOk := ⟨nofun, fun _ => ⟨rfl, rfl, rfl, rfl, rfl, rfl⟩⟩

theorem step_request {s : State} {r : HostRequest} {rest : List HostRequest} {i : Instr} (hi : s.seq = .idle)
    (hr : s.requests = r :: rest) (hd : decodeRequest r = .ok i) : step s = exec i { s with requests := rest } := by
  simp [step, fetch_idle hi hr, decode, hd]

theorem step_command {s : State} {ph : Phase} {i : Instr} (hs : s.seq = .busy ph) (hp : sendsCommand ph = true)
    (hd : decodeCommand s.cmd = .ok i) : step s = exec i s := by
  simp [step, fetch, hs, hp, decode, hd]

theorem step_otherPhase {s : State} {ph : Phase} (hs : s.seq = .busy ph) (hp : sendsCommand ph = false) :
    step s = phaseStep ph s := by
  simp [step, fetch, hs, hp]

/-- Settles O7: the three kinds of fetching that give something to run. -/
theorem stepRunsDecoded : Obligations.StepRunsDecoded :=
  ⟨fun _ _ _ _ => step_request, fun _ _ _ => step_command, fun _ _ => step_otherPhase⟩

/-- The decoder of requests gives host requests only: no command byte comes from the host (30_encoding.md R74). -/
theorem decodeRequest_isRequest {r : HostRequest} {i : Instr} (h : decodeRequest r = .ok i) : IsRequest i := by
  have hop : ∀ op axis per tmo, IsRequest (instrOfOp op axis per tmo) := by
    intro op axis per tmo
    unfold instrOfOp
    repeat' split
    all_goals simp [IsRequest, NeedsBound]
  unfold decodeRequest at h
  dsimp only at h
  repeat' split at h
  all_goals cases h
  exact hop _ _ _ _

/-! ### A request's meaning is its phases in a row -/

/-- The first phase of the rest of a pass, with these axes still to be read (44_axis_sequencer.md R127). -/
def passPhase : List Axis → Phase
  | [] => .sDesel
  | k :: _ => .sAxis k (.trig .tCheck)

/-- The phases of the axes `ks` and of the final deselect come to what `sampleFrom` answers. -/
def PassReaches (ks : List Axis) : Prop :=
  ∀ s, pinsOutput s = true → Reaches (goPhase (passPhase ks) s) (sampleFrom ks s)

theorem passReaches_nil : PassReaches [] := fun s hp =>
  .phase (by exact nofun) (all_isOutput hp _) (.refl _)

theorem passReaches_cons {k : Axis} {ks : List Axis} (hk : afterAxis k = passPhase ks) (ih : PassReaches ks) :
    PassReaches (k :: ks) := by
  intro s hp
  have h := reach_axis (fun p => .sAxis k p) (fun r s => goPhase (afterAxis k) (latchAxis k r s)) k samplePeriod useDefault
    (fun _ => rfl) (fun _ => rfl) (fun _ _ => rfl)
    (fun r ph s => by rw [latchAxis_goPhase, goPhase_goPhase]) s (fun _ => hp)
  rcases sampleFrom_cons k ks s with ⟨r, hr, e⟩ | ⟨hr, e⟩
  · rw [show readAxisBody k samplePeriod useDefault s = (some r, (readAxisBody k samplePeriod useDefault s).2) from
      Prod.ext hr rfl] at h
    rw [e]
    refine h.trans ?_
    rw [hk]
    exact ih _ (by rw [pinsOutput_iff] at hp ⊢; simpa using hp)
  · rw [show readAxisBody k samplePeriod useDefault s = (none, (readAxisBody k samplePeriod useDefault s).2) from
      Prod.ext hr rfl] at h
    rw [e]
    exact h

theorem passReaches_axisOrder : PassReaches axisOrder :=
  passReaches_cons rfl (passReaches_cons rfl (passReaches_cons rfl passReaches_nil))

theorem reach_sampleAll {s : State} (hp : pinsOutput s = true) :
    Reaches (goPhase .sInit s) (sampleFrom axisOrder (openSample s)) := by
  refine .phase (by exact nofun) rfl ?_
  refine .phase (s := startValid s) (by exact nofun) (all_isOutput hp _) ?_
  refine .phase (s := pinWrite .cs .low (startValid s)) (by exact nofun) rfl ?_
  refine .phase (s := delay settleUs (pinWrite .cs .low (startValid s))) (by exact nofun) rfl ?_
  exact passReaches_axisOrder (openSample s) (by rw [pinsOutput_iff] at hp ⊢; simpa [openSample] using hp)

theorem reach_bindPins (s : State) :
    Reaches (goPhase (.iBind .bDirDrdy) s) (goPhase (.iRead (.trig .tCheck)) (bindPins s)) := by
  refine .phase (by exact nofun) rfl ?_
  refine .phase (s := pinMode .drdy .input s) (by exact nofun) rfl ?_
  refine .phase (s := pinMode .rst .output (pinMode .drdy .input s)) (by exact nofun) rfl ?_
  refine .phase (s := pinMode .cs .output (pinMode .rst .output (pinMode .drdy .input s))) (by exact nofun) rfl ?_
  exact .phase (s := pinWrite .cs .high (pinMode .cs .output (pinMode .rst .output (pinMode .drdy .input s))))
    (by exact nofun) rfl (.refl _)

theorem reach_throwawayRead {s : State} (hp : pinsOutput s = true) :
    Reaches (goPhase (.iRead (.trig .tCheck)) s) (throwawayRead s) :=
  reach_axis .iRead (fun r => respond (initResponse r.1)) initAxis initPeriod useDefault
    (fun _ => rfl) (fun _ => rfl) (fun _ _ => rfl) (fun _ _ _ => rfl) s (fun _ => hp)

theorem reach_init (s : State) : Reaches (goPhase .iCfg s) (throwawayRead (bindPins (applyBusCfg s))) :=
  .phase (by exact nofun) rfl ((reach_bindPins (applyBusCfg s)).trans
    (reach_throwawayRead (by simp [pinsOutput_iff, bindPins_eq])))

/-- Of a trigger's phases only T_CMD sends (41_conversion_trigger.md R91). -/
theorem axisSends_trig {p : TrigPhase} (h : axisSends (.trig p) = true) : p = .tCmd := by
  cases p
  case tCmd => rfl
  all_goals cases h

theorem reach_trigger {axis : Axis} {rank : Byte} {s : State} (hp : (triggerDrives rank).all (isOutput s) = true) :
    Reaches (goPhase (.trigger axis rank .tCheck) s) (endWith (triggerBody axis rank s).1 (triggerBody axis rank s).2) :=
  reach_trig (fun p => .trigger axis rank p) endWith axis rank (fun _ => axisSends_trig)
    (fun _ _ => rfl) (fun _ _ _ => rfl) rfl s (triggerDrives_all.1 hp)

/-- Running a request phase by phase comes to what its meaning answers (10_state.md R33). -/
theorem exec_reaches {s t : State} {i : Instr} {ph : Phase} (hf : firstPhase i = some ph) (hi : s.seq = .idle)
    (hb : s.bind = .bound ∨ i = .init) (h : exec i s = .next t) : Reaches (goPhase ph (accept s)) t := by
  cases i with
  | encode axis rank => cases hf
  | trigger axis rank =>
    cases hf
    rw [exec_trigger, admitted_of_idle hi (by simpa using hb)] at h
    obtain ⟨hp, h⟩ := guardPins_next h
    cases h
    exact reach_trigger hp
  | await rank tmo =>
    cases hf
    rw [exec_await, admitted_of_idle hi (by simpa using hb)] at h
    have hr := reach_await (fun p => .await rank tmo p) endWith rank tmo (fun _ => ⟨rfl, rfl⟩) (fun _ _ => rfl)
      (fun _ _ _ => rfl) (accept s)
    obtain ⟨st, s', hq⟩ : ∃ st s', awaitBody rank tmo (accept s) = (st, s') := ⟨_, _, rfl⟩
    rw [hq] at h hr
    cases st <;> cases h <;> exact hr
  | readResult =>
    cases hf
    rw [exec_readResult, admitted_of_idle hi (by simpa using hb)] at h
    obtain ⟨hp, h⟩ := guardPins_next h
    cases h
    exact reach_read (fun p => .readResult p) (fun m => respond { status := .ok, meas := m }) (fun _ => rfl)
      (fun _ => rfl) (fun _ _ => rfl) (fun _ _ _ => rfl) _ (by simpa using hp)
  | readAxis axis rank tmo =>
    cases hf
    rw [exec_readAxis, admitted_of_idle hi (by simpa using hb)] at h
    obtain ⟨hp, h⟩ := guardPins_next h
    have hr := reach_axis (fun p => .readAxis axis rank tmo p) (fun r => respond (axisResponse r)) axis rank tmo
      (fun _ => rfl) (fun _ => rfl) (fun _ _ => rfl) (fun _ _ _ => rfl) (accept s) (triggerDrives_all.1 hp)
    obtain ⟨r, s', hq⟩ : ∃ r s', readAxisBody axis rank tmo (accept s) = (r, s') := ⟨_, _, rfl⟩
    rw [hq] at h hr
    cases r <;> cases h <;> exact hr
  | sampleAll =>
    cases hf
    rw [exec_sampleAll, admitted_of_idle hi (by simpa using hb)] at h
    obtain ⟨hp, h⟩ := guardPins_next h
    cases h
    exact reach_sampleAll (by simpa [pinsOutput, and_comm] using hp)
  | init =>
    cases hf
    obtain ⟨-, rfl⟩ := exec_init_next h
    exact reach_init (accept s)
  | cmdX rank => cases hf
  | cmdY rank => cases hf
  | cmdZ rank => cases hf

/-- Settles O59: the phases reach it, and what phases reach, steps reach. -/
theorem phasesReachTheWholeRequest : Obligations.PhasesReachTheWholeRequest := fun _ _ _ _ hf hi hb h =>
  (exec_reaches hf hi hb h).run

end Sys2Proof.Proofs
end

