-- ==== Sys2Proof/Proofs/PhaseFrame.lean ====
section
/-! What a phase can change, by the part of a request it runs and by the request it belongs to (10_state.md R32). -/

namespace Sys2Proof.Proofs

open Sys2Proof.Machine Sys2Proof.Safety Sys2Proof.Laws

/-! ### What a phase can change -/

/-- What the parts of a request share: BIND, the directions, BUS_CFG, the host's list and the sample registers stay, and a
driven pin stays driven. -/
structure Quiet (s t : State) : Prop where
  bind : t.bind = s.bind
  dirDrdy : t.dirDrdy = s.dirDrdy
  dirRst : t.dirRst = s.dirRst
  dirCs : t.dirCs = s.dirCs
  busCfg : t.busCfg = s.busCfg
  requests : t.requests = s.requests
  sx : t.sx = s.sx
  sy : t.sy = s.sy
  sz : t.sz = s.sz
  valid : t.valid = s.valid
  csDriven : s.csLvl ≠ .z → t.csLvl ≠ .z
  rstDriven : s.rstLvl ≠ .z → t.rstLvl ≠ .z

theorem trigPhase_quiet (axis : Axis) (rank : Byte) (p : TrigPhase) (s : State) :
    Quiet s (trigPhase axis rank p s).2 := by
  cases p
  case tCheck =>
    simp only [trigPhase]
    split <;> constructor <;> simp
  all_goals constructor <;> simp [trigPhase, sendCommand]

theorem waitPhase_quiet (rank : Byte) (tmo : Word32) (p : WaitPhase) (s : State) :
    Quiet s (waitPhase rank tmo p s).2 := by
  obtain ⟨hb, hcs, hrst, hd, hr, hc, hbus, hreq, hx, hy, hz, hv, -⟩ := waitPhase_same rank tmo p s
  exact ⟨hb, hd, hr, hc, hbus, hreq, hx, hy, hz, hv, fun h => hcs ▸ h, fun h => hrst ▸ h⟩

theorem readPhase_quiet (p : ReadPhase) (s : State) : Quiet s (readPhase p s).2 := by
  cases p <;> constructor <;> simp [readPhase, readHi, readLo]

/-- A phase of a single-axis read ends in the state of the part it belongs to. -/
theorem axisPhase_snd (axis : Axis) (rank : Byte) (tmo : Word32) (p : AxisPhase) (s : State) :
    (axisPhase axis rank tmo p s).2 =
      match p with
      | .trig q => (trigPhase axis rank q s).2
      | .wait q => (waitPhase rank tmo q s).2
      | .read q => (readPhase q s).2 := by
  cases p <;> simp only [axisPhase] <;> split <;> simp [*]

theorem axisPhase_quiet (axis : Axis) (rank : Byte) (tmo : Word32) (p : AxisPhase) (s : State) :
    Quiet s (axisPhase axis rank tmo p s).2 := by
  rw [axisPhase_snd]
  cases p
  · exact trigPhase_quiet _ _ _ _
  · exact waitPhase_quiet _ _ _ _
  · exact readPhase_quiet _ _

/-! ### What follows a phase of a part -/

/-- A part of a request in progress goes on to its next phase, or its result is taken up by `fin`. -/
def onward {P R : Type} (go : P → Phase) (fin : R → State → State) : Onward P R × State → State
  | (.goto p, s) => goPhase (go p) s
  | (.done r, s) => fin r s

/-- One condition where the part goes on, another where it has ended. -/
def OnwardOk {P R : Type} (G : P → State → Prop) (F : R → State → Prop) : Onward P R × State → Prop
  | (.goto p, s) => G p s
  | (.done r, s) => F r s

theorem onwardOk_const {P R : Type} {C : State → Prop} {o : Onward P R × State} (h : C o.2) :
    OnwardOk (fun _ => C) (fun _ => C) o := by
  obtain ⟨_ | _, s⟩ := o <;> exact h

/-- What holds of both ways a part can go holds of what follows it. -/
theorem onward_induct {P R : Type} {go : P → Phase} {fin : R → State → State} {G : P → State → Prop}
    {F : R → State → Prop} {s : State} {o : Onward P R × State} {Q : State → Prop} (hq : Quiet s o.2)
    (hk : OnwardOk G F o) (hg : ∀ p t, Quiet s t → G p t → Q (goPhase (go p) t))
    (hf : ∀ r t, Quiet s t → F r t → Q (fin r t)) : Q (onward go fin o) := by
  obtain ⟨p | r, t⟩ := o
  · exact hg p t hq hk
  · exact hf r t hq hk

theorem phaseNext_trigger (axis : Axis) (rank : Byte) (p : TrigPhase) (s : State) :
    phaseNext (.trigger axis rank p) s = onward (.trigger axis rank) endWith (trigPhase axis rank p s) := by
  rcases h : trigPhase axis rank p s with ⟨_ | _, t⟩ <;> simp only [phaseNext, onward, h]

theorem phaseNext_await (rank : Byte) (tmo : Word32) (p : WaitPhase) (s : State) :
    phaseNext (.await rank tmo p) s = onward (.await rank tmo) endWith (waitPhase rank tmo p s) := by
  rcases h : waitPhase rank tmo p s with ⟨_ | _, t⟩ <;> simp only [phaseNext, onward, h]

theorem phaseNext_readResult (p : ReadPhase) (s : State) :
    phaseNext (.readResult p) s =
      onward .readResult (fun m => respond { status := .ok, meas := m }) (readPhase p s) := by
  rcases h : readPhase p s with ⟨_ | _, t⟩ <;> simp only [phaseNext, onward, h]

theorem phaseNext_readAxis (axis : Axis) (rank : Byte) (tmo : Word32) (p : AxisPhase) (s : State) :
    phaseNext (.readAxis axis rank tmo p) s =
      onward (.readAxis axis rank tmo) (fun r => respond (axisResponse r)) (axisPhase axis rank tmo p s) := by
  rcases h : axisPhase axis rank tmo p s with ⟨_ | _, t⟩ <;> simp only [phaseNext, onward, h]

theorem phaseNext_sAxis (k : Axis) (p : AxisPhase) (s : State) :
    phaseNext (.sAxis k p) s =
      onward (.sAxis k) (fun r t => goPhase (afterAxis k) (latchAxis k r t))
        (axisPhase k samplePeriod useDefault p s) := by
  rcases h : axisPhase k samplePeriod useDefault p s with ⟨_ | _, t⟩ <;> simp only [phaseNext, onward, h]

theorem phaseNext_iRead (p : AxisPhase) (s : State) :
    phaseNext (.iRead p) s =
      onward .iRead (fun r => respond (initResponse r.1)) (axisPhase initAxis initPeriod useDefault p s) := by
  rcases h : axisPhase initAxis initPeriod useDefault p s with ⟨_ | _, t⟩ <;> simp only [phaseNext, onward, h]

/-! ### Which registers a request can change -/

/-- Which request a phase belongs to, told apart by the registers it may write beside the latches and the transient ones:
INIT (10_state.md R21, R24, R25), SAMPLE_ALL (R24, R30, R31), or another. -/
inductive Owner where
  | init
  | sampleAll
  | other
  deriving DecidableEq

/-- The owner of a phase (10_state.md R32). -/
def ownerOf : Phase → Owner
  | .trigger _ _ _ => .other
  | .await _ _ _ => .other
  | .readResult _ => .other
  | .readAxis _ _ _ _ => .other
  | .sInit => .sampleAll
  | .sSel => .sampleAll
  | .sSettle => .sampleAll
  | .sCfg => .sampleAll
  | .sAxis _ _ => .sampleAll
  | .sDesel => .sampleAll
  | .iCfg => .init
  | .iBind _ => .init
  | .iRead _ => .init

/-- What a request of an owner may have changed from `s` to `t` (10_state.md R21, R24, R25, R30, R31), and that a block still
BUSY is BUSY with that owner's request. -/
structure Within (o : Owner) (s t : State) : Prop where
  seq : ∀ ph, t.seq = .busy ph → ownerOf ph = o
  requests : t.requests = s.requests
  bind : t.bind = s.bind ∨ (o = .init ∧ t.bind = .bound)
  dirDrdy : t.dirDrdy = s.dirDrdy ∨ (o = .init ∧ t.dirDrdy = .input)
  dirRst : t.dirRst = s.dirRst ∨ (o = .init ∧ t.dirRst = .output)
  dirCs : t.dirCs = s.dirCs ∨ (o = .init ∧ t.dirCs = .output)
  busCfg : t.busCfg = s.busCfg ∨ ((o = .init ∨ o = .sampleAll) ∧ t.busCfg = some fixedBusConfig)
  samples : o = .sampleAll ∨ (t.sx = s.sx ∧ t.sy = s.sy ∧ t.sz = s.sz ∧ t.valid = s.valid)

theorem Within.trans {o : Owner} {a b c : State} (h : Within o a b) (k : Within o b c) : Within o a c where
  seq := k.seq
  requests := k.requests.trans h.requests
  bind := k.bind.elim (fun e => e ▸ h.bind) .inr
  dirDrdy := k.dirDrdy.elim (fun e => e ▸ h.dirDrdy) .inr
  dirRst := k.dirRst.elim (fun e => e ▸ h.dirRst) .inr
  dirCs := k.dirCs.elim (fun e => e ▸ h.dirCs) .inr
  busCfg := k.busCfg.elim (fun e => e ▸ h.busCfg) .inr
  samples := by
    rcases k.samples with hs | ⟨hx, hy, hz, hv⟩
    · exact .inl hs
    · rw [hx, hy, hz, hv]; exact h.samples

/-- What a part leaves alone is within every request, whatever SEQ and the response are set to. -/
theorem Quiet.within {o : Owner} {s t : State} (h : Quiet s t) (q : Seq) (r : Option Response)
    (hq : ∀ ph, q = .busy ph → ownerOf ph = o) : Within o s { t with seq := q, response := r } where
  seq := hq
  requests := h.requests
  bind := .inl h.bind
  dirDrdy := .inl h.dirDrdy
  dirRst := .inl h.dirRst
  dirCs := .inl h.dirCs
  busCfg := .inl h.busCfg
  samples := .inr ⟨h.sx, h.sy, h.sz, h.valid⟩

theorem Quiet.within_goPhase {o : Owner} {s t : State} {ph : Phase} (h : Quiet s t) (ho : ownerOf ph = o) :
    Within o s (goPhase ph t) := h.within _ _ fun _ e => by cases e; exact ho

theorem Quiet.within_respond {o : Owner} {s t : State} (r : Response) (h : Quiet s t) : Within o s (respond r t) :=
  h.within _ _ nofun

/-- A part whose result the request answers with. -/
theorem Quiet.within_onward {P R : Type} {o : Owner} {go : P → Phase} {fin : R → Response} {s : State}
    {x : Onward P R × State} (h : Quiet s x.2) (ho : ∀ p, ownerOf (go p) = o) :
    Within o s (onward go (fun r => respond (fin r)) x) :=
  onward_induct h (onwardOk_const (C := fun _ => True) trivial) (fun p _ hq _ => hq.within_goPhase (ho p))
    (fun r _ hq _ => hq.within_respond (fin r))

theorem ownerOf_afterAxis (k : Axis) : ownerOf (afterAxis k) = .sampleAll := by cases k <;> rfl

theorem bindPhase_within (p : BindPhase) (s : State) : Within .init s (bindPhase p s) := by
  cases p <;> constructor <;> simp [bindPhase, ownerOf]

/-- A phase changes what its request may change (10_state.md R32). -/
theorem phaseNext_within (ph : Phase) (s : State) : Within (ownerOf ph) s (phaseNext ph s) := by
  cases ph with
  | trigger axis rank p =>
    rw [phaseNext_trigger]
    exact (trigPhase_quiet axis rank p s).within_onward fun _ => rfl
  | await rank tmo p =>
    rw [phaseNext_await]
    exact (waitPhase_quiet rank tmo p s).within_onward fun _ => rfl
  | readResult p =>
    rw [phaseNext_readResult]
    exact (readPhase_quiet p s).within_onward fun _ => rfl
  | readAxis axis rank tmo p =>
    rw [phaseNext_readAxis]
    exact (axisPhase_quiet axis rank tmo p s).within_onward fun _ => rfl
  | iRead p =>
    rw [phaseNext_iRead]
    exact (axisPhase_quiet _ _ _ p s).within_onward fun _ => rfl
  | iBind p => exact bindPhase_within p s
  | sAxis k p =>
    rw [phaseNext_sAxis]
    refine onward_induct (axisPhase_quiet _ _ _ p s) (onwardOk_const (C := fun _ => True) trivial)
      (fun p _ hq _ => hq.within_goPhase rfl) (fun r t hq _ => ?_)
    show Within .sampleAll _ _
    constructor <;> simp [hq.bind, hq.dirDrdy, hq.dirRst, hq.dirCs, hq.busCfg, hq.requests, ownerOf_afterAxis]
  | sInit | sSel | sSettle | sCfg | sDesel | iCfg => constructor <;> simp [phaseNext, ownerOf, closeSample]

end Sys2Proof.Proofs
end

