-- ==== Sys2Proof/Proofs/StepKinds.lean ====
section
/-! What a step of the whole machine can be, said once, and the frame statements of 10_state.md that follow. -/

namespace Sys2Proof.Proofs

open Sys2Proof.Machine Sys2Proof.Safety Sys2Proof.Laws

/-- Running phase by phase stays within the request the block is BUSY with. -/
theorem reaches_within {a b : State} {ph : Phase} (ha : a.seq = .busy ph) (h : Reaches a b) : Within (ownerOf ph) a b := by
  refine h.keeps (P := Within (ownerOf ph) a) (fun s ph' hs _ hw => ?_) ?_
  · exact hw.trans (hw.seq ph' hs ▸ phaseNext_within ph' s)
  · exact ⟨fun _ e => by rw [ha] at e; cases e; rfl, rfl, .inl rfl, .inl rfl, .inl rfl, .inl rfl, .inl rfl,
      .inr ⟨rfl, rfl, rfl, rfl⟩⟩

/-- Every request but ENCODE has phases. -/
theorem encode_or_firstPhase {i : Instr} (h : IsRequest i) :
    (∃ axis rank, i = .encode axis rank) ∨ ∃ ph, firstPhase i = some ph := by
  rcases h with (⟨a, r, rfl⟩ | ⟨r, m, rfl⟩ | rfl | ⟨a, r, m, rfl⟩ | rfl) | ⟨a, r, rfl⟩ | rfl
  case inr.inl => exact .inl ⟨a, r, rfl⟩
  all_goals exact .inr ⟨_, rfl⟩

/-- A request in an IDLE block changes the observation only, or is admitted and comes to what its phases reach. -/
theorem exec_request_cases {s t : State} {i : Instr} (hr : IsRequest i) (hi : s.seq = .idle) (h : exec i s = .next t) :
    (∃ r, t = respond r (accept s)) ∨
    (∃ ph, firstPhase i = some ph ∧ (s.bind = .bound ∨ i = .init) ∧ Reaches (goPhase ph (accept s)) t) := by
  obtain ⟨axis, rank, rfl⟩ | ⟨ph, hf⟩ := encode_or_firstPhase hr
  · obtain ⟨-, ⟨-, rfl⟩ | ⟨-, rfl⟩⟩ := exec_encode_next h <;> exact .inl ⟨_, rfl⟩
  · by_cases hb : s.bind = .bound ∨ i = .init
    · exact .inr ⟨ph, hf, hb, exec_reaches hf hi hb h⟩
    · rw [not_or] at hb
      have hu : s.bind = .unbound := by
        cases hs : s.bind
        · rfl
        · exact absurd hs hb.1
      have hn : NeedsBound i := hr.resolve_right fun hc => hc.elim (fun ⟨_, _, e⟩ => by subst e; cases hf) hb.2
      rw [exec_needsBound_unbound hi hu hn] at h
      cases h
      exact .inl ⟨_, rfl⟩

/-- A step that answers a next state leaves every register alone, or admits a request and comes to what its phases reach,
or is a phase of the request in progress. -/
theorem step_kinds {s t : State} (h : step s = .next t) :
    (s.seq = .idle ∧ t = { s with requests := t.requests, trace := t.trace, response := t.response }) ∨
    (∃ r rest i ph, s.seq = .idle ∧ s.requests = r :: rest ∧ decodeRequest r = .ok i ∧ firstPhase i = some ph ∧
      (s.bind = .bound ∨ i = .init) ∧ Reaches (goPhase ph (accept { s with requests := rest })) t) ∨
    (∃ ph, s.seq = .busy ph ∧ t = phaseNext ph s) := by
  rcases step_cases h with
    ⟨hi, -, rfl⟩ | ⟨r, rest, hi, -, -, rfl⟩ | ⟨r, rest, i, hi, hr, hd, he⟩ | ⟨ph, hs, -, ht⟩
  · exact .inl ⟨hi, rfl⟩
  · exact .inl ⟨hi, by ext1 <;> simp [reject, hi]⟩
  · rcases exec_request_cases (s := { s with requests := rest }) (decodeRequest_isRequest hd) hi he
      with ⟨q, rfl⟩ | ⟨ph, hf, hb, hreach⟩
    · exact .inl ⟨hi, by ext1 <;> simp [hi]⟩
    · exact .inr (.inl ⟨r, rest, i, ph, hi, hr, hd, hf, hb, hreach⟩)
  · exact .inr (.inr ⟨ph, hs, ht⟩)

/-! ### Which request a step belongs to -/

/-- The step at this state belongs to a request of the owner, as far as the owner is INIT or SAMPLE_ALL. -/
def RunsFor (o : Owner) (s : State) : Prop := (o = .init → RunsInit s) ∧ (o = .sampleAll → RunsSampleAll s)

theorem runsFor_busy {s : State} {ph : Phase} (hs : s.seq = .busy ph) : RunsFor (ownerOf ph) s := by
  rw [RunsFor, RunsInit, RunsSampleAll, hs]
  cases ph <;> simp [ownerOf]

theorem runsFor_idle {s : State} {r : HostRequest} {rest : List HostRequest} {i : Instr} {ph : Phase} (hi : s.seq = .idle)
    (hr : s.requests = r :: rest) (hd : decodeRequest r = .ok i) (hf : firstPhase i = some ph) : RunsFor (ownerOf ph) s := by
  rw [RunsFor, RunsInit, RunsSampleAll, hi]
  cases i <;> cases hf
  case sampleAll => exact ⟨nofun, fun _ => ⟨r, rest, hr, hd⟩⟩
  case init => exact ⟨fun _ => ⟨r, rest, hr, hd⟩, nofun⟩
  all_goals exact ⟨nofun, nofun⟩

/-- A step changes what the request it belongs to may change. The host's list is left to the step. -/
theorem step_within {s t : State} (h : step s = .next t) :
    ∃ o, RunsFor o s ∧ Within o { s with requests := t.requests } t := by
  rcases step_kinds h with ⟨hi, ht⟩ | ⟨r, rest, i, ph, hi, hr, hd, hf, -, hreach⟩ | ⟨ph, hs, rfl⟩
  · refine ⟨.other, ⟨nofun, nofun⟩, ?_⟩
    rw [ht]
    exact ⟨fun _ e => absurd (hi.symm.trans e) nofun, rfl, .inl rfl, .inl rfl, .inl rfl, .inl rfl, .inl rfl,
      .inr ⟨rfl, rfl, rfl, rfl⟩⟩
  · have hw := reaches_within rfl hreach
    exact ⟨ownerOf ph, runsFor_idle hi hr hd hf,
      ⟨hw.seq, rfl, hw.bind, hw.dirDrdy, hw.dirRst, hw.dirCs, hw.busCfg, hw.samples⟩⟩
  · have hw := phaseNext_within ph s
    exact ⟨ownerOf ph, runsFor_busy hs,
      ⟨hw.seq, rfl, hw.bind, hw.dirDrdy, hw.dirRst, hw.dirCs, hw.busCfg, hw.samples⟩⟩

/-! ### Frames of a step -/

/-- Settles O52: BIND stays or an INIT sets it to Bound, and an Unbound block rejects what needs a Bound one. -/
theorem onlyInitBinds : Obligations.OnlyInitBinds := by
  refine ⟨rfl, fun s t h => ?_, fun s i hi hu hn => ?_⟩
  · obtain ⟨o, ho, hw⟩ := step_within h
    rcases hw.bind with e | ⟨rfl, e⟩
    · exact ⟨fun hb => e.trans hb, fun hne => absurd e hne⟩
    · exact ⟨fun _ => e, fun _ => ho.1 rfl⟩
  · rw [exec_needsBound_unbound hi hu hn, reject_eq s hi]

/-- Settles O53: a step changes only what its request may change. -/
theorem onlyInitSetsDirections : Obligations.OnlyInitSetsDirections := by
  intro s t h
  obtain ⟨o, ho, hw⟩ := step_within h
  exact ⟨hw.dirDrdy.imp_right (.imp_left ho.1), hw.dirRst.imp_right (.imp_left ho.1),
    hw.dirCs.imp_right (.imp_left ho.1)⟩

/-- Settles O54: a step changes only what its request may change. -/
theorem onlyInitAndSampleConfigureBus : Obligations.OnlyInitAndSampleConfigureBus := by
  intro s t h hne
  obtain ⟨o, ho, hw⟩ := step_within h
  obtain ⟨hown, e⟩ := hw.busCfg.resolve_left hne
  exact ⟨hown.imp ho.1 ho.2, e⟩

/-- Settles O55: a step changes only what its request may change. -/
theorem onlySampleAllWritesSamples : Obligations.OnlySampleAllWritesSamples := by
  intro s t h hns
  obtain ⟨o, ho, hw⟩ := step_within h
  exact hw.samples.resolve_left fun e => hns (ho.2 e)

/-- A request's meaning has no move in a BUSY state (60_exceptions.md R166). -/
theorem exec_request_busy {s : State} {ph : Phase} {i : Instr} (hs : s.seq = .busy ph) (hr : IsRequest i) :
    exec i s = .refused .requestWhileBusy := by
  rcases hr with (⟨a, r, rfl⟩ | ⟨r, m, rfl⟩ | rfl | ⟨a, r, m, rfl⟩ | rfl) | ⟨a, r, rfl⟩ | rfl
  · exact (exec_trigger a r s).trans (admitted_busy hs)
  · exact (exec_await r m s).trans (admitted_busy hs)
  · exact (exec_readResult s).trans (admitted_busy hs)
  · exact (exec_readAxis a r m s).trans (admitted_busy hs)
  · exact (exec_sampleAll s).trans (admitted_busy hs)
  · exact (exec_encode a r s).trans (admitted_busy hs)
  · exact (exec_init s).trans (admitted_busy hs)

/-- Settles O56: a BUSY step is a phase, and no phase touches the host's list. -/
theorem busyAcceptsNoRequest : Obligations.BusyAcceptsNoRequest := by
  refine ⟨fun s t ph hs h => ?_, fun _ _ _ => exec_request_busy⟩
  obtain ⟨-, rfl⟩ := step_busy hs h
  exact (phaseNext_within ph s).requests

end Sys2Proof.Proofs
end

