-- ==== Sys2Proof/Proofs/Invariant.lean ====
section
/-! The invariant of the pins, the bus configuration and the sequencer: every phase keeps it, so every step does. -/

namespace Sys2Proof.Proofs

open Sys2Proof.Machine Sys2Proof.Safety Sys2Proof.Laws

/-! ### What the parts of a request leave -/

/-- A trigger's phase leaves what the next one needs; a trigger that ends leaves RESET released, and after OK the sensor
selected and the rank legal (41_conversion_trigger.md R90, R91). -/
theorem trigPhase_keeps {axis : Axis} {rank : Byte} {p : TrigPhase} {s : State} (h : TrigOk axis rank p s) :
    OnwardOk (TrigOk axis rank) (fun st t => RstLow t ∧ (st = .ok → Selected t ∧ rankOutOfRange rank = false))
      (trigPhase axis rank p s) := by
  cases p with
  | tCheck =>
    rw [trigPhase]
    cases he : encodeCommand axis rank with
    | none => exact ⟨h, nofun⟩
    | some c => exact ⟨he, h⟩
  | tSel => exact ⟨h.1, h.2, rfl⟩
  | tRstHi => exact ⟨h.1, rfl, h.2.2⟩
  | tHold => exact h
  | tRstLo => exact ⟨h.1, rfl, h.2.2⟩
  | tCmd => exact ⟨h.2.1, fun _ => ⟨h.2.2, (encodeCommand_some h.1).1⟩⟩

theorem readPhase_rstLvl (p : ReadPhase) (s : State) : (readPhase p s).2.rstLvl = s.rstLvl := by cases p <;> rfl

/-- A result read leaves RESET released, and the sensor selected until it has ended (43_result_read.md R116). -/
theorem readPhase_keeps {p : ReadPhase} {s : State} (h : RstLow s ∧ Selected s) :
    OnwardOk (fun _ t => RstLow t ∧ Selected t) (fun _ => RstLow) (readPhase p s) := by
  cases p with
  | rHi => exact h
  | rLo => exact h
  | rDesel => exact h.1

/-- A single-axis read's phase leaves what the next one needs, and RESET released at its end (44_axis_sequencer.md R125). -/
theorem axisPhase_keeps {axis : Axis} {rank : Byte} (tmo : Word32) {p : AxisPhase} {s : State} (h : AxisOk axis rank p s) :
    OnwardOk (AxisOk axis rank) (fun _ => RstLow) (axisPhase axis rank tmo p s) := by
  cases p with
  | trig q =>
    have hk := trigPhase_keeps h
    rcases e : trigPhase axis rank q s with ⟨q' | st, t⟩ <;> rw [e] at hk <;> simp only [axisPhase, e]
    · exact hk
    · cases st
      case ok => exact ⟨hk.1, hk.2 rfl⟩
      all_goals exact hk.1
  | wait q =>
    obtain ⟨hr, hc, hk⟩ := h
    obtain ⟨-, hcs, hrst, -⟩ := waitPhase_same rank tmo q s
    rcases e : waitPhase rank tmo q s with ⟨q' | st, t⟩ <;> rw [e] at hcs hrst <;> simp only [axisPhase, e]
    · exact ⟨hrst.trans hr, hcs.trans hc, hk⟩
    · cases st
      case ok => exact ⟨hrst.trans hr, hcs.trans hc⟩
      all_goals exact hrst.trans hr
  | read q =>
    have hk := readPhase_keeps (p := q) h
    rcases e : readPhase q s with ⟨q' | m, t⟩ <;> rw [e] at hk <;> simp only [axisPhase, e] <;> exact hk

/-! ### The invariant after a part -/

/-- What a part leaves alone keeps the pins bound. -/
theorem Quiet.pinsBound {s t : State} (h : Quiet s t) (hp : PinsBound s) : PinsBound t := by
  obtain ⟨hd, hr, hc, hcs, hrst, hb⟩ := hp
  exact ⟨h.dirDrdy.trans hd, h.dirRst.trans hr, h.dirCs.trans hc, h.csDriven hcs, h.rstDriven hrst, h.busCfg.trans hb⟩

theorem pinsBound_pinWrite {s : State} (p : OutPin) (l : Level) (h : PinsBound s) : PinsBound (pinWrite p l s) := by
  obtain ⟨hd, hr, hc, hcs, hrst, hb⟩ := h
  cases p
  · exact ⟨hd, hr, hc, hcs, nofun, hb⟩
  · exact ⟨hd, hr, hc, nofun, hrst, hb⟩

theorem pinsBound_applyBusCfg {s : State} (h : PinsBound s) : PinsBound (applyBusCfg s) := by
  obtain ⟨hd, hr, hc, hcs, hrst, -⟩ := h
  exact ⟨hd, hr, hc, hcs, hrst, rfl⟩

theorem inv_goPhase {t : State} {ph : Phase} (hp : PinsBound t) (h : PhaseOk ph (goPhase ph t)) :
    Inv (goPhase ph t) := by
  obtain ⟨hd, hr, hc, hcs, hrst, hb⟩ := hp
  exact ⟨.inr hb, fun _ => ⟨hd, hr, hc, hcs, hrst, hb⟩, h⟩

/-- A Bound block that responds with RESET released meets the invariant. -/
theorem inv_respond {t : State} (r : Response) (hp : PinsBound t) (hb : t.bind = .bound) (h : RstLow t) :
    Inv (respond r t) := by
  obtain ⟨hd, hr, hc, hcs, hrst, hbus⟩ := hp
  exact ⟨.inr hbus, fun _ => ⟨hd, hr, hc, hcs, hrst, hbus⟩, fun _ => h, fun hu => absurd (hb.symm.trans hu) nofun⟩

/-- A part whose result the request of a Bound block answers with keeps the invariant. -/
theorem inv_onward {P R : Type} {go : P → Phase} {fin : R → Response} {G : P → State → Prop}
    {F : R → State → Prop} {s : State} {o : Onward P R × State} (hp : PinsBound s) (hb : s.bind = .bound) (hq : Quiet s o.2)
    (hk : OnwardOk G F o) (hg : ∀ p t, t.bind = .bound → G p t → PhaseOk (go p) (goPhase (go p) t))
    (hf : ∀ r t, F r t → RstLow t) : Inv (onward go (fun r => respond (fin r)) o) :=
  onward_induct hq hk (fun p _ hq h => inv_goPhase (hq.pinsBound hp) (hg p _ (hq.bind.trans hb) h))
    fun r _ hq h => inv_respond (fin r) (hq.pinsBound hp) (hq.bind.trans hb) (hf r _ h)

theorem phaseOk_afterAxis {k : Axis} {t : State} (hb : t.bind = .bound) (h : RstLow t) : PhaseOk (afterAxis k) t := by
  cases k <;> exact ⟨hb, h⟩

/-! ### The invariant after a phase -/

/-- A bind phase sets the direction or the level that the next one, and at last the Bound block, needs
(45_initialization.md R145). -/
theorem bindPhase_inv {p : BindPhase} {s : State} (hi : Inv s) (h : PhaseOk (.iBind p) s) : Inv (bindPhase p s) := by
  obtain ⟨hbus, hrst, hok⟩ := h
  cases p with
  | bDirDrdy =>
    refine ⟨.inr hbus, fun hb => ?_, hbus, hrst, rfl⟩
    obtain ⟨-, hr, hc, hcs, hrl, -⟩ := hi.boundPins hb
    exact ⟨rfl, hr, hc, hcs, hrl, hbus⟩
  | bDirRst =>
    refine ⟨.inr hbus, fun hb => ?_, hbus, hrst, hok, rfl⟩
    obtain ⟨hd, -, hc, hcs, hrl, -⟩ := hi.boundPins hb
    exact ⟨hd, rfl, hc, hcs, hrl, hbus⟩
  | bDirCs =>
    refine ⟨.inr hbus, fun hb => ?_, hbus, hrst, hok.1, hok.2, rfl⟩
    obtain ⟨hd, hr, -, hcs, hrl, -⟩ := hi.boundPins hb
    exact ⟨hd, hr, rfl, hcs, hrl, hbus⟩
  | bCsHi =>
    obtain ⟨hd, hr, hc⟩ := hok
    exact ⟨.inr hbus, fun hb => pinsBound_pinWrite (s := s) .cs .high (hi.boundPins hb), hbus, hrst, hd, hr, hc, rfl⟩
  | bRstLo =>
    obtain ⟨hd, hr, hc, hcs⟩ := hok
    have hcs' : s.csLvl ≠ .z := by rw [hcs]; exact nofun
    exact ⟨.inr hbus, fun _ => ⟨hd, hr, hc, hcs', nofun, hbus⟩, rfl, rfl⟩

/-- Every phase keeps the invariant. -/
theorem phaseNext_inv {ph : Phase} {s : State} (hi : Inv s) (hs : s.seq = .busy ph) : Inv (phaseNext ph s) := by
  have hok : PhaseOk ph s := by have := hi.seqOk; rwa [SeqOk, hs] at this
  cases ph with
  | trigger axis rank p =>
    rw [phaseNext_trigger]
    exact inv_onward (hi.boundPins hok.1) hok.1 (trigPhase_quiet axis rank p s) (trigPhase_keeps hok.2)
      (fun _ _ hb h => ⟨hb, h⟩) fun _ _ h => h.1
  | await rank tmo p =>
    obtain ⟨-, -, hrst, -⟩ := waitPhase_same rank tmo p s
    rw [phaseNext_await]
    exact inv_onward (hi.boundPins hok.1) hok.1 (waitPhase_quiet rank tmo p s) (onwardOk_const (hrst.trans hok.2))
      (fun _ _ hb h => ⟨hb, h⟩) fun _ _ h => h
  | readResult p =>
    rw [phaseNext_readResult]
    exact inv_onward (hi.boundPins hok.1) hok.1 (readPhase_quiet p s) (onwardOk_const ((readPhase_rstLvl p s).trans hok.2))
      (fun _ _ hb h => ⟨hb, h⟩) fun _ _ h => h
  | readAxis axis rank tmo p =>
    rw [phaseNext_readAxis]
    exact inv_onward (hi.boundPins hok.1) hok.1 (axisPhase_quiet axis rank tmo p s) (axisPhase_keeps tmo hok.2)
      (fun _ _ hb h => ⟨hb, h⟩) fun _ _ h => h
  | iRead p =>
    rw [phaseNext_iRead]
    exact inv_onward (hi.boundPins hok.1) hok.1 (axisPhase_quiet _ _ _ p s) (axisPhase_keeps useDefault hok.2)
      (fun _ _ hb h => ⟨hb, h⟩) fun _ _ h => h
  | sAxis k p =>
    rw [phaseNext_sAxis]
    have hp := hi.boundPins hok.1
    refine onward_induct (axisPhase_quiet _ _ _ p s) (axisPhase_keeps useDefault hok.2)
      (fun _ _ hq h => inv_goPhase (hq.pinsBound hp) ⟨hq.bind.trans hok.1, h⟩) (fun r t hq h => ?_)
    refine inv_goPhase ?_ (phaseOk_afterAxis ?_ ?_)
    · simpa [PinsBound] using hq.pinsBound hp
    · simpa using hq.bind.trans hok.1
    · simpa [RstLow] using h
  | iBind p => exact bindPhase_inv hi hok
  | sInit => exact inv_goPhase (t := startValid s) (hi.boundPins hok.1) hok
  | sSel => exact inv_goPhase (pinsBound_pinWrite .cs .low (hi.boundPins hok.1)) ⟨hok.1, hok.2, rfl⟩
  | sSettle => exact inv_goPhase (t := delay settleUs s) (hi.boundPins hok.1) hok
  | sCfg => exact inv_goPhase (pinsBound_applyBusCfg (hi.boundPins hok.1)) ⟨hok.1, hok.2.1⟩
  | sDesel => exact inv_respond _ (pinsBound_pinWrite .cs .high (hi.boundPins hok.1)) hok.1 hok.2
  | iCfg => exact ⟨.inr rfl, fun hb => pinsBound_applyBusCfg (s := s) (hi.boundPins hb), rfl, hok, trivial⟩

/-! ### The invariant after a step -/

/-- What is left alone but the observation and the host's list keeps an IDLE block's invariant. -/
theorem inv_observation {s t : State} (hi : s.seq = .idle)
    (ht : t = { s with requests := t.requests, trace := t.trace, response := t.response }) (h : Inv s) : Inv t := by
  rw [ht]
  refine ⟨h.busFixed, h.boundPins, ?_⟩
  have hs := h.seqOk
  rw [SeqOk, hi] at hs
  rw [SeqOk, show State.seq _ = .idle from hi]
  exact hs

/-- A request's first phase stands in a state of the invariant once it is admitted. -/
theorem inv_firstPhase {s : State} {i : Instr} {ph : Phase} (hf : firstPhase i = some ph) (hi : s.seq = .idle)
    (hb : s.bind = .bound ∨ i = .init) (h : Inv s) : Inv (goPhase ph s) := by
  have hs := h.seqOk
  rw [SeqOk, hi] at hs
  refine ⟨h.busFixed, h.boundPins, ?_⟩
  cases i <;> cases hf
  case init => exact hs.1
  all_goals
    have hb := hb.resolve_right nofun
    exact ⟨hb, hs.1 hb⟩

/-- Settles O50: an admitted request starts in a phase of the invariant and comes to its answer through phases, and every
phase keeps the invariant. -/
theorem stepKeepsInvariant : Obligations.StepKeepsInvariant := by
  intro s t h hstep
  rcases step_kinds hstep with ⟨hi, ht⟩ | ⟨r, rest, i, ph, hi, -, -, hf, hb, hreach⟩ | ⟨ph, hs, rfl⟩
  · exact inv_observation hi ht h
  · have ha : Inv (accept { s with requests := rest }) := inv_observation hi rfl h
    exact hreach.keeps (P := Inv) (fun _ _ hs _ h => phaseNext_inv h hs) (inv_firstPhase hf hi hb ha)
  · exact phaseNext_inv h hs

end Sys2Proof.Proofs
end

