-- ==== Sys2Proof/Proofs/PinDrives.lean ====
section
/-! A pin is driven only while it is an output: where the model stops otherwise, and that the invariant rules it out
(20_memory.md R52). -/

namespace Sys2Proof.Proofs

open Sys2Proof.Machine Sys2Proof.Safety Sys2Proof.Laws

/-- A part that drives a pin which is no output stops by name. -/
theorem guardPins_of_notOutput {pins : List OutPin} {p : OutPin} {s : State} {r : Result} (hp : p ∈ pins)
    (h : isOutput s p = false) : guardPins pins s r = .fault .pinNotOutput :=
  guardPins_fault (List.all_eq_false.2 ⟨p, hp, by simp [h]⟩)

/-- A part that drives both pins stops by name while either is no output. -/
theorem guardPins_bothPins_fault {s : State} {r : Result} (h : s.dirRst ≠ .output ∨ s.dirCs ≠ .output) :
    guardPins [.cs, .rst] s r = .fault .pinNotOutput := by
  rcases h with h | h
  · exact guardPins_of_notOutput (p := .rst) (by decide) (decide_eq_false h)
  · exact guardPins_of_notOutput (p := .cs) (by decide) (decide_eq_false h)

/-- A trigger of a legal rank drives both pins. -/
theorem triggerDrives_of_le {rank : Byte} (h : rank.toNat ≤ 7) : triggerDrives rank = [.cs, .rst] := by
  rw [triggerDrives, rankOutOfRange_of_le h]
  rfl

/-- In the invariant the pin a phase drives is an output: a bind phase that drives one has set its direction, and every
other phase that drives one is a Bound block's (45_initialization.md R145). -/
theorem phaseDrives_isOutput {s : State} {ph : Phase} {p : OutPin} (hinv : Inv s) (hs : s.seq = .busy ph)
    (hp : p ∈ phaseDrives ph) : isOutput s p = true := by
  have hok : PhaseOk ph s := by have := hinv.seqOk; rwa [SeqOk, hs] at this
  have of_bound (hb : s.bind = .bound) : isOutput s p = true :=
    List.all_eq_true.1 (all_isOutput (pinsOutput_of_bound (hinv.boundPins hb)) _) p hp
  cases ph with
  | iBind q =>
    obtain ⟨-, -, hbind⟩ := hok
    cases q with
    | bDirDrdy | bDirRst | bDirCs => cases hp
    | bCsHi =>
      obtain ⟨-, -, hcs⟩ := hbind
      rw [List.mem_singleton.1 hp]
      exact decide_eq_true hcs
    | bRstLo =>
      obtain ⟨-, hrst, -⟩ := hbind
      rw [List.mem_singleton.1 hp]
      exact decide_eq_true hrst
  | iCfg => cases hp
  | _ => exact of_bound hok.1

/-- Settles O58: each stop is a pin guard that fails, and what the invariant promises at a phase rules it out. -/
theorem pinWritesNeedOutputs : Obligations.PinWritesNeedOutputs := by
  refine ⟨fun _ _ _ => guardPins_of_notOutput, fun _ _ h => ⟨_, guardPins_of_all (List.all_eq_true.2 h)⟩,
    fun s hi hb hcs => ?readResult, fun s hi hb h => ⟨?sampleAll, fun axis rank tmo hr => ⟨?trigger, ?readAxis⟩⟩,
    fun _ _ _ => phaseDrives_isOutput⟩
  case readResult =>
    rw [exec_readResult, admitted_of_idle hi fun _ => hb]
    exact guardPins_of_notOutput (p := .cs) (by decide) (decide_eq_false hcs)
  case sampleAll =>
    rw [exec_sampleAll, admitted_of_idle hi fun _ => hb]
    exact guardPins_bothPins_fault h
  case trigger =>
    rw [exec_trigger, admitted_of_idle hi fun _ => hb, triggerDrives_of_le hr]
    exact guardPins_bothPins_fault h
  case readAxis =>
    rw [exec_readAxis, admitted_of_idle hi fun _ => hb, triggerDrives_of_le hr]
    exact guardPins_bothPins_fault h

end Sys2Proof.Proofs
end

