-- ==== Sys2Proof/Proofs/Encodings.lean ====
section
/-! The decoder and the encoder as inverses of each other (30_encoding.md R66, R73 to R81), and what a step makes of a
request that the decoder or an Unbound block rejects (30_encoding.md R78). -/

namespace Sys2Proof.Proofs

open Sys2Proof.Machine Sys2Proof.Safety Sys2Proof.Laws

/-! ### The requests the decoder accepts -/

/-- The fields of a request pass every check of the decoding procedure (30_encoding.md R80). -/
def FieldsOk (op : BitVec 3) (ax : BitVec 2) (rsv : BitVec 3) (per : Byte) (tmo : Word32) : Prop :=
  op ≠ 7#3 ∧ rsv = 0#3 ∧ (usesAxis op = true → ax ≠ 3#2) ∧ (usesAxis op = false → ax = 0#2) ∧
    (usesPeriod op = false → per = 0#8) ∧ (usesTimeout op = false → tmo = 0#32)

/-- A request that decodes, by its fields. -/
def Decodes (r : HostRequest) : Prop :=
  FieldsOk (reqOp r.word) (reqAxis r.word) (reqRsv r.word) (reqPeriod r.word) r.tmo

/-- The instruction the fields of a request name. -/
def namedInstr (r : HostRequest) : Instr :=
  instrOfOp (reqOp r.word) (axisOfField (reqAxis r.word)) (reqPeriod r.word) r.tmo

theorem decodeRequest_of_decodes {r : HostRequest} (h : Decodes r) : decodeRequest r = .ok (namedInstr r) := by
  obtain ⟨hop, hrsv, hnamed, hax, hper, htmo⟩ := h
  unfold decodeRequest
  rw [if_neg hop, if_neg (not_not.2 hrsv), if_neg fun h => hnamed h.1 h.2, if_neg fun h => h.2 (hax h.1),
    if_neg fun h => h.2 (hper h.1), if_neg fun h => h.2 (htmo h.1)]
  rfl

theorem decodes_of_decodeRequest {r : HostRequest} {i : Instr} (h : decodeRequest r = .ok i) : Decodes r := by
  unfold decodeRequest at h
  dsimp only at h
  split_ifs at h with hop hrsv hnamed hax hper htmo
  exact ⟨hop, not_not.1 hrsv, fun hu e => hnamed ⟨hu, e⟩, fun hu => by_contra fun e => hax ⟨hu, e⟩,
    fun hu => by_contra fun e => hper ⟨hu, e⟩, fun hu => by_contra fun e => htmo ⟨hu, e⟩⟩

theorem decodeRequest_eq_ok_iff {r : HostRequest} {i : Instr} :
    decodeRequest r = .ok i ↔ Decodes r ∧ namedInstr r = i := by
  refine ⟨fun h => ?_, fun ⟨hd, e⟩ => e ▸ decodeRequest_of_decodes hd⟩
  have hd := decodes_of_decodeRequest h
  rw [decodeRequest_of_decodes hd] at h
  exact ⟨hd, Except.ok.inj h⟩

/-- The operation numbers that are not reserved (30_encoding.md R74). -/
theorem opDefined_cases {op : BitVec 3} (h : op ≠ 7#3) :
    op = 0#3 ∨ op = 1#3 ∨ op = 2#3 ∨ op = 3#3 ∨ op = 4#3 ∨ op = 5#3 ∨ op = 6#3 := by
  revert op
  decide

/-- Fields that pass the checks are read back from the request word they make up. -/
theorem decodeRequest_requestWord {per : Byte} {ax : BitVec 2} {op : BitVec 3} {tmo : Word32}
    (h : FieldsOk op ax 0#3 per tmo) :
    decodeRequest ⟨requestWord per ax op, tmo⟩ = .ok (instrOfOp op (axisOfField ax) per tmo) := by
  rw [decodeRequest_of_decodes (by simpa [Decodes] using h), namedInstr]
  simp

/-- Fields that pass the checks are those of the encoding of the instruction they name: an operation's unused fields
are 0 (30_encoding.md R81). -/
theorem encode_instrOfOp {op : BitVec 3} {ax : BitVec 2} {per : Byte} {tmo : Word32} (h : FieldsOk op ax 0#3 per tmo) :
    encode (instrOfOp op (axisOfField ax) per tmo) = .request ⟨requestWord per ax op, tmo⟩ := by
  obtain ⟨hop, -, hnamed, hax, hper, htmo⟩ := h
  rcases opDefined_cases hop with rfl | rfl | rfl | rfl | rfl | rfl | rfl
  · simp [instrOfOp, encode, hnamed rfl, htmo rfl]
  · simp [instrOfOp, encode, hnamed rfl, htmo rfl]
  · simp [instrOfOp, encode, hax rfl]
  · simp [instrOfOp, encode, hax rfl, hper rfl, htmo rfl]
  · simp [instrOfOp, encode, hnamed rfl]
  · simp [instrOfOp, encode, hax rfl, hper rfl, htmo rfl]
  · simp [instrOfOp, encode, hax rfl, hper rfl, htmo rfl]

theorem encode_namedInstr {r : HostRequest} (h : Decodes r) : encode (namedInstr r) = .request r := by
  obtain ⟨-, hrsv, -⟩ := id h
  rw [Decodes, hrsv] at h
  rw [namedInstr, encode_instrOfOp h, requestWord_of_fields hrsv]

theorem wellFormed_of_isRequest {i : Instr} (h : IsRequest i) : WellFormed i = true := by
  rcases h with (⟨a, r, rfl⟩ | ⟨r, m, rfl⟩ | rfl | ⟨a, r, m, rfl⟩ | rfl) | ⟨a, r, rfl⟩ | rfl <;> rfl

/-! ### The command bytes the decoder accepts -/

theorem commandRankOk_iff (r : BitVec 4) : commandRankOk r = true ↔ r.toNat ≤ 7 := by
  simp [commandRankOk, BitVec.le_def]

theorem wellFormed_commandInstr (k : Axis) (r : BitVec 4) : WellFormed (commandInstr k r) = commandRankOk r := by
  cases k <;> rfl

/-- The two nibbles of a command byte are its rank and its select code (30_encoding.md R66, R67). -/
theorem encode_commandInstr (k : Axis) (r : BitVec 4) : encode (commandInstr k r) = .command (commandByte k r) := by
  revert r
  cases k <;> decide

theorem decodeCommand_commandByte (k : Axis) {r : BitVec 4} (h : commandRankOk r = true) :
    decodeCommand (commandByte k r) = .ok (commandInstr k r) := by
  revert r
  cases k <;> decide

theorem decode_encode_commandInstr (k : Axis) {r : BitVec 4} (h : commandRankOk r = true) :
    decode (encode (commandInstr k r)) = .ok (commandInstr k r) := by
  rw [encode_commandInstr]
  exact decodeCommand_commandByte k h

/-- A byte the decoder accepts is the encoding of the well-formed command it reads. -/
theorem encode_of_decodeCommand {b : Byte} {i : Instr} (h : decodeCommand b = .ok i) :
    WellFormed i = true ∧ encode i = .command b := by
  by_cases hl : LegalCommand b
  · obtain ⟨k, hd, hr, hb⟩ := decodeCommand_legal hl
    cases hd.symm.trans h
    exact ⟨(wellFormed_commandInstr k _).trans hr, (encode_commandInstr k _).trans (congrArg _ hb)⟩
  · obtain ⟨e, he⟩ := decodeCommand_illegal hl
    cases he.symm.trans h

/-! ### Decoding and encoding -/

/-- Settles O1: a request's fields are read back from its word, a command's nibbles from its byte. -/
theorem decodeOfEncode : Obligations.DecodeOfEncode := by
  intro i hw
  cases i with
  | encode axis rank | trigger axis rank | readAxis axis rank tmo =>
    refine (decodeRequest_requestWord ⟨?_, rfl, fun _ => axisField_ne_three axis, ?_, ?_, ?_⟩).trans ?_ <;>
      simp [usesAxis, usesPeriod, usesTimeout, instrOfOp]
  | await rank tmo =>
    refine (decodeRequest_requestWord ⟨?_, rfl, ?_, fun _ => rfl, ?_, ?_⟩).trans ?_ <;>
      simp [usesAxis, usesPeriod, usesTimeout, instrOfOp]
  | readResult | sampleAll | init => rfl
  | cmdX rank => exact decode_encode_commandInstr .x hw
  | cmdY rank => exact decode_encode_commandInstr .y hw
  | cmdZ rank => exact decode_encode_commandInstr .z hw

/-- Settles O2: what the decoder accepts has passed its checks, and these leave no bit free. -/
theorem encodeOfDecode : Obligations.EncodeOfDecode := by
  intro c i h
  cases c with
  | request r =>
    obtain ⟨hd, rfl⟩ := decodeRequest_eq_ok_iff.1 h
    exact ⟨wellFormed_of_isRequest (decodeRequest_isRequest h), encode_namedInstr hd⟩
  | command b => exact encode_of_decodeCommand h

/-- A request word by number (30_encoding.md R81). -/
theorem requestWord_eq_ofNat (per : Byte) (ax : BitVec 2) (op : BitVec 3) :
    requestWord per ax op = BitVec.ofNat 16 (256 * per.toNat + 8 * ax.toNat + op.toNat) := by
  rw [← requestWord_toNat, BitVec.ofNat_toNat, BitVec.setWidth_eq]

theorem axisField_toNat (a : Axis) : (axisField a).toNat = axisCode a - 1 := by cases a <;> rfl

/-- Settles O3: each word is its three fields by number. -/
theorem requestWordsByNumber : Obligations.RequestWordsByNumber := by
  intro axis rank tmo
  refine ⟨?_, ?_, ?_, rfl, ?_, rfl, rfl⟩ <;> simp [encode, requestWord_eq_ofNat, axisField_toNat]

/-- Settles O4: closed words, decoded. -/
theorem specWordsDecode : Obligations.SpecWordsDecode := by
  unfold Obligations.SpecWordsDecode
  decide

/-! ### Rejecting a request -/

/-- R78's list by the numbers of the fields: the decoder rejects, or the block is Unbound and the operation is neither
ENCODE nor INIT. -/
theorem requestRejected_iff (r : HostRequest) (b : Binding) :
    RequestRejected r b ↔ ¬ Decodes r ∨ (b = .unbound ∧ reqOp r.word ≠ 0#3 ∧ reqOp r.word ≠ 6#3) := by
  have hops : ∀ op : BitVec 3, (op.toNat = 7 ↔ op = 7#3) ∧ (op.toNat ∈ [0, 1, 4] ↔ usesAxis op = true) ∧
      (op.toNat ∈ [0, 1, 2, 4] ↔ usesPeriod op = true) ∧ (op.toNat ∈ [2, 4] ↔ usesTimeout op = true) ∧
      (op.toNat ∈ [0, 6] ↔ op = 0#3 ∨ op = 6#3) := by decide
  obtain ⟨h7, hax, hper, htmo, hfree⟩ := hops (reqOp r.word)
  have hzero : ∀ {n : Nat} {x : BitVec n}, x.toNat = 0 ↔ x = 0#n := by simp [BitVec.toNat_eq]
  have hthree : (reqAxis r.word).toNat = 3 ↔ reqAxis r.word = 3#2 := by simp [BitVec.toNat_eq]
  rw [RequestRejected, ← reqOp_toNat, ← reqAxis_toNat, ← reqRsv_toNat, ← reqPeriod_toNat]
  simp only [h7, hax, hper, htmo, hfree, hzero, hthree, Decodes, FieldsOk, ← Bool.not_eq_true, not_and_or, not_or,
    not_not, Classical.not_imp, ne_eq, or_assoc]

theorem step_undecoded {s : State} {r : HostRequest} {rest : List HostRequest} (hi : s.seq = .idle)
    (hr : s.requests = r :: rest) (hd : ¬ Decodes r) : step s = .next (reject { s with requests := rest }) := by
  cases he : decodeRequest r with
  | ok i => exact absurd (decodes_of_decodeRequest he) hd
  | error e => simp [step, fetch_idle hi hr, decode, he, rejectCode]

/-- Of the operations that decode only ENCODE and INIT do without bound pins (70_reset_and_hazards.md R187). -/
theorem needsBound_instrOfOp {op : BitVec 3} (axis : Axis) (per : Byte) (tmo : Word32) (h7 : op ≠ 7#3) :
    NeedsBound (instrOfOp op axis per tmo) ↔ op ≠ 0#3 ∧ op ≠ 6#3 := by
  rcases opDefined_cases h7 with rfl | rfl | rfl | rfl | rfl | rfl | rfl <;> simp [instrOfOp, NeedsBound]

/-- Settles O5: the decoder rejects the request, or it decodes to one that an Unbound block rejects. -/
theorem rejectedRequestChangesNothing : Obligations.RejectedRequestChangesNothing := by
  intro s r rest hi hr hrej
  have hstep : step s = .next (reject { s with requests := rest }) := by
    by_cases hd : Decodes r
    · obtain ⟨hu, hop⟩ := ((requestRejected_iff r s.bind).1 hrej).resolve_left (not_not.2 hd)
      rw [step_request hi hr (decodeRequest_of_decodes hd)]
      exact exec_needsBound_unbound hi hu ((needsBound_instrOfOp _ _ _ hd.1).2 hop)
    · exact step_undecoded hi hr hd
  rw [hstep, reject_eq { s with requests := rest } hi]

/-! ### Requests that are not rejected -/

/-- An axis read that has ended carries a status of its own parts. -/
theorem readAxisBody_ne_rejected {axis : Axis} {rank : Byte} {tmo : Word32} {s : State} {r : Status × Measurement}
    (h : (readAxisBody axis rank tmo s).1 = some r) : r.1 ≠ .rejected := by
  rcases readAxisBody_status axis rank tmo s r h with ⟨-, rfl⟩ | ⟨-, hok | rfl⟩
  · exact nofun
  · rw [hok]; exact nofun
  · exact nofun

/-- A pass that begins without a response ends with OK or is still without one (44_axis_sequencer.md R127). -/
theorem sampleFrom_response_ne_rejected (ks : List Axis) {s : State} (h : s.response = none) :
    (sampleFrom ks s).response ≠ some { status := .rejected } := by
  induction ks generalizing s with
  | nil => simp [sampleFrom, closeSample, sampleResponse]
  | cons k ks ih =>
    rcases sampleFrom_cons k ks s with ⟨r, -, e⟩ | ⟨-, e⟩
    · rw [e]
      exact ih (by simpa using h)
    · simp [e, h]

/-- A request that finds the pins it needs bound is not answered REJECTED (30_encoding.md R78). -/
theorem exec_response_ne_rejected {s t : State} {i : Instr} (hr : IsRequest i) (hb : NeedsBound i → s.bind ≠ .unbound)
    (h : exec i s = .next t) : t.response ≠ some { status := .rejected } := by
  cases i with
  | encode axis rank =>
    obtain ⟨-, ⟨-, rfl⟩ | ⟨-, rfl⟩⟩ := exec_encode_next h <;> simp
  | trigger axis rank =>
    obtain ⟨-, ⟨hu, -⟩ | ⟨-, -, rfl⟩ | ⟨-, -, -, rfl⟩⟩ := exec_trigger_next h
    · exact absurd hu (hb (by simp [NeedsBound]))
    · simp
    · simp
  | await rank tmo =>
    obtain ⟨-, ⟨hu, -⟩ | ⟨-, -, rfl⟩ | ⟨-, -, ⟨st, hst, rfl⟩ | ⟨-, rfl⟩⟩⟩ := exec_await_next h
    · exact absurd hu (hb (by simp [NeedsBound]))
    · simp
    · rcases pollLoop_status (s.drdyIn.length - 1 + 1) (startPoll rank tmo (accept s)) with e | e | e <;>
        cases hst.symm.trans e <;> simp
    · simp [awaitPoll, startPoll_eq]
  | readResult =>
    obtain ⟨-, ⟨hu, -⟩ | ⟨-, -, rfl⟩⟩ := exec_readResult_next h
    · exact absurd hu (hb (by simp [NeedsBound]))
    · simp
  | readAxis axis rank tmo =>
    obtain ⟨-, ⟨hu, -⟩ | ⟨-, -, ⟨r, hr, rfl⟩ | ⟨-, rfl⟩⟩⟩ := exec_readAxis_next h
    · exact absurd hu (hb (by simp [NeedsBound]))
    · simp [axisResponse, readAxisBody_ne_rejected hr]
    · simp
  | sampleAll =>
    obtain ⟨-, ⟨hu, -⟩ | ⟨-, -, rfl⟩⟩ := exec_sampleAll_next h
    · exact absurd hu (hb (by simp [NeedsBound]))
    · exact sampleFrom_response_ne_rejected axisOrder (by simp [openSample_eq])
  | init =>
    obtain ⟨-, rfl⟩ := exec_init_next h
    rcases throwawayRead_cases (bindPins (applyBusCfg (accept s))) with ⟨r, hr, e⟩ | ⟨-, e⟩
    · simp [e, initResponse, readAxisBody_ne_rejected hr]
    · rw [e]
      simp [bindPins_eq]
  | cmdX rank | cmdY rank | cmdZ rank => simp [IsRequest, NeedsBound] at hr

/-- Settles O6: a request R78 does not list decodes, and needs no bound pins or finds them bound. -/
theorem otherRequestsAreAdmitted : Obligations.OtherRequestsAreAdmitted := by
  intro s r rest hi hr hrej
  rw [requestRejected_iff, not_or, not_not] at hrej
  obtain ⟨hd, hbound⟩ := hrej
  have hdec := decodeRequest_of_decodes hd
  have hstep := step_request hi hr hdec
  refine ⟨_, hdec, encode_namedInstr hd, hstep, fun t h => ?_⟩
  exact exec_response_ne_rejected (s := { s with requests := rest }) (decodeRequest_isRequest hdec)
    (fun hn hu => hbound ⟨hu, (needsBound_instrOfOp _ _ _ hd.1).1 hn⟩) (hstep.symm.trans h)

end Sys2Proof.Proofs
end

