-- ==== Sys2Proof/Proofs/CommandBytes.lean ====
section
/-! The device command bytes: which the encoder gives (30_encoding.md R69), that no other is sent (30_encoding.md R70),
and what running one does (30_encoding.md R71, log 8). -/

namespace Sys2Proof.Proofs

open Sys2Proof.Machine Sys2Proof.Safety Sys2Proof.Laws

/-! ### The bytes of the encoder -/

theorem legalCommand_bits {b : Byte} (h : LegalCommand b) :
    b.getLsbD 7 = false ∧ b.getLsbD 3 = false ∧ b.getLsbD 2 = false := by
  have key : ∀ b : Byte, b &&& 0x8C#8 = 0#8 → b.getLsbD 7 = false ∧ b.getLsbD 3 = false ∧ b.getLsbD 2 = false := by
    decide
  exact key b h.1

/-- Each of the 24 command bytes is the encoder's, for the axis and the rank in its nibbles (30_encoding.md R66). -/
theorem exists_encodeCommand {b : Byte} (h : LegalCommand b) : ∃ axis rank, encodeCommand axis rank = some b := by
  obtain ⟨k, -, hr, hb⟩ := decodeCommand_legal h
  have hr := (commandRankOk_iff _).1 hr
  refine ⟨k, (b.extractLsb' 4 4).setWidth 8, ?_⟩
  have hn : ((b.extractLsb' 4 4).setWidth 8).toNat = (b.extractLsb' 4 4).toNat :=
    BitVec.toNat_setWidth_of_le (by decide)
  rw [encodeCommand_of_inRange k (rankOutOfRange_of_le (hn.trans_le hr)), hn, ← commandByte_eq k hr, hb]

/-- Settles O10: the encoder's bytes are the legal commands, which are counted. -/
theorem emittedCommandBytes : Obligations.EmittedCommandBytes :=
  ⟨fun _ _ _ h => legalCommand_bits (encodeCommand_legal h),
    fun _ => ⟨fun ⟨_, _, h⟩ => encodeCommand_legal h, exists_encodeCommand⟩, by decide⟩

/-! ### The byte at T_CMD -/

theorem legalCommand_of_trigOk {axis : Axis} {rank : Byte} {p : TrigPhase} {s : State} (h : TrigOk axis rank p s)
    (hp : axisSends (.trig p) = true) : LegalCommand s.cmd := by
  obtain rfl := axisSends_trig hp
  exact encodeCommand_legal h.1

theorem legalCommand_of_axisOk {axis : Axis} {rank : Byte} {p : AxisPhase} {s : State} (h : AxisOk axis rank p s)
    (hp : axisSends p = true) : LegalCommand s.cmd := by
  cases p with
  | trig q => exact legalCommand_of_trigOk h hp
  | wait q | read q => cases hp

/-- At a phase that sends, CMD is one of the 24 command bytes (41_conversion_trigger.md R91). -/
theorem legalCommand_of_inv {ph : Phase} {s : State} (h : Inv s) (hs : s.seq = .busy ph) (hp : sendsCommand ph = true) :
    LegalCommand s.cmd := by
  have hok := h.seqOk
  rw [SeqOk, hs] at hok
  cases ph with
  | trigger axis rank p => exact legalCommand_of_trigOk hok.2 hp
  | readAxis axis rank tmo p => exact legalCommand_of_axisOk hok.2 hp
  | sAxis k p => exact legalCommand_of_axisOk hok.2 hp
  | iRead p => exact legalCommand_of_axisOk hok.2 hp
  | _ => cases hp

/-! ### Running a command byte -/

theorem sendDeviceCommand_refused {r : BitVec 4} (k : Axis) (s : State) (h : 8 ≤ r.toNat) :
    sendDeviceCommand k r s = .refused .illegalCommandByte :=
  if_pos (by rw [← Bool.not_eq_true, commandRankOk_iff]; omega)

/-- A command byte of the block run at T_CMD is that phase, with the byte in CMD. -/
theorem sendDeviceCommand_atCommand {s : State} {ph : Phase} {r : BitVec 4} (k : Axis) (hs : s.seq = .busy ph)
    (hp : sendsCommand ph = true) (hr : r.toNat ≤ 7) :
    sendDeviceCommand k r s = phaseStep ph { s with cmd := commandNumber k r.toNat } := by
  rw [sendDeviceCommand, if_neg (by simp [(commandRankOk_iff r).2 hr]), commandByte_eq k hr, hs]
  exact if_pos hp

/-- Where nothing is at T_CMD it is sent and that is all (log 8). -/
theorem sendDeviceCommand_alone {s : State} {r : BitVec 4} (k : Axis)
    (hs : ∀ ph, s.seq = .busy ph → sendsCommand ph = false) (hr : r.toNat ≤ 7) :
    sendDeviceCommand k r s = .next (sendCommand { s with cmd := commandNumber k r.toNat }) := by
  rw [sendDeviceCommand, if_neg (by simp [(commandRankOk_iff r).2 hr]), commandByte_eq k hr]
  dsimp only
  split
  next ph h => rw [hs ph h]; rfl
  next => rfl

/-- Settles O16: the rank check, the decoder at T_CMD, and what the invariant promises there. -/
theorem illegalCommandRefused : Obligations.IllegalCommandRefused := by
  refine ⟨fun s k r h => ?_, fun s ph hs hp hl => ⟨?_, fun h => hl (legalCommand_of_inv h hs hp)⟩⟩
  · rw [exec_commandInstr, sendDeviceCommand_refused k s h]
  · obtain ⟨e, he⟩ := decodeCommand_illegal hl
    simp [step, fetch, hs, hp, decode, he, rejectCode]

/-- Settles O13: T_CMD is a trigger's last phase. -/
theorem commandByteEndsTrigger : Obligations.CommandByteEndsTrigger := by
  intro s axis k rank r hs hr
  rw [exec_commandInstr, sendDeviceCommand_atCommand k hs rfl hr]
  rfl

/-- Settles O14: a trigger that has ended with OK leads to its poll. -/
theorem commandByteLeadsToPoll : Obligations.CommandByteLeadsToPoll := by
  intro s axis k rank tmo r hr
  refine ⟨fun hs => ?_, fun hs => ?_, fun hs => ?_⟩ <;>
  · rw [exec_commandInstr, sendDeviceCommand_atCommand k hs rfl hr]
    rfl

/-- Settles O15: the one Xfer. -/
theorem commandByteAlone : Obligations.CommandByteAlone := by
  intro s k r hr hs
  rw [exec_commandInstr, sendDeviceCommand_alone k hs hr]
  rfl

end Sys2Proof.Proofs
end

