-- ==== Sys2Proof/Proofs/Traffic.lean ====
section
/-! What each phase sends, and that no step sends anything but placeholders and command bytes of the block
(20_memory.md R50, 30_encoding.md R70). -/

namespace Sys2Proof.Proofs

open Sys2Proof.Machine Sys2Proof.Safety Sys2Proof.Laws

/-! ### What a phase sends -/

/-- From `s` to `t` the trace grows by events whose every byte sent is the placeholder, or CMD where `command` allows it. -/
def Sends (command : Bool) (s t : State) : Prop :=
  ∃ ev, t.trace = s.trace ++ ev ∧
    ∀ out inp, Event.xfer out inp ∈ ev → out = placeholderByte ∨ (command = true ∧ out = s.cmd)

theorem sends_nothing {command : Bool} {s t : State} (h : t.trace = s.trace) : Sends command s t :=
  ⟨[], by simp [h], by simp⟩

/-- One event that is no transfer. -/
theorem sends_event {command : Bool} {s t : State} {e : Event} (h : t.trace = s.trace ++ [e])
    (he : ∀ out inp, e ≠ .xfer out inp) : Sends command s t :=
  ⟨[e], h, fun out inp hm => absurd (List.mem_singleton.1 hm).symm (he out inp)⟩

theorem sends_placeholder {command : Bool} {s t : State} {inp : Byte}
    (h : t.trace = s.trace ++ [.xfer placeholderByte inp]) :
    Sends command s t :=
  ⟨_, h, fun _ _ hm => by cases List.mem_singleton.1 hm; exact .inl rfl⟩

theorem sends_samples {command : Bool} {s t : State} {ev : List Event} (h : t.trace = s.trace ++ ev)
    (hs : ∀ e ∈ ev, isSample e = true) : Sends command s t :=
  ⟨ev, h, fun _ _ hm => absurd (hs _ hm) nofun⟩

theorem trigPhase_sends (axis : Axis) (rank : Byte) (p : TrigPhase) (s : State) :
    Sends (axisSends (.trig p)) s (trigPhase axis rank p s).2 := by
  cases p with
  | tCheck =>
    rw [trigPhase]
    cases encodeCommand axis rank <;> exact sends_nothing rfl
  | tSel | tRstHi | tHold | tRstLo => exact sends_event rfl fun _ _ => nofun
  | tCmd => exact ⟨_, rfl, fun _ _ hm => by cases List.mem_singleton.1 hm; exact .inr ⟨rfl, rfl⟩⟩

theorem waitPhase_sends {command : Bool} (rank : Byte) (tmo : Word32) (p : WaitPhase) (s : State) :
    Sends command s (waitPhase rank tmo p s).2 := by
  obtain ⟨-, -, -, -, -, -, -, -, -, -, -, -, -, ev, htr, hev⟩ := waitPhase_same rank tmo p s
  exact sends_samples htr hev

theorem readPhase_sends {command : Bool} (p : ReadPhase) (s : State) : Sends command s (readPhase p s).2 := by
  cases p with
  | rHi | rLo => exact sends_placeholder rfl
  | rDesel => exact sends_event rfl fun _ _ => nofun

theorem axisPhase_sends (axis : Axis) (rank : Byte) (tmo : Word32) (p : AxisPhase) (s : State) :
    Sends (axisSends p) s (axisPhase axis rank tmo p s).2 := by
  rw [axisPhase_snd]
  cases p with
  | trig q => exact trigPhase_sends axis rank q s
  | wait q => exact waitPhase_sends rank tmo q s
  | read q => exact readPhase_sends q s

/-- What follows a phase of a part records no event, if taking up the part's result records none. -/
theorem sends_onward {P R : Type} {command : Bool} {go : P → Phase} {fin : R → State → State} {s : State}
    {o : Onward P R × State} (h : Sends command s o.2) (hfin : ∀ r t, (fin r t).trace = t.trace) :
    Sends command s (onward go fin o) := by
  obtain ⟨ev, htr, hev⟩ := h
  refine ⟨ev, ?_, hev⟩
  obtain ⟨p | r, t⟩ := o
  · exact htr
  · exact (hfin r t).trans htr

theorem bindPhase_sends {command : Bool} (p : BindPhase) (s : State) : Sends command s (bindPhase p s) := by
  cases p <;> exact sends_event rfl fun _ _ => nofun

/-- A phase sends placeholders, and CMD only at T_CMD (10_state.md R32). -/
theorem phaseNext_sends (ph : Phase) (s : State) : Sends (sendsCommand ph) s (phaseNext ph s) := by
  cases ph with
  | trigger axis rank p =>
    rw [phaseNext_trigger]
    exact sends_onward (trigPhase_sends axis rank p s) fun _ _ => rfl
  | await rank tmo p =>
    rw [phaseNext_await]
    exact sends_onward (waitPhase_sends rank tmo p s) fun _ _ => rfl
  | readResult p =>
    rw [phaseNext_readResult]
    exact sends_onward (readPhase_sends p s) fun _ _ => rfl
  | readAxis axis rank tmo p =>
    rw [phaseNext_readAxis]
    exact sends_onward (axisPhase_sends axis rank tmo p s) fun _ _ => rfl
  | sAxis k p =>
    rw [phaseNext_sAxis]
    exact sends_onward (axisPhase_sends k _ _ p s) fun r t => latchAxis_trace t k r
  | iRead p =>
    rw [phaseNext_iRead]
    exact sends_onward (axisPhase_sends _ _ _ p s) fun _ _ => rfl
  | iBind p => exact bindPhase_sends p s
  | sInit => exact sends_nothing rfl
  | sSel | sSettle | sCfg | sDesel | iCfg => exact sends_event rfl fun _ _ => nofun

/-! ### What a step sends -/

/-- What holds of a state that begins a new trace, IDLE or at a request's first phase, and is kept by every phase of the
invariant is kept by every step: a request is answered from its acceptance on, through phases. -/
theorem step_induct {P : State → Prop}
    (hnew : ∀ s : State, s.trace = [] → (∀ ph, s.seq = .busy ph → ∃ i, firstPhase i = some ph) → P s)
    (hphase : ∀ (s : State) (ph : Phase), Inv s → s.seq = .busy ph → P s → P (phaseNext ph s)) {s t : State}
    (hinv : Inv s) (hp : P s) (h : step s = .next t) : P t := by
  rcases step_cases h with
    ⟨-, -, rfl⟩ | ⟨r, rest, -, -, -, rfl⟩ | ⟨r, rest, i, hi, -, hd, he⟩ | ⟨ph, hs, -, rfl⟩
  · exact hp
  · exact hnew _ rfl fun _ => nofun
  · rcases exec_request_cases (s := { s with requests := rest }) (decodeRequest_isRequest hd) hi he
      with ⟨q, rfl⟩ | ⟨ph, hf, hb, hreach⟩
    · exact hnew _ rfl fun _ => nofun
    · have hstart : Inv (goPhase ph (accept { s with requests := rest })) :=
        inv_firstPhase hf hi hb (inv_observation hi rfl hinv)
      have hpstart := hnew (goPhase ph (accept { s with requests := rest })) rfl fun _ e => by cases e; exact ⟨i, hf⟩
      exact (hreach.keeps (P := fun s => Inv s ∧ P s)
        (fun s ph hs _ ⟨hinv, hp⟩ => ⟨phaseNext_inv hinv hs, hphase s ph hinv hs hp⟩) ⟨hstart, hpstart⟩).2
  · exact hphase s ph hinv hs hp

theorem phaseNext_legalTraffic {s : State} {ph : Phase} (hinv : Inv s) (hs : s.seq = .busy ph)
    (h : LegalTraffic s.trace) : LegalTraffic (phaseNext ph s).trace := by
  obtain ⟨ev, htr, hev⟩ := phaseNext_sends ph s
  intro out inp hm
  rw [htr, List.mem_append] at hm
  rcases hm with hm | hm
  · exact h out inp hm
  · exact (hev out inp hm).imp_right fun ⟨hp, e⟩ => e ▸ legalCommand_of_inv hinv hs hp

/-- Settles O19: a phase sends placeholders or, at T_CMD, CMD, which the invariant makes a legal command. -/
theorem trafficStaysLegal : Obligations.TrafficStaysLegal := fun _ _ hinv htr h =>
  step_induct (P := fun s => LegalTraffic s.trace) (fun _ e _ _ _ hm => by rw [e] at hm; cases hm)
    (fun _ _ hinv hs h => phaseNext_legalTraffic hinv hs h) hinv htr h

end Sys2Proof.Proofs
end

