-- ==== Sys2Proof/Proofs/CommandEncoder.lean ====
section
/-! ENCODE and the encoder (40_command_encoder.md R86, R87): the nibbles of the byte it gives, and the requests that
answer at once, having only been accepted. -/

namespace Sys2Proof.Proofs

open Sys2Proof.Machine Sys2Proof.Safety Sys2Proof.Laws

/-! ### The nibbles of a command byte -/

/-- A select code plus 16 times a rank in range fits in the byte. -/
theorem commandNumber_toNat (axis : Axis) {n : Nat} (h : n ≤ 7) :
    (commandNumber axis n).toNat = axisCode axis + 16 * n := by
  rw [commandNumber, BitVec.toNat_ofNat]
  cases axis <;> simp only [axisCode] <;> omega

theorem commandNumber_lowNibble (axis : Axis) {n : Nat} (h : n ≤ 7) :
    (commandNumber axis n).toNat % 16 = axisCode axis := by
  rw [commandNumber_toNat axis h]
  cases axis <;> simp only [axisCode] <;> omega

theorem commandNumber_highNibble (axis : Axis) {n : Nat} (h : n ≤ 7) : (commandNumber axis n).toNat / 16 = n := by
  rw [commandNumber_toNat axis h]
  cases axis <;> simp only [axisCode] <;> omega

/-! ### Requests answered at their acceptance -/

/-- A response given at the acceptance of an IDLE block's request changes the observation only. -/
theorem respond_accept {s : State} (r : Response) (hi : s.seq = .idle) :
    respond r (accept s) = { s with trace := [], response := some r } := by
  rw [respond, accept, ← hi]

theorem exec_encode_inRange {s : State} {rank : Byte} (axis : Axis) (hi : s.seq = .idle)
    (h : rankOutOfRange rank = false) :
    exec (.encode axis rank) s =
      .next { s with trace := [], response := some { status := .ok, cmd8 := commandNumber axis rank.toNat } } := by
  rw [exec_encode, admitted_of_idle (nb := false) hi nofun, encodeCommand_of_inRange axis h, ← respond_accept _ hi]

theorem exec_encode_outOfRange {s : State} {rank : Byte} (axis : Axis) (hi : s.seq = .idle)
    (h : rankOutOfRange rank = true) :
    exec (.encode axis rank) s = .next { s with trace := [], response := some { status := .invalidPeriod } } := by
  rw [exec_encode, admitted_of_idle (nb := false) hi nofun, (encodeCommand_eq_none_iff axis rank).2 h,
    ← respond_accept _ hi, endWith]

/-- A trigger whose encoder fails drives no pin, so it needs neither to be an output (41_conversion_trigger.md R91). -/
theorem exec_trigger_outOfRange {s : State} {rank : Byte} (axis : Axis) (hi : s.seq = .idle) (hb : s.bind = .bound)
    (h : rankOutOfRange rank = true) :
    exec (.trigger axis rank) s = .next { s with trace := [], response := some { status := .invalidPeriod } } := by
  have hpins : (triggerDrives rank).all (isOutput (accept s)) = true :=
    triggerDrives_all.2 fun hin => absurd (h.symm.trans hin) nofun
  rw [exec_trigger, admitted_of_idle hi fun _ => hb, guardPins_of_all hpins, triggerBody_outOfRange axis _ h,
    ← respond_accept _ hi, endWith]

/-- Settles O9: in range the byte is the command number, whose nibbles are known; out of range the encoder fails, and
with it ENCODE and TRIGGER before any event. -/
theorem encoderNibbles : Obligations.EncoderNibbles := by
  refine fun axis rank => ⟨fun hle => ?inRange, fun hge => ?outOfRange⟩
  case inRange =>
    exact ⟨commandNumber axis rank.toNat, encodeCommand_of_inRange axis (rankOutOfRange_of_le hle),
      commandNumber_lowNibble axis hle, commandNumber_highNibble axis hle⟩
  case outOfRange =>
    have hout := rankOutOfRange_of_ge hge
    exact ⟨(encodeCommand_eq_none_iff axis rank).2 hout, fun _ hi =>
      ⟨exec_encode_outOfRange axis hi hout, fun hb => exec_trigger_outOfRange axis hi hb hout⟩⟩

/-- Settles O11: a rank up to 7 is in range, Bound or not. -/
theorem encodeCompletes : Obligations.EncodeCompletes := fun _ axis _ hi hle =>
  exec_encode_inRange axis hi (rankOutOfRange_of_le hle)

end Sys2Proof.Proofs
end

section
/-! The conversion trigger: what TRIGGER comes to (41_conversion_trigger.md R91, R92), and that a command byte is sent
only right after its select and one reset pulse (41_conversion_trigger.md R93). -/

namespace Sys2Proof.Proofs

open Sys2Proof.Machine Sys2Proof.Safety Sys2Proof.Laws

/-! ### The whole trigger -/

/-- Settles O17: the request is admitted, both its pins are outputs, and its body is a successful trigger. -/
theorem triggerCompletes : Obligations.TriggerCompletes := by
  rintro s axis rank ⟨hi, hb, hp⟩ hle
  rw [exec_trigger, admitted_of_idle hi fun _ => hb, guardPins_of_output (s := accept s) hp,
    triggerBody_inRange axis _ (rankOutOfRange_of_le hle), endWith, respond, ← hi]
  rfl

/-! ### The part of the select and the pulse behind a trigger -/

/-- The trace ends with what a trigger at phase `p` has done so far. -/
def PulseSoFar (p : TrigPhase) (tr : List Event) : Prop := ∃ earlier, tr = earlier ++ armedSoFar p

theorem pulseSoFar_tCheck (tr : List Event) : PulseSoFar .tCheck tr := ⟨tr, (List.append_nil tr).symm⟩

/-- An event that the phase `q` asks for beyond `p` leads from `p` to `q`. -/
theorem PulseSoFar.snoc {p q : TrigPhase} {tr : List Event} {e : Event} (h : PulseSoFar p tr)
    (he : armedSoFar q = armedSoFar p ++ [e]) : PulseSoFar q (tr ++ [e]) := by
  obtain ⟨earlier, rfl⟩ := h
  exact ⟨earlier, by rw [he, List.append_assoc]⟩

/-- A trigger's phase does the next event of the select and the pulse (41_conversion_trigger.md R90, R91). -/
theorem trigPhase_pulseSoFar {axis : Axis} {rank : Byte} {p : TrigPhase} {s : State} (h : PulseSoFar p s.trace) :
    OnwardOk (fun q t => PulseSoFar q t.trace) (fun _ _ => True) (trigPhase axis rank p s) := by
  cases p with
  | tCheck =>
    rw [trigPhase]
    cases encodeCommand axis rank with
    | none => trivial
    | some c => exact h
  | tSel | tRstHi | tHold | tRstLo => exact h.snoc rfl
  | tCmd => trivial

/-- A single-axis read in its trigger has that trigger's part of the select and the pulse behind it. -/
def AxisPulse (p : AxisPhase) (s : State) : Prop := ∀ q, p = .trig q → PulseSoFar q s.trace

/-- Of a single-axis read only its trigger's phases lead to a trigger's phase (44_axis_sequencer.md R125). -/
theorem axisPhase_axisPulse {axis : Axis} {rank : Byte} (tmo : Word32) {p : AxisPhase} {s : State} (h : AxisPulse p s) :
    OnwardOk AxisPulse (fun _ _ => True) (axisPhase axis rank tmo p s) := by
  cases p with
  | trig q =>
    have hk := trigPhase_pulseSoFar (axis := axis) (rank := rank) (h q rfl)
    rcases e : trigPhase axis rank q s with ⟨q' | st, t⟩ <;> rw [e] at hk <;> simp only [axisPhase, e]
    · rintro _ ⟨⟩
      exact hk
    · cases st
      case ok => exact fun _ => nofun
      all_goals trivial
  | wait q =>
    rcases e : waitPhase rank tmo q s with ⟨q' | st, t⟩ <;> simp only [axisPhase, e]
    · exact fun _ => nofun
    · cases st
      case ok => exact fun _ => nofun
      all_goals trivial
  | read q =>
    rcases e : readPhase q s with ⟨q' | m, t⟩ <;> simp only [axisPhase, e]
    · exact fun _ => nofun
    · trivial

/-- A trigger in progress has its part of the select and the pulse behind it. -/
def TriggerPulse (s : State) : Prop := ∀ ph p, s.seq = .busy ph → trigPhaseOf ph = some p → PulseSoFar p s.trace

theorem triggerPulse_goPhase {ph : Phase} {s : State} (h : ∀ p, trigPhaseOf ph = some p → PulseSoFar p s.trace) :
    TriggerPulse (goPhase ph s) := by
  rintro _ p ⟨⟩
  exact h p

/-- Outside a trigger, and at its start, nothing is asked of the trace. -/
theorem triggerPulse_goPhase_of_noPulse {ph : Phase} (s : State)
    (h : trigPhaseOf ph = none ∨ trigPhaseOf ph = some .tCheck) : TriggerPulse (goPhase ph s) := by
  refine triggerPulse_goPhase fun p hp => ?_
  rw [hp] at h
  obtain rfl : p = .tCheck := by simpa using h
  exact pulseSoFar_tCheck _

theorem triggerPulse_respond (r : Response) (s : State) : TriggerPulse (respond r s) := fun _ _ => nofun

/-- A single-axis read in a request whose phases `go` hold it. -/
theorem triggerPulse_onward_axis {R : Type} {go : AxisPhase → Phase} {fin : R → State → State}
    {o : Onward AxisPhase R × State} (hgo : ∀ q p, trigPhaseOf (go q) = some p → q = .trig p)
    (hfin : ∀ r t, TriggerPulse (fin r t)) (h : OnwardOk AxisPulse (fun _ _ => True) o) :
    TriggerPulse (onward go fin o) := by
  obtain ⟨q | r, t⟩ := o
  · exact triggerPulse_goPhase fun p hp => h p (hgo q p hp)
  · exact hfin r t

/-- A part of a request that is no trigger and holds none. -/
theorem triggerPulse_onward_other {P R : Type} {go : P → Phase} {fin : R → Response} (o : Onward P R × State)
    (hgo : ∀ q, trigPhaseOf (go q) = none) : TriggerPulse (onward go (fun r => respond (fin r)) o) := by
  obtain ⟨q | r, t⟩ := o
  · exact triggerPulse_goPhase_of_noPulse t (.inl (hgo q))
  · exact triggerPulse_respond _ t

/-- Every phase keeps it: a trigger's phases build up the select and the pulse, and every trigger starts at T_CHECK. -/
theorem phaseNext_triggerPulse {s : State} {ph : Phase} (hs : s.seq = .busy ph) (h : TriggerPulse s) :
    TriggerPulse (phaseNext ph s) := by
  have h := h ph
  cases ph with
  | trigger axis rank p =>
    have hk := trigPhase_pulseSoFar (axis := axis) (rank := rank) (h p hs rfl)
    rw [phaseNext_trigger]
    exact onward_induct (trigPhase_quiet axis rank p s) hk
      (fun _ _ _ hq => triggerPulse_goPhase fun _ e => by cases e; exact hq) fun _ _ _ _ => triggerPulse_respond _ _
  | readAxis axis rank tmo p =>
    rw [phaseNext_readAxis]
    exact triggerPulse_onward_axis (fun q _ e => by cases q <;> cases e; rfl) (fun _ _ => triggerPulse_respond _ _)
      (axisPhase_axisPulse tmo fun q e => h q hs (by rw [e]; rfl))
  | iRead p =>
    rw [phaseNext_iRead]
    exact triggerPulse_onward_axis (fun q _ e => by cases q <;> cases e; rfl) (fun _ _ => triggerPulse_respond _ _)
      (axisPhase_axisPulse useDefault fun q e => h q hs (by rw [e]; rfl))
  | sAxis k p =>
    rw [phaseNext_sAxis]
    exact triggerPulse_onward_axis (fun q _ e => by cases q <;> cases e; rfl)
      (fun _ _ => triggerPulse_goPhase_of_noPulse _ (by cases k <;> simp [afterAxis, trigPhaseOf]))
      (axisPhase_axisPulse useDefault fun q e => h q hs (by rw [e]; rfl))
  | await rank tmo p =>
    rw [phaseNext_await]
    exact triggerPulse_onward_other _ fun _ => rfl
  | readResult p =>
    rw [phaseNext_readResult]
    exact triggerPulse_onward_other _ fun _ => rfl
  | iBind p =>
    cases p with
    | bDirDrdy | bDirRst | bDirCs | bCsHi => exact triggerPulse_goPhase_of_noPulse _ (.inl rfl)
    | bRstLo => exact triggerPulse_goPhase_of_noPulse _ (.inr rfl)
  | sInit | sSel | sSettle | iCfg => exact triggerPulse_goPhase_of_noPulse _ (.inl rfl)
  | sCfg => exact triggerPulse_goPhase_of_noPulse _ (.inr rfl)
  | sDesel => exact triggerPulse_respond _ _

/-! ### Armed traces -/

/-- One more event keeps a trace armed if, being a command byte, it comes right after the select and the pulse. -/
theorem armed_snoc {tr : List Event} {e : Event} (h : Armed tr)
    (he : ∀ out inp, e = .xfer out inp → out ≠ placeholderByte → PulseSoFar .tCmd tr) : Armed (tr ++ [e]) := by
  intro before out inp after heq hne
  rcases List.eq_nil_or_concat after with rfl | ⟨after, e', rfl⟩
  · obtain ⟨rfl, hlast⟩ := List.append_inj' heq rfl
    exact he out inp (List.singleton_inj.1 hlast) hne
  · rw [List.concat_eq_append, ← List.cons_append, ← List.append_assoc] at heq
    exact h before out inp after (List.append_inj_left' heq rfl) hne

/-- What sends placeholders only keeps a trace armed. -/
theorem Sends.armed {s t : State} (hsend : Sends false s t) (h : Armed s.trace) : Armed t.trace := by
  obtain ⟨ev, htr, hev⟩ := hsend
  rw [htr]
  clear htr
  induction ev using List.reverseRecOn with
  | nil => rwa [List.append_nil]
  | append_singleton ev e ih =>
    rw [← List.append_assoc]
    refine armed_snoc (ih fun out inp hm => hev out inp (List.mem_append_left _ hm)) ?_
    rintro out inp rfl hne
    exact absurd ((hev out inp (by simp)).resolve_right nofun) hne

/-- A phase that sends the command byte is T_CMD of a trigger, and the byte is its one event. -/
theorem phaseNext_of_sendsCommand {ph : Phase} (s : State) (h : sendsCommand ph = true) :
    trigPhaseOf ph = some .tCmd ∧ (phaseNext ph s).trace = s.trace ++ [.xfer s.cmd (drawByte s).1] := by
  have axis_tCmd {p : AxisPhase} (h : axisSends p = true) : p = .trig .tCmd := by
    cases p with
    | trig q => rw [axisSends_trig h]
    | wait q | read q => cases h
  cases ph with
  | trigger axis rank p =>
    obtain rfl := axisSends_trig h
    exact ⟨rfl, rfl⟩
  | readAxis _ _ _ p | sAxis _ p | iRead p =>
    obtain rfl := axis_tCmd h
    exact ⟨rfl, rfl⟩
  | _ => cases h

/-- Every phase keeps the trace armed: only T_CMD sends a command byte, and it has the whole pulse behind it. -/
theorem phaseNext_armed {s : State} {ph : Phase} (hs : s.seq = .busy ph) (ha : Armed s.trace) (hp : TriggerPulse s) :
    Armed (phaseNext ph s).trace := by
  cases hc : sendsCommand ph
  case false =>
    have hsend := phaseNext_sends ph s
    rw [hc] at hsend
    exact hsend.armed ha
  case true =>
    obtain ⟨hph, htr⟩ := phaseNext_of_sendsCommand s hc
    rw [htr]
    exact armed_snoc ha fun _ _ _ _ => hp ph .tCmd hs hph

/-- A request whose first phase is a trigger's starts at T_CHECK (10_state.md R32). -/
theorem trigPhaseOf_firstPhase {i : Instr} {ph : Phase} {p : TrigPhase} (hf : firstPhase i = some ph)
    (hp : trigPhaseOf ph = some p) : p = .tCheck := by
  cases i <;> cases hf <;> cases hp <;> rfl

/-- Settles O18: a new trace is empty and a request starts before any pulse; from there every phase keeps the trace armed
and the pulse of a trigger in progress behind it. -/
theorem commandsFollowResetPulse : Obligations.CommandsFollowResetPulse := by
  intro s t hinv hs hstep
  refine step_induct (P := ArmedSoFar) (fun s htr hfirst => ⟨?noByte, fun ph p hph hp => ?start⟩)
    (fun _ _ _ hph ⟨ha, hp⟩ => ⟨phaseNext_armed hph ha hp, phaseNext_triggerPulse hph hp⟩) hinv hs hstep
  case noByte =>
    intro before out inp after e
    exact absurd (htr.symm.trans e) (by simp)
  case start =>
    obtain ⟨i, hf⟩ := hfirst ph hph
    rw [trigPhaseOf_firstPhase hf hp]
    exact pulseSoFar_tCheck s.trace

end Sys2Proof.Proofs
end

section
/-! The ready poll and AWAIT: how a timeout resolves and what elapsed time is (42_ready_poll.md R100, R104), and what an
AWAIT comes to: its outcomes, with the answers lined up its whole next state, and its frame (42_ready_poll.md R102 to
R108). -/

namespace Sys2Proof.Proofs

open Sys2Proof.Machine Sys2Proof.Safety Sys2Proof.Laws

/-! ### Timeouts and elapsed time -/

/-- Settles O20: the eight ranks of the table one by one, and only the sentinel is looked up. -/
theorem timeoutResolution : Obligations.TimeoutResolution :=
  ⟨by decide, fun _ _ h => if_neg h⟩

/-- Settles O21: the counts differ by the true difference, of which the word keeps the value modulo 2^32. -/
theorem elapsedIsModular : Obligations.ElapsedIsModular := by
  intro a b hle
  obtain ⟨d, rfl⟩ := Nat.exists_eq_add_of_le hle
  rw [Nat.add_sub_cancel_left]
  exact ⟨elapsed_toNat a d, fun hd => (elapsed_toNat a d).trans (Nat.mod_eq_of_lt hd)⟩

/-! ### AWAIT by the outcome of its poll -/

section
variable {s : State} {rank : Byte} {tmo : Word32} (hi : s.seq = .idle) (hb : s.bind = .bound)
  (hr : rankOutOfRange rank = false)
include hi hb hr

/-- An AWAIT whose poll has ended answers with the poll's status. -/
theorem exec_await_ended {st : Status} (h : (awaitPoll rank tmo s).1 = some st) :
    exec (.await rank tmo) s = .next (endWith st (awaitPoll rank tmo s).2) := by
  have hp : awaitBody rank tmo (accept s) = (some st, (awaitPoll rank tmo s).2) :=
    (awaitBody_inRange tmo (accept s) hr).trans (Prod.ext h rfl)
  rw [exec_await, admitted_of_idle hi fun _ => hb, hp]

/-- An AWAIT whose poll goes on leaves the block BUSY at its next sample (log 7). -/
theorem exec_await_goesOn (h : (awaitPoll rank tmo s).1 = none) :
    exec (.await rank tmo) s = .next (goPhase (.await rank tmo .aSample) (awaitPoll rank tmo s).2) := by
  have hp : awaitBody rank tmo (accept s) = (none, (awaitPoll rank tmo s).2) :=
    (awaitBody_inRange tmo (accept s) hr).trans (Prod.ext h rfl)
  rw [exec_await, admitted_of_idle hi fun _ => hb, hp]

end

/-! ### AWAIT with its answers lined up -/

/-- An AWAIT in progress after T0, captured `g` after its acceptance, and inactive samples within the deadline, with
`restL` and `restG` still lined up. -/
def awaitWaited (rank : Byte) (tmo : Word32) (g : Nat) (ls restL : List Level) (gs restG : List Nat) (s : State) :
    State :=
  { s with
    tRes := resolveTimeout (rankOf rank) tmo
    t0 := timerCount (s.tau + g)
    drdyIn := restL
    gapIn := restG
    tau := s.tau + g + gs.sum
    draws := s.draws + 2 * gs.length + 1
    trace := .timeSample (timerCount (s.tau + g)) :: turnEvents (s.tau + g) ls gs
    response := none }

/-- An AWAIT waits through inactive samples within the deadline. -/
theorem awaitPoll_waits {s : State} {g : Nat} {ls restL : List Level} {l : Level} {gs restG : List Nat} (rank : Byte)
    (tmo : Word32) (hl : s.drdyIn = ls ++ l :: restL) (hg : s.gapIn = g :: (gs ++ restG)) (hlen : ls.length = gs.length)
    (hn : NoneReady ls) (hw : WithinDeadline (resolveTimeout (rankOf rank) tmo) gs) :
    awaitPoll rank tmo s = pollLoop (restL.length + 1) (awaitWaited rank tmo g ls (l :: restL) gs restG s) := by
  have hgap : (drawGap (accept s)).1 = g := drawGap_of_cons (s := accept s) hg
  have hturns : s.drdyIn.length - 1 + 1 = ls.length + (restL.length + 1) := by
    rw [hl, List.length_append, List.length_cons]
    omega
  rw [awaitPoll, hturns, pollLoop_waits ls gs (l :: restL) restG _ _ 0 hlen (by simpa [startPoll_eq] using hl)
    (by simp [startPoll_eq, hg]) hn rfl (Nat.zero_le _) (by simpa [startPoll_eq, WithinDeadline] using hw)]
  congr 1
  ext1 <;> simp [startPoll_eq, awaitWaited, hgap]
  omega

/-- The events of one more turn come after those of the turns before it. -/
theorem turnEvents_snoc (tau : Nat) {ls : List Level} {gs : List Nat} (l : Level) (d : Nat)
    (hlen : ls.length = gs.length) :
    turnEvents tau (ls ++ [l]) (gs ++ [d]) =
      turnEvents tau ls gs ++ [.drdySample l, .timeSample (timerCount (tau + gs.sum + d))] := by
  induction ls generalizing tau gs with
  | nil =>
    obtain rfl := List.eq_nil_of_length_eq_zero hlen.symm
    rfl
  | cons l' ls ih =>
    cases gs with
    | nil => cases hlen
    | cons g gs =>
      simp only [List.cons_append, turnEvents, ih (tau + g) (Nat.succ.inj hlen), List.sum_cons, Nat.add_assoc]

/-- Settles O22: the poll waits through the inactive samples, and the turn after them sees the active level. -/
theorem awaitCompletesReady : Obligations.AwaitCompletesReady := by
  intro s rank tmo g ls restL gs restG hi hb hle hl hg hlen hn hw
  have hpoll := awaitPoll_waits rank tmo hl hg hlen hn hw
  have hturn := pollTurn_seesReady (s := awaitWaited rank tmo g ls (Config.drdyActiveLevel :: restL) gs restG s) rfl
  rw [pollLoop_succ_of_some _ (congrArg Prod.fst hturn), hturn] at hpoll
  rw [exec_await_ended hi hb (rankOutOfRange_of_le hle) (congrArg Prod.fst hpoll), hpoll, endWith, respond, ← hi]
  rfl

/-- Settles O23: the poll waits through the samples within the deadline, and the turn after them finds it passed. -/
theorem awaitTimesOut : Obligations.AwaitTimesOut := by
  intro s rank tmo g d ls restL l gs restG hi hb hle hl hg hlen hn hne hw hd
  have hpoll := awaitPoll_waits rank tmo hl hg hlen hn hw
  have hturn := pollTurn_seesNotReady (s := awaitWaited rank tmo g ls (l :: restL) gs (d :: restG) s) rfl rfl hne
  rw [if_pos ?past] at hturn
  case past =>
    rw [pastDeadline_iff]
    show _ < (elapsed (timerCount (s.tau + g + gs.sum + d)) (timerCount (s.tau + g))).toNat
    rw [Nat.add_assoc (s.tau + g), elapsed_toNat]
    exact hd
  rw [pollLoop_succ_of_some _ (congrArg Prod.fst hturn), hturn] at hpoll
  rw [exec_await_ended hi hb (rankOutOfRange_of_le hle) (congrArg Prod.fst hpoll), hpoll, endWith, respond, ← hi,
    turnEvents_snoc _ l d hlen]
  rfl

/-! ### AWAIT whatever the answers -/

/-- The trace of an AWAIT: the timer sample that T0 holds, then the events of its poll's turns. -/
theorem awaitPoll_events (rank : Byte) (tmo : Word32) (s : State) :
    ∃ ev, PollEvents (startPoll rank tmo (accept s)) (awaitPoll rank tmo s) ev ∧
      (awaitPoll rank tmo s).2.trace = .timeSample (awaitPoll rank tmo s).2.t0 :: ev := by
  obtain ⟨ev, hev⟩ := pollLoop_events (s.drdyIn.length - 1) (startPoll rank tmo (accept s))
  exact ⟨ev, hev, by rw [awaitPoll, hev.1, pollLoop_t0]; rfl⟩

theorem awaitPoll_response (rank : Byte) (tmo : Word32) (s : State) : (awaitPoll rank tmo s).2.response = none :=
  pollLoop_response _ _

/-- Settles O24: the three ways a poll's turns can end, each with its last event. -/
theorem awaitOutcomes : Obligations.AwaitOutcomes := by
  intro s rank tmo hi hb hle
  have hr := rankOutOfRange_of_le hle
  obtain ⟨ev, ⟨-, -, hnone, hlast⟩, htr⟩ := awaitPoll_events rank tmo s
  have hres : (awaitPoll rank tmo s).2.tRes = (startPoll rank tmo (accept s)).tRes := pollLoop_tRes _ _
  have ht0 : (awaitPoll rank tmo s).2.t0 = (startPoll rank tmo (accept s)).t0 := pollLoop_t0 _ _
  rw [← hres, ← ht0] at hlast
  have hne : ev ≠ [] := by rintro rfl; simp at hlast
  have hhead : (awaitPoll rank tmo s).2.trace.head? = some (.timeSample (awaitPoll rank tmo s).2.t0) := by rw [htr]; rfl
  have hinactive : ∀ l, Event.drdySample l ∈ (awaitPoll rank tmo s).2.trace.dropLast → l ≠ Config.drdyActiveLevel := by
    rw [htr, List.dropLast_cons_of_ne_nil hne]
    exact fun l hl => hnone l (by simpa using hl)
  have hlastOf : (awaitPoll rank tmo s).2.trace.getLast? = ev.getLast? := by
    rw [htr, List.getLast?_cons_of_ne_nil hne]
  rcases hlast with ⟨hst, hev⟩ | ⟨hst, hev, hd⟩ | ⟨hst, hev, hd⟩
  case inl =>
    exact ⟨_, exec_await_ended hi hb hr hst, hres, hhead, hinactive, .inl ⟨rfl, rfl, hlastOf.trans hev⟩⟩
  case inr.inl =>
    exact ⟨_, exec_await_ended hi hb hr hst, hres, hhead, hinactive, .inr (.inl ⟨rfl, rfl, _, hlastOf.trans hev, hd⟩)⟩
  case inr.inr =>
    exact ⟨_, exec_await_goesOn hi hb hr hst, hres, hhead, hinactive,
      .inr (.inr ⟨rfl, awaitPoll_response _ _ _, _, hlastOf.trans hev, hd⟩)⟩

/-- A poll of an AWAIT changes T_RES, T0, the agents' answers, the time and the observation. -/
theorem awaitPoll_frame (rank : Byte) (tmo : Word32) (s : State) :
    let t := (awaitPoll rank tmo s).2
    t = { s with tRes := t.tRes, t0 := t.t0, trace := t.trace, response := t.response, drdyIn := t.drdyIn,
                 gapIn := t.gapIn, tau := t.tau, draws := t.draws } := by
  ext1 <;> simp [awaitPoll, startPoll_eq]

/-- Settles O25: out of range nothing happens, and in range only the poll does. -/
theorem awaitFrame : Obligations.AwaitFrame := by
  intro s t rank tmo hb h
  obtain ⟨ev, ⟨-, hsamples, -⟩, htr⟩ := awaitPoll_events rank tmo s
  have hall : ∀ e ∈ (awaitPoll rank tmo s).2.trace, isSample e = true := by
    rw [htr]
    exact List.forall_mem_cons.2 ⟨rfl, hsamples⟩
  have hframe := awaitPoll_frame rank tmo s
  obtain ⟨-, ⟨hu, -⟩ | ⟨-, -, rfl⟩ | ⟨-, -, ⟨st, -, rfl⟩ | ⟨-, rfl⟩⟩⟩ := exec_await_next h
  · exact absurd (hb.symm.trans hu) nofun
  · exact ⟨nofun, rfl⟩
  · exact ⟨hall, congrArg (endWith st) hframe⟩
  · exact ⟨hall, congrArg (goPhase _) hframe⟩

end Sys2Proof.Proofs
end

section
/-! The end of every poll: what the phases of a poll come to, of an AWAIT, a READ_AXIS, an axis of a SAMPLE_ALL and INIT's
read alike, and that a poll whose timer samples lie close enough ends once its deadline has passed, unless it has the
largest timeout (42_ready_poll.md R103 to R107). -/

namespace Sys2Proof.Proofs

open Sys2Proof.Machine Sys2Proof.Safety Sys2Proof.Laws

/-! ### The phases of any poll -/

/-- The rank of a poll (44_axis_sequencer.md R127, 45_initialization.md R146). -/
def pollRank : Poll → Byte
  | .ofAwait rank _ => rank
  | .ofReadAxis _ rank _ => rank
  | .ofSample _ => samplePeriod
  | .ofInit => initPeriod

/-- The timeout operand of a poll. -/
def pollTimeout : Poll → Word32
  | .ofAwait _ tmo => tmo
  | .ofReadAxis _ _ tmo => tmo
  | .ofSample _ => useDefault
  | .ofInit => useDefault

/-- What the request of a poll that failed does next (42_ready_poll.md R102, 44_axis_sequencer.md R125, R127 to R129,
45_initialization.md R147). -/
def afterFailure : Poll → Status → State → State
  | .ofAwait _ _, e, s => endWith e s
  | .ofReadAxis _ _ _, e, s => respond (axisResponse (e, 0#16)) s
  | .ofSample k, e, s => goPhase (afterAxis k) (latchAxis k (e, 0#16) s)
  | .ofInit, e, s => respond (initResponse e) s

/-- What the request of a poll that has ended does next. -/
def afterPoll (p : Poll) : Status → State → State
  | .ok, s => afterReady p s
  | e, s => afterFailure p e s

theorem afterPoll_timeout (p : Poll) (s : State) : afterPoll p .timeout s = afterDeadline p s := by
  rcases p with _ | _ | (_ | _ | _) | _ <;> rfl

/-- What follows a poll does not look at SEQ. -/
theorem afterPoll_goPhase (p : Poll) (st : Status) (ph : Phase) (s : State) :
    afterPoll p st (goPhase ph s) = afterPoll p st s := by
  have hfail (e : Status) : afterFailure p e (goPhase ph s) = afterFailure p e s := by
    cases p with
    | ofSample k => rw [afterFailure, latchAxis_goPhase, goPhase_goPhase]; rfl
    | ofAwait | ofReadAxis | ofInit => rfl
  cases st with
  | ok => cases p <;> rfl
  | invalidPeriod | timeout | rejected => exact hfail _

/-- A phase of a poll is the same in every request that polls. -/
theorem phaseNext_pollPhase (p : Poll) (w : WaitPhase) (s : State) :
    phaseNext (pollPhase p w) s = onward (pollPhase p) (afterPoll p) (waitPhase (pollRank p) (pollTimeout p) w s) := by
  rcases h : waitPhase (pollRank p) (pollTimeout p) w s with ⟨w' | st, t⟩
  · cases p <;> simp only [pollRank, pollTimeout] at h <;> simp only [pollPhase, phaseNext, axisPhase, onward, h]
  · cases p <;> cases st <;> simp only [pollRank, pollTimeout] at h <;>
      simp only [pollPhase, phaseNext, axisPhase, onward, h] <;> rfl

/-- A step of a block that polls is its phase of the poll. -/
theorem step_poll {p : Poll} {w : WaitPhase} {s : State} {o : Onward WaitPhase Status × State}
    (hs : s.seq = .busy (pollPhase p w)) (ho : waitPhase (pollRank p) (pollTimeout p) w s = o) :
    step s = .next (onward (pollPhase p) (afterPoll p) o) := by
  rw [step_pollPhase hs, phaseNext_pollPhase, ho]

theorem step_aSample_ready {p : Poll} {s : State} (hs : s.seq = .busy (pollPhase p .aSample))
    (h : (drawLevel s).1 = Config.drdyActiveLevel) : step s = .next (afterReady p (pinRead s).2) :=
  step_poll hs (if_pos ((isReady_iff _).2 h))

theorem step_aSample_inactive {p : Poll} {s : State} (hs : s.seq = .busy (pollPhase p .aSample))
    (h : (drawLevel s).1 ≠ Config.drdyActiveLevel) : step s = .next (goPhase (pollPhase p .aTime) (pinRead s).2) :=
  step_poll hs (if_neg fun hr => h ((isReady_iff _).1 hr))

theorem step_aTime_past {p : Poll} {s : State} (hs : s.seq = .busy (pollPhase p .aTime))
    (h : pastDeadline (now s).1 s.t0 s.tRes = true) : step s = .next (afterDeadline p (now s).2) := by
  rw [← afterPoll_timeout]
  exact step_poll hs (if_pos h)

theorem step_aTime_within {p : Poll} {s : State} (hs : s.seq = .busy (pollPhase p .aTime))
    (h : ¬ pastDeadline (now s).1 s.t0 s.tRes = true) : step s = .next (goPhase (pollPhase p .aSample) (now s).2) :=
  step_poll hs (if_neg h)

theorem step_aStart {p : Poll} {s : State} (hs : s.seq = .busy (pollPhase p .aStart)) :
    step s = .next (goPhase (pollPhase p .aSample) { (now s).2 with t0 := (now s).1 }) :=
  step_poll hs rfl

/-- Settles O26: the ready test decides the sample's step, the strict comparison the timer's. -/
theorem pollTurnOrder : Obligations.PollTurnOrder := fun _ _ =>
  ⟨fun hs => ⟨step_aSample_ready hs, step_aSample_inactive hs⟩,
    fun hs => ⟨fun hd => step_aTime_past hs ((pastDeadline_iff _ _ _).2 hd),
      fun hd => step_aTime_within hs fun hp => absurd ((pastDeadline_iff _ _ _).1 hp) (Nat.not_lt.2 hd)⟩⟩

/-! ### The largest timeout -/

/-- No elapsed value exceeds the largest one. -/
theorem not_pastDeadline_max (t t0 : Word32) : ¬ pastDeadline t t0 0xFFFFFFFF#32 = true := by
  rw [pastDeadline_iff]
  exact Nat.not_lt.2 (Nat.le_of_lt_succ (elapsed t t0).isLt)

/-- A poll with the largest timeout does not end with Timeout. -/
theorem pollLoop_ne_timeout (n : Nat) {s : State} (h : s.tRes = 0xFFFFFFFF#32) :
    (pollLoop (n + 1) s).1 ≠ some .timeout := by
  intro hto
  obtain ⟨-, -, -, -, ⟨hst, -⟩ | ⟨-, -, hd⟩ | ⟨hst, -⟩⟩ := pollLoop_events n s
  · exact absurd (hto.symm.trans hst) nofun
  · exact not_pastDeadline_max _ _ ((pastDeadline_iff _ _ _).2 (h ▸ hd))
  · exact absurd (hto.symm.trans hst) nofun

theorem await_ne_timeout {s t : State} {rank : Byte} (h : exec (.await rank 0xFFFFFFFF#32) s = .next t) :
    ∀ r, t.response = some r → r.status ≠ .timeout := by
  obtain ⟨-, ⟨-, rfl⟩ | ⟨-, -, rfl⟩ | ⟨-, -, ⟨st, hst, rfl⟩ | ⟨-, rfl⟩⟩⟩ := exec_await_next h
  · rintro _ ⟨⟩
    exact nofun
  · rintro _ ⟨⟩
    exact nofun
  · rintro _ ⟨⟩ rfl
    exact pollLoop_ne_timeout _ rfl hst
  · intro r hr
    exact absurd ((awaitPoll_response _ _ _).symm.trans hr) nofun

/-- A single-axis read with the largest timeout does not end with Timeout. -/
theorem readAxisBody_ne_timeout {axis : Axis} {rank : Byte} {s : State} {r : Status × Measurement}
    (h : (readAxisBody axis rank 0xFFFFFFFF#32 s).1 = some r) : r.1 ≠ .timeout := by
  cases hr : rankOutOfRange rank
  · rcases readAxisBody_inRange axis 0xFFFFFFFF#32 s hr with ⟨-, e⟩ | ⟨hto, -⟩ | ⟨-, e⟩
    · rw [e] at h
      cases h
      exact nofun
    · exact absurd hto (pollLoop_ne_timeout _ rfl)
    · rw [e] at h
      cases h
  · rw [readAxisBody_outOfRange axis _ s hr] at h
    cases h
    exact nofun

theorem readAxis_ne_timeout {s t : State} {axis : Axis} {rank : Byte}
    (h : exec (.readAxis axis rank 0xFFFFFFFF#32) s = .next t) : ∀ r, t.response = some r → r.status ≠ .timeout := by
  obtain ⟨-, ⟨-, rfl⟩ | ⟨-, -, ⟨q, hq, rfl⟩ | ⟨-, rfl⟩⟩⟩ := exec_readAxis_next h
  · rintro _ ⟨⟩
    exact nofun
  · rintro _ ⟨⟩
    exact readAxisBody_ne_timeout hq
  · intro r hr
    exact absurd ((readAxisBody_response _ _ _ _).symm.trans hr) nofun

/-- Settles O27: no elapsed value exceeds the largest timeout, in a request's one step or at A_TIME. -/
theorem largestTimeoutNeverExpires : Obligations.LargestTimeoutNeverExpires := by
  refine ⟨fun s t axis rank i hi h => ?_, fun s t p hs hres h => ?_⟩
  · rcases hi with rfl | rfl
    · exact await_ne_timeout h
    · exact readAxis_ne_timeout h
  · rw [step_aTime_within hs (hres ▸ not_pastDeadline_max _ _)] at h
    cases h
    exact ⟨rfl, hres⟩

/-! ### A poll within its deadline -/

/-- A poll with the resolved timeout `res` that captured T0 at the true time `start` and whose deadline has not passed. -/
structure InTime (start : Nat) (res : Word32) (s : State) : Prop where
  tRes : s.tRes = res
  t0 : s.t0 = timerCount start
  start_le : start ≤ s.tau
  le_deadline : s.tau ≤ start + res.toNat

/-- The start of a poll captures T0. -/
theorem startPoll_inTime (rank : Byte) (tmo : Word32) (s : State) :
    InTime (s.tau + (drawGap s).1) (resolveTimeout (rankOf rank) tmo) (startPoll rank tmo s) :=
  ⟨rfl, rfl, le_rfl, Nat.le_add_right _ _⟩

section
variable {start : Nat} {res : Word32} {s : State} (h : InTime start res s)
include h

/-- While no gap takes the elapsed time past 2^32, the deadline test compares true times (42_ready_poll.md R107). -/
theorem InTime.pastDeadline_iff {g : Nat} (hg : res.toNat + g ≤ 0xFFFFFFFF) :
    pastDeadline (timerCount (s.tau + g)) s.t0 s.tRes = true ↔ start + res.toNat < s.tau + g := by
  obtain ⟨hres, ht0, hle, hdead⟩ := h
  obtain ⟨d, hd⟩ := Nat.exists_eq_add_of_le (Nat.le_add_right_of_le (k := g) hle)
  rw [Laws.pastDeadline_iff, hres, ht0, hd, elapsed_toNat, Nat.mod_eq_of_lt (by omega)]
  omega

/-- The deadline does not look at SEQ. -/
theorem InTime.goPhase (ph : Phase) : InTime start res (goPhase ph s) := ⟨h.tRes, h.t0, h.start_le, h.le_deadline⟩

/-- A DATA-READY sample takes no time. -/
theorem InTime.after_sample : InTime start res (pinRead s).2 := ⟨h.tRes, h.t0, h.start_le, h.le_deadline⟩

/-- A timer sample that is not past the deadline. -/
theorem InTime.after_now (hg : res.toNat + (drawGap s).1 ≤ 0xFFFFFFFF)
    (hp : ¬ pastDeadline (now s).1 s.t0 s.tRes = true) : InTime start res (now s).2 :=
  ⟨h.tRes, h.t0, Nat.le_add_right_of_le h.start_le, Nat.not_lt.1 fun hd => hp ((h.pastDeadline_iff hg).2 hd)⟩

/-- A turn that does not end the poll takes the next gap and stays within the deadline. -/
theorem InTime.after_turn {g : Nat} {gs : List Nat} (hgap : s.gapIn = g :: gs) (hg : res.toNat + g ≤ 0xFFFFFFFF)
    (hn : (pollTurn s).1 = none) :
    InTime start res (pollTurn s).2 ∧ (pollTurn s).2.gapIn = gs ∧ (pollTurn s).2.tau = s.tau + g := by
  by_cases hl : (drawLevel s).1 = Config.drdyActiveLevel
  · rw [pollTurn_ready hl] at hn
    cases hn
  · have hdraw : (drawGap (pinRead s).2).1 = g := drawGap_of_cons (s := (pinRead s).2) hgap
    rw [pollTurn_notReady hl] at hn ⊢
    have hp : ¬ pastDeadline (now (pinRead s).2).1 s.t0 s.tRes = true :=
      fun hp => nomatch (if_pos hp).symm.trans hn
    exact ⟨h.after_sample.after_now (hdraw ▸ hg) hp, by simp [hgap], by simp [hdraw]⟩

end

/-! ### A poll with its gaps lined up -/

/-- A poll whose gaps, each at most `G`, bring it past its deadline has ended after as many turns. -/
theorem pollLoop_ends {start G : Nat} {res : Word32} {gs restG : List Nat} {n : Nat} {s : State}
    (hG : res.toNat + G ≤ 0xFFFFFFFF) (h : InTime start res s) (hgap : s.gapIn = gs ++ restG) (hgs : ∀ d ∈ gs, d ≤ G)
    (hlen : gs.length ≤ n) (hsum : start + res.toNat < s.tau + gs.sum) :
    (pollLoop n s).1 = some .ok ∨ (pollLoop n s).1 = some .timeout := by
  induction gs generalizing s n with
  | nil => exact absurd h.le_deadline (Nat.not_le.2 hsum)
  | cons g gs ih =>
    obtain ⟨hg, hgs⟩ := List.forall_mem_cons.1 hgs
    obtain ⟨m, rfl⟩ := Nat.exists_eq_add_of_le' (Nat.one_le_of_lt hlen)
    cases ht : (pollTurn s).1 with
    | some st =>
      rw [pollLoop_succ_of_some m ht, ← ht]
      exact (pollTurn_status s).resolve_left (by rw [ht]; exact nofun)
    | none =>
      obtain ⟨hin, hgap', htau⟩ := h.after_turn hgap (by omega) ht
      rw [pollLoop_succ_of_none m ht]
      rw [List.sum_cons, ← Nat.add_assoc, ← htau] at hsum
      exact ih hin hgap' hgs (Nat.le_of_succ_le_succ hlen) hsum

/-- The gaps `gs` after the first one bring a poll with the resolved timeout `res` past its deadline: no more of them than
the turns its one step takes (log 7), each at most `G`. -/
structure GapsEnd (G : Nat) (res : Word32) (g : Nat) (gs restG : List Nat) (s : State) : Prop where
  gapIn : s.gapIn = g :: (gs ++ restG)
  turns : gs.length ≤ max 1 s.drdyIn.length
  le_gap : ∀ d ∈ gs, d ≤ G
  noWrap : res.toNat + G ≤ 0xFFFFFFFF
  past : res.toNat < gs.sum

section
variable {G : Nat} {rank : Byte} {tmo : Word32} {g : Nat} {gs restG : List Nat} {s : State}
  (h : GapsEnd G (resolveTimeout (rankOf rank) tmo) g gs restG s)
include h

/-- It is a matter of the answers lined up alone. -/
theorem GapsEnd.congr {t : State} (hg : t.gapIn = s.gapIn) (hd : t.drdyIn = s.drdyIn) :
    GapsEnd G (resolveTimeout (rankOf rank) tmo) g gs restG t :=
  ⟨hg.trans h.gapIn, hd ▸ h.turns, h.le_gap, h.noWrap, h.past⟩

/-- The poll of a request in one step has then ended. -/
theorem startedPoll_ends :
    (pollLoop (s.drdyIn.length - 1 + 1) (startPoll rank tmo s)).1 = some .ok ∨
      (pollLoop (s.drdyIn.length - 1 + 1) (startPoll rank tmo s)).1 = some .timeout := by
  have hgap : (startPoll rank tmo s).gapIn = gs ++ restG := congrArg List.tail h.gapIn
  have hturns := h.turns
  exact pollLoop_ends h.noWrap (startPoll_inTime rank tmo s) hgap h.le_gap (by omega) (Nat.add_lt_add_left h.past _)

/-- A single-axis read has then ended. -/
theorem readAxisBody_ends (axis : Axis) (hr : rankOutOfRange rank = false) :
    ∃ r, (readAxisBody axis rank tmo s).1 = some r ∧ (r.1 = .ok ∨ r.1 = .timeout) := by
  have hpoll := startedPoll_ends (h.congr (t := triggered axis rank s) rfl rfl)
  rcases readAxisBody_inRange axis tmo s hr with ⟨-, e⟩ | ⟨-, e⟩ | ⟨hn, -⟩
  · exact ⟨_, by rw [e], .inl rfl⟩
  · exact ⟨_, by rw [e], .inr rfl⟩
  · rcases hpoll with hst | hst <;> exact absurd (hn.symm.trans hst) nofun

end

/-- A request's answer that has ended with OK or with Timeout. -/
def AnswersInTime (o : Result) : Prop :=
  ∃ t r, o = .next t ∧ t.seq = .idle ∧ t.response = some r ∧ (r.status = .ok ∨ r.status = .timeout)

section
variable {G : Nat} {rank : Byte} {tmo : Word32} {g : Nat} {gs restG : List Nat} {s : State}

theorem await_ends (hi : s.seq = .idle) (hb : s.bind = .bound) (hr : rankOutOfRange rank = false)
    (h : GapsEnd G (resolveTimeout (rankOf rank) tmo) g gs restG s) : AnswersInTime (exec (.await rank tmo) s) := by
  rcases startedPoll_ends (h.congr (t := accept s) rfl rfl) with hst | hst
  · exact ⟨_, _, exec_await_ended hi hb hr hst, rfl, rfl, .inl rfl⟩
  · exact ⟨_, _, exec_await_ended hi hb hr hst, rfl, rfl, .inr rfl⟩

theorem readAxis_ends (axis : Axis) (hs : Ready s) (hr : rankOutOfRange rank = false)
    (h : GapsEnd G (resolveTimeout (rankOf rank) tmo) g gs restG s) :
    AnswersInTime (exec (.readAxis axis rank tmo) s) := by
  obtain ⟨hi, hb, hp⟩ := hs
  obtain ⟨r, hst, hok⟩ := readAxisBody_ends (h.congr (t := accept s) rfl rfl) axis hr
  have hbody : readAxisBody axis rank tmo (accept s) = (some r, (readAxisBody axis rank tmo (accept s)).2) :=
    Prod.ext hst rfl
  rw [exec_readAxis, admitted_of_idle hi fun _ => hb, guardPins_of_output (s := accept s) hp, hbody]
  exact ⟨_, _, rfl, rfl, rfl, hok⟩

theorem init_ends (hi : s.seq = .idle) (h : GapsEnd G (resolveTimeout (rankOf initPeriod) useDefault) g gs restG s) :
    AnswersInTime (exec .init s) := by
  obtain ⟨r, hst, hok⟩ := readAxisBody_ends (h.congr (t := bindPins (applyBusCfg (accept s))) rfl rfl) initAxis rfl
  rw [exec_init, admitted_of_idle (nb := false) hi nofun]
  rcases throwawayRead_cases (bindPins (applyBusCfg (accept s))) with ⟨r', hr', e⟩ | ⟨hn, -⟩
  · obtain rfl : r' = r := Option.some.inj (hr'.symm.trans hst)
    exact ⟨_, _, congrArg _ e, rfl, rfl, hok⟩
  · exact absurd (hn.symm.trans hst) nofun

end

/-- The phases of a poll come to what its loop answers (10_state.md R32). -/
theorem reach_pollLoop {p : Poll} {s : State} (hs : s.seq = .busy (pollPhase p .aSample)) {n : Nat} {st : Status}
    (h : (pollLoop n s).1 = some st) : Reaches s (afterPoll p st (pollLoop n s).2) := by
  have hr := reach_poll (pollPhase p) (afterPoll p) (pollRank p) (pollTimeout p)
    (fun _ => by cases p <;> exact ⟨rfl, rfl⟩)
    (fun w s => by
      rw [phaseNext_pollPhase]
      rcases waitPhase (pollRank p) (pollTimeout p) w s with ⟨_ | _, t⟩ <;> rfl)
    (afterPoll_goPhase p) n s
  rw [show pollLoop n s = (some st, (pollLoop n s).2) from Prod.ext h rfl] at hr
  rwa [show goPhase (pollPhase p .aSample) s = s by rw [goPhase, ← hs]] at hr

theorem busyPoll_ends {p : Poll} {s : State} {start G : Nat} {gs restG : List Nat}
    (hs : s.seq = .busy (pollPhase p .aSample)) (h : InTime start s.tRes s) (hgap : s.gapIn = gs ++ restG)
    (hgs : ∀ d ∈ gs, d ≤ G) (hG : s.tRes.toNat + G ≤ 0xFFFFFFFF) (hsum : start + s.tRes.toNat < s.tau + gs.sum) :
    ∃ n t, Host.Core.run Sys2Proof.core n s = .next t ∧ ∃ u, t = afterReady p u ∨ t = afterDeadline p u := by
  rcases pollLoop_ends hG h hgap hgs le_rfl hsum with hst | hst
  · obtain ⟨n, hn⟩ := (reach_pollLoop hs hst).run
    exact ⟨n, _, hn, _, .inl rfl⟩
  · obtain ⟨n, hn⟩ := (reach_pollLoop hs hst).run
    exact ⟨n, _, hn, _, .inr (afterPoll_timeout p _)⟩

/-- Settles O28: while it waits a poll's deadline has not passed, so it cannot wait once the gaps have brought it past. -/
theorem pollEndsInTime : Obligations.PollEndsInTime := by
  refine ⟨fun s axis rank tmo i g G gs restG hi hle hgap hturns hgs hG hsum => ?_,
    fun s p base G gs restG hs hb ht0 hbase hgap hgs hG hsum => ?_⟩
  · have hr := rankOutOfRange_of_le hle
    have h : GapsEnd G (resolveTimeout (rankOf rank) tmo) g gs restG s := ⟨hgap, hturns, hgs, hG, hsum⟩
    rcases hi with ⟨rfl, hi, hb⟩ | ⟨rfl, hready⟩ | ⟨rfl, hi, rfl, rfl⟩
    · exact await_ends hi hb hr h
    · exact readAxis_ends axis hready hr h
    · exact init_ends hi h
  · exact busyPoll_ends hs ⟨rfl, ht0, Nat.sub_le _ _, by omega⟩ hgap hgs hG (by omega)

/-! ### A poll in an infinite run -/

/-- A poll from its A_START on: the next timer sample will capture T0 at the true time `start`, or T0 holds that count and
the deadline has not passed. -/
inductive Polling (p : Poll) (start : Nat) (res : Word32) (s : State) : Prop
  | starts (hs : s.seq = .busy (pollPhase p .aStart)) (hres : s.tRes = res) (ht : s.tau + (drawGap s).1 = start)
  | samples (hs : s.seq = .busy (pollPhase p .aSample)) (h : InTime start res s)
  | times (hs : s.seq = .busy (pollPhase p .aTime)) (h : InTime start res s)

section
variable {p : Poll} {start : Nat} {res : Word32} {s : State}

theorem Polling.busy (h : Polling p start res s) : ∃ ph, s.seq = .busy ph := by
  cases h with
  | starts hs | samples hs | times hs => exact ⟨_, hs⟩

theorem Polling.tau_le (h : Polling p start res s) : s.tau ≤ start + res.toNat := by
  cases h with
  | starts _ _ ht => omega
  | samples _ h | times _ h => exact h.le_deadline

/-- A step of a poll follows one of its two exits, or the poll goes on. -/
theorem Polling.step {t : State} (h : Polling p start res s) (hstep : step s = .next t)
    (hg : s.seq = .busy (pollPhase p .aTime) → res.toNat + (drawGap s).1 ≤ 0xFFFFFFFF) :
    (∃ u, t = afterReady p u ∨ t = afterDeadline p u) ∨ Polling p start res t := by
  cases h with
  | starts hs hres ht =>
    cases (step_aStart hs).symm.trans hstep
    exact .inr (.samples rfl ⟨hres, congrArg timerCount ht, ht.ge, ht.le.trans (Nat.le_add_right _ _)⟩)
  | samples hs h =>
    by_cases hl : (drawLevel s).1 = Config.drdyActiveLevel
    · cases (step_aSample_ready hs hl).symm.trans hstep
      exact .inl ⟨_, .inl rfl⟩
    · cases (step_aSample_inactive hs hl).symm.trans hstep
      exact .inr (.times rfl (h.after_sample.goPhase _))
  | times hs h =>
    by_cases hp : pastDeadline (now s).1 s.t0 s.tRes = true
    · cases (step_aTime_past hs hp).symm.trans hstep
      exact .inl ⟨_, .inr rfl⟩
    · cases (step_aTime_within hs hp).symm.trans hstep
      exact .inr (.samples rfl ((h.after_now (hg hs) hp).goPhase _))

end

/-- Settles O60: a run that follows neither exit polls for ever within its deadline, while time passes it. -/
theorem pollEndsAsTimePasses : Obligations.PollEndsAsTimePasses := by
  intro ρ p base G hrun htime hstart hgap hG
  by_contra hend
  obtain ⟨start, hpoll⟩ : ∃ start, Polling p start (ρ 0).tRes (ρ 0) := by
    rcases hstart with hs | ⟨hs, hb, ht0, hbase⟩
    · exact ⟨_, .starts hs rfl rfl⟩
    · exact ⟨(ρ 0).tau - base, .samples hs ⟨rfl, ht0, Nat.sub_le _ _, by omega⟩⟩
  have hpolls (n : Nat) : Polling p start (ρ 0).tRes (ρ n) := by
    induction n with
    | zero => exact hpoll
    | succ n ih =>
      exact (ih.step (hrun n) fun hs => (Nat.add_le_add_left (hgap n hs) _).trans hG).resolve_left
        fun ⟨u, hu⟩ => hend ⟨n + 1, u, hu⟩
  obtain ⟨n, hn⟩ := htime (keepsActing_of_busy (k := 0) fun n _ => (hpolls n).busy) (start + (ρ 0).tRes.toNat + 1)
  exact absurd (hpolls n).tau_le (Nat.not_le.2 hn)

end Sys2Proof.Proofs
end

section
/-! The result read: the number the two bytes compose to (43_result_read.md R115), and what READ_RESULT comes to, whatever
the sensor drives (43_result_read.md R116, R117). -/

namespace Sys2Proof.Proofs

open Sys2Proof.Machine Sys2Proof.Safety Sys2Proof.Laws

/-! ### The composed value -/

/-- `as_s16` is the two's-complement reading of the 16 bits (00_scope.md R8). -/
theorem asS16_eq_toInt (m : Measurement) : asS16 m = m.toInt := by
  rw [asS16, BitVec.toInt_eq_toNat_cond]
  split <;> split <;> omega

/-- Settles O29: the two bytes shifted together are a 16-bit number, whose signed reading is two's complement. -/
theorem composeIsBigEndianSigned : Obligations.ComposeIsBigEndianSigned := fun hi lo =>
  ⟨compose_eq_bigEndian hi lo, asS16_eq_toInt _, by rw [asS16, compose_toNat]⟩

/-! ### The whole result read -/

/-- READ_RESULT reads the next two bytes of the sensor, needing CHIP-SELECT alone to be an output. -/
theorem exec_readResult_of_output {s : State} (hi : s.seq = .idle) (hb : s.bind = .bound) (hcs : s.dirCs = .output) :
    exec .readResult s =
      .next (respond { status := .ok, meas := compose (drawByte s).1 (drawByte (drawByte s).2).1 }
        (resultRead (drawByte s).1 (drawByte (drawByte s).2).1 (accept s))) := by
  have hp : [OutPin.cs].all (isOutput (accept s)) = true := by simpa [isOutput] using hcs
  rw [exec_readResult, admitted_of_idle hi fun _ => hb, guardPins_of_all hp, readBody_eq]
  rfl

/-- Settles O30: the two bytes read are the two lined up. -/
theorem readResultCompletes : Obligations.ReadResultCompletes := by
  intro s hi lo bs hidle hb hcs hbus
  have ehi : (drawByte s).1 = hi := drawByte_of_cons hbus
  have elo : (drawByte (drawByte s).2).1 = lo := drawByte_of_cons (congrArg List.tail hbus)
  rw [exec_readResult_of_output hidle hb hcs, ehi, elo, compose_eq_bigEndian, respond, ← hidle, resultRead,
    accept_busIn, hbus]
  rfl

/-- Settles O31: the two bytes read are whatever the sensor answers. -/
theorem readResultOfAnyBytes : Obligations.ReadResultOfAnyBytes := by
  intro s hidle hb hcs
  refine ⟨_, _, _, exec_readResult_of_output hidle hb hcs, rfl, rfl, ?_⟩
  have htail : s.busIn.tail.tail = s.busIn.drop 2 := by rw [← List.drop_one, List.drop_tail]
  rw [respond, ← hidle, resultRead, accept_busIn, htail]
  rfl

end Sys2Proof.Proofs
end

section
/-! The single-axis read: what READ_AXIS comes to with its answers lined up, that it is TRIGGER, AWAIT and READ_RESULT in
a row, how it fails, and its frame (44_axis_sequencer.md R125, R126). -/

namespace Sys2Proof.Proofs

open Sys2Proof.Machine Sys2Proof.Safety Sys2Proof.Laws

/-! ### READ_AXIS with its answers lined up -/

/-- A READ_AXIS whose body has ended answers with the body's result. -/
theorem exec_readAxis_ended {axis : Axis} {rank : Byte} {tmo : Word32} {s t : State} {r : Status × Measurement}
    (hs : Ready s) (h : readAxisBody axis rank tmo (accept s) = (some r, t)) :
    exec (.readAxis axis rank tmo) s = .next (respond (axisResponse r) t) := by
  obtain ⟨hi, hb, hp⟩ := hs
  rw [exec_readAxis, admitted_of_idle hi fun _ => hb, guardPins_of_output (s := accept s) hp, h]

/-- Settles O32: the body's first sample is ready. -/
theorem readAxisCompletes : Obligations.ReadAxisCompletes := by
  intro s axis rank tmo received hi lo bs g gs ls hs hle hbus hgap hlevel
  have hbody := readAxisBody_ready (s := accept s) axis tmo (rankOutOfRange_of_le hle) hbus hgap hlevel
  rw [exec_readAxis_ended hs hbody, respond, ← hs.1]
  rfl

/-- Settles O33: the body's one sample is inactive and its deadline has then passed. -/
theorem readAxisTimesOut : Obligations.ReadAxisTimesOut := by
  intro s axis rank tmo received bs g d gs l ls hs hle hbus hgap hlevel hne hd
  have hbody := readAxisBody_timedOut (s := accept s) axis tmo (rankOutOfRange_of_le hle) hbus hgap hlevel hne hd
  rw [exec_readAxis_ended hs hbody, respond, ← hs.1]
  rfl

/-! ### READ_AXIS as three requests -/

/-- The state with `tr` standing before its trace. -/
def withEarlier (tr : List Event) (s : State) : State := { s with trace := tr ++ s.trace }

theorem startPoll_withEarlier (rank : Byte) (tmo : Word32) (tr : List Event) (s : State) :
    startPoll rank tmo (withEarlier tr s) = withEarlier tr (startPoll rank tmo s) := by
  ext1
  case trace => exact List.append_assoc _ _ _
  all_goals rfl

theorem pollLoop_withEarlier (n : Nat) (tr : List Event) (s : State) :
    pollLoop n (withEarlier tr s) = ((pollLoop n s).1, withEarlier tr (pollLoop n s).2) :=
  pollLoop_trace n s tr

theorem readBody_withEarlier (tr : List Event) (s : State) :
    readBody (withEarlier tr s) = ((readBody s).1, withEarlier tr (readBody s).2) := by
  rw [readBody_eq, readBody_eq]
  refine Prod.ext rfl ?_
  ext1
  case trace => exact List.append_assoc _ _ _
  all_goals rfl

/-- A part after which a request ends hands the next request its own registers: what is accepted then differs from the
part's state in the trace alone. -/
theorem eq_withEarlier_accept_endWith {s : State} (st : Status) (hs : s.seq = .idle) (hr : s.response = none) :
    s = withEarlier s.trace (accept (endWith st s)) := by
  ext1 <;> simp [withEarlier, hs, hr]

section
variable {axis : Axis} {rank : Byte} {tmo : Word32} {s s1 s2 : State} (hi : s.seq = .idle)
  (h1 : s1 = endWith .ok (triggered axis rank (accept s)))
include hi h1

/-- The poll of a READ_AXIS is that of an AWAIT after a TRIGGER, but for the trace. -/
theorem axisPoll_eq_awaitPoll :
    axisPoll axis rank tmo (accept s) =
      ((awaitPoll rank tmo s1).1, withEarlier s1.trace (awaitPoll rank tmo s1).2) := by
  have htrig := eq_withEarlier_accept_endWith (s := triggered axis rank (accept s)) .ok hi rfl
  rw [axisPoll, htrig, startPoll_withEarlier, pollLoop_withEarlier, h1]
  rfl

/-- A single-axis read that succeeds is a result read after that poll, but for the trace. -/
theorem readAxisBody_eq_readBody (hr : rankOutOfRange rank = false) (hok : (awaitPoll rank tmo s1).1 = some .ok)
    (h2 : s2 = endWith .ok (awaitPoll rank tmo s1).2) :
    readAxisBody axis rank tmo (accept s) =
      (some (.ok, (readBody (accept s2)).1),
        withEarlier s1.trace (withEarlier s2.trace (readBody (accept s2)).2)) := by
  have hpoll := axisPoll_eq_awaitPoll (tmo := tmo) hi h1
  have hseq : (awaitPoll rank tmo s1).2.seq = .idle := (pollLoop_seq _ _).trans (by rw [h1]; rfl)
  have hawait : (awaitPoll rank tmo s1).2 = withEarlier s2.trace (accept s2) := by
    rw [h2]
    exact eq_withEarlier_accept_endWith .ok hseq (awaitPoll_response _ _ _)
  rcases readAxisBody_inRange axis tmo (accept s) hr with ⟨-, e⟩ | ⟨h, -⟩ | ⟨h, -⟩
  · rw [e, hpoll, readBody_withEarlier, hawait, readBody_withEarlier]
  · rw [hpoll, hok] at h
    cases h
  · rw [hpoll, hok] at h
    cases h

end

/-- Settles O34: the trigger, the poll and the result read are the same parts, each started on the same registers. -/
theorem readAxisIsThreeRequests : Obligations.ReadAxisIsThreeRequests := by
  intro s s1 s2 s3 axis rank tmo htrig hok1 hawait hok2 hread
  obtain ⟨hi, ⟨-, rfl⟩ | ⟨-, -, rfl⟩ | ⟨hb, hr, hp, h1⟩⟩ := exec_trigger_next htrig
  case inr.inr =>
    have hb1 : s1.bind = .bound := by rw [h1]; exact hb
    obtain ⟨-, ⟨hu, -⟩ | ⟨-, hr', -⟩ | ⟨-, -, ⟨st, hst, h2⟩ | ⟨-, rfl⟩⟩⟩ := exec_await_next hawait
    · exact absurd (hb1.symm.trans hu) nofun
    · exact absurd (hr.symm.trans hr') nofun
    · obtain rfl : st = .ok := by simpa [h2] using hok2
      have hb2 : s2.bind = .bound := by rw [h2]; exact (pollLoop_bind _ _).trans hb1
      obtain ⟨-, ⟨hu, -⟩ | ⟨-, -, h3⟩⟩ := exec_readResult_next hread
      · exact absurd (hb2.symm.trans hu) nofun
      · rw [exec_readAxis_ended ⟨hi, hb, hp⟩ (readAxisBody_eq_readBody hi h1 hr hst h2), h3, List.append_assoc]
        rfl
    · exact absurd ((awaitPoll_response _ _ _).symm.trans hok2) nofun
  all_goals exact absurd (Option.some.inj hok1) nofun

/-! ### READ_AXIS whatever the answers -/

/-- A READ_AXIS of a Bound block that has answered presents the result of its body. -/
theorem exec_readAxis_response {axis : Axis} {rank : Byte} {tmo : Word32} {s t : State} {q : Response}
    (hb : s.bind = .bound) (h : exec (.readAxis axis rank tmo) s = .next t) (hq : t.response = some q) :
    ∃ r, (readAxisBody axis rank tmo (accept s)).1 = some r ∧ q = axisResponse r ∧
      t = respond (axisResponse r) (readAxisBody axis rank tmo (accept s)).2 := by
  obtain ⟨-, ⟨hu, -⟩ | ⟨-, -, ⟨r, hr, rfl⟩ | ⟨-, rfl⟩⟩⟩ := exec_readAxis_next h
  · exact absurd (hb.symm.trans hu) nofun
  · exact ⟨r, hr, (Option.some.inj hq).symm, rfl⟩
  · exact absurd ((readAxisBody_response _ _ _ _).symm.trans hq) nofun

/-- A single-axis read fails with InvalidPeriod before anything happens. -/
theorem readAxisBody_of_invalidPeriod {axis : Axis} {rank : Byte} {tmo : Word32} {s : State} {r : Status × Measurement}
    (h : (readAxisBody axis rank tmo s).1 = some r) (hst : r.1 = .invalidPeriod) :
    r.2 = 0#16 ∧ (readAxisBody axis rank tmo s).2 = s := by
  rcases readAxisBody_status axis rank tmo s r h with ⟨hk, rfl⟩ | ⟨-, hok | rfl⟩
  · exact ⟨rfl, congrArg Prod.snd (readAxisBody_outOfRange axis tmo s hk)⟩
  · cases hok.symm.trans hst
  · cases hst

/-- A single-axis read that times out leaves the sensor selected and takes no result byte. -/
theorem readAxisBody_of_timeout {axis : Axis} {rank : Byte} {tmo : Word32} {s : State} {r : Status × Measurement}
    (h : (readAxisBody axis rank tmo s).1 = some r) (hst : r.1 = .timeout) :
    r.2 = 0#16 ∧ (readAxisBody axis rank tmo s).2.csLvl = .drive .low ∧
      resultBytesOf (readAxisBody axis rank tmo s).2.trace = resultBytesOf s.trace ∧
      (readAxisBody axis rank tmo s).2.hi = s.hi ∧ (readAxisBody axis rank tmo s).2.lo = s.lo := by
  rcases readAxisBody_status axis rank tmo s r h with ⟨-, rfl⟩ | ⟨hk, -⟩
  · cases hst
  · obtain ⟨later, htr, -, -, -, ⟨_, _, _, _, hok, -⟩ | ⟨hto, hcs, hsamples, -, hhi, hlo⟩ | ⟨hn, -⟩⟩ :=
      readAxisBody_spec axis tmo s hk
    · cases h.symm.trans hok
      cases hst
    · cases h.symm.trans hto
      refine ⟨rfl, hcs, ?_, hhi, hlo⟩
      rw [htr, resultBytesOf_append, resultBytesOf_append, resultBytesOf_triggerEvents axis (le_of_rankInRange hk),
        resultBytesOf_samples hsamples, List.append_nil, List.append_nil]
    · cases h.symm.trans hn

/-- Settles O35: the body's failure is answered, on the accepted state and its empty trace. -/
theorem failedReadAxisChipSelect : Obligations.FailedReadAxisChipSelect := by
  intro s t axis rank tmo hb h
  refine ⟨fun q hq hst => ?_, fun q hq hst => ?_⟩ <;> obtain ⟨r, hr, rfl, rfl⟩ := exec_readAxis_response hb h hq
  · obtain ⟨hmeas, hcs, hbytes, hhi, hlo⟩ := readAxisBody_of_timeout hr hst
    exact ⟨hcs, hmeas, hbytes, hhi, hlo⟩
  · obtain ⟨hmeas, hsame⟩ := readAxisBody_of_invalidPeriod hr hst
    rw [hsame]
    exact ⟨rfl, hmeas, rfl⟩

/-- A single-axis read leaves BIND, the directions, BUS_CFG, the sample registers, VALID and the host's list. -/
theorem readAxisBody_frame (axis : Axis) (rank : Byte) (tmo : Word32) (s : State) :
    let t := (readAxisBody axis rank tmo s).2
    t = { s with cmd := t.cmd, tRes := t.tRes, t0 := t.t0, hi := t.hi, lo := t.lo, csLvl := t.csLvl, rstLvl := t.rstLvl,
                 trace := t.trace, response := t.response, drdyIn := t.drdyIn, busIn := t.busIn, gapIn := t.gapIn,
                 tau := t.tau, draws := t.draws } := by
  ext1 <;> simp

/-- Settles O37: what follows the body writes the observation and SEQ alone. -/
theorem readAxisFrame : Obligations.ReadAxisFrame := by
  intro s t axis rank tmo hb h
  have hframe := readAxisBody_frame axis rank tmo (accept s)
  obtain ⟨-, ⟨hu, -⟩ | ⟨-, -, ⟨r, -, rfl⟩ | ⟨-, rfl⟩⟩⟩ := exec_readAxis_next h
  · exact absurd (hb.symm.trans hu) nofun
  · exact congrArg (respond _) hframe
  · exact congrArg (goPhase (.readAxis axis rank tmo (.wait .aSample))) hframe

end Sys2Proof.Proofs
end

section
/-! The three-axis sequencer: what SAMPLE_ALL comes to with its answers lined up, and what holds of every pass that has
ended: its three attempts, its latches and VALID (44_axis_sequencer.md R127 to R133). -/

namespace Sys2Proof.Proofs

open Sys2Proof.Machine Sys2Proof.Safety Sys2Proof.Laws

/-! ### SAMPLE_ALL with its answers lined up -/

theorem exec_sampleAll_of_ready {s : State} (hs : Ready s) :
    exec .sampleAll s = .next (sampleFrom axisOrder (openSample (accept s))) := by
  obtain ⟨hi, hb, hp⟩ := hs
  rw [exec_sampleAll, admitted_of_idle hi fun _ => hb,
    guardPins_of_output (s := accept s) hp]

/-- A pass at an axis whose first sample is ready latches the reading and goes on. -/
theorem sampleFrom_ready {k : Axis} {ks : List Axis} {s : State} {received hi lo : Byte} {bs : List Byte} {g : Nat}
    {gs : List Nat} {ls : List Level} (hb : s.busIn = received :: hi :: lo :: bs) (hg : s.gapIn = g :: gs)
    (hl : s.drdyIn = Config.drdyActiveLevel :: ls) :
    sampleFrom (k :: ks) s =
      sampleFrom ks (writeSample k (bigEndian hi lo) (axisDone k samplePeriod useDefault received hi lo bs g gs ls s)) := by
  rw [sampleFrom, readAxisBody_ready k useDefault rfl hb hg hl]
  rfl

/-- A pass at an axis whose one sample is inactive and whose deadline has then passed latches 0, clears VALID and goes
on. -/
theorem sampleFrom_timedOut {k : Axis} {ks : List Axis} {s : State} {received : Byte} {bs : List Byte} {g d : Nat}
    {gs : List Nat} {l : Level} {ls : List Level} (hb : s.busIn = received :: bs) (hg : s.gapIn = g :: d :: gs)
    (hl : s.drdyIn = l :: ls) (hne : l ≠ Config.drdyActiveLevel) (hd : 501 < d % 2 ^ 32) :
    sampleFrom (k :: ks) s =
      sampleFrom ks { writeSample k 0#16 (axisTimedOut k samplePeriod useDefault received bs g d gs l ls s) with
        valid := false } := by
  have hdeadline : (resolveTimeout (rankOf samplePeriod) useDefault).toNat < d % 2 ^ 32 := hd
  rw [sampleFrom, readAxisBody_timedOut k useDefault rfl hb hg hl hne hdeadline]
  rfl

/-- Settles O38: the pass is ready at X, Y and Z. -/
theorem sampleAllCompletes : Obligations.SampleAllCompletes := by
  intro s r1 h1 l1 r2 h2 l2 r3 h3 l3 bs g1 g2 g3 gs ls hs hb hg hl
  rw [exec_sampleAll_of_ready hs, axisOrder, sampleFrom_ready (s := openSample (accept s)) hb hg hl,
    sampleFrom_ready rfl rfl rfl, sampleFrom_ready rfl rfl rfl, sampleFrom, closeSample, respond, ← hs.1]
  rfl

/-- Settles O39: the pass times out at X and is ready at Y and Z. -/
theorem sampleAllSurvivesTimeoutOfX : Obligations.SampleAllSurvivesTimeoutOfX := by
  intro s r1 r2 h2 l2 r3 h3 l3 bs g0 g1 g2 g3 gs l ls hs hb hg hne hl hd
  rw [exec_sampleAll_of_ready hs, axisOrder, sampleFrom_timedOut (s := openSample (accept s)) hb hg hl hne hd,
    sampleFrom_ready rfl rfl rfl, sampleFrom_ready rfl rfl rfl, sampleFrom, closeSample, respond, ← hs.1]
  rfl

/-! ### A pass that has ended -/

/-- An ended pass has ended the read of its first axis and gone on (44_axis_sequencer.md R130). -/
theorem sampleFrom_cons_ended {k : Axis} {ks : List Axis} {s : State} (h : (sampleFrom (k :: ks) s).seq = .idle) :
    ∃ r, (readAxisBody k samplePeriod useDefault s).1 = some r ∧
      sampleFrom (k :: ks) s = sampleFrom ks (latchAxis k r (readAxisBody k samplePeriod useDefault s).2) := by
  rcases sampleFrom_cons k ks s with he | ⟨-, e⟩
  · exact he
  · rw [e] at h
    cases h

/-- A read of a pass that has ended: one command byte, that of its axis, and two result bytes if it was OK. -/
theorem readAxisBody_sampled {k : Axis} {s : State} {r : Status × Measurement}
    (h : (readAxisBody k samplePeriod useDefault s).1 = some r) :
    ∃ ev, (readAxisBody k samplePeriod useDefault s).2.trace = s.trace ++ ev ∧ commandsOf ev = [selectCode k] ∧
      (r.1 = .ok ∧ (resultBytesOf ev).length = 2 ∨ r.1 = .timeout ∧ resultBytesOf ev = []) := by
  obtain ⟨later, htr, -, -, -, hout⟩ := readAxisBody_spec (rank := samplePeriod) k useDefault s rfl
  have hcmd (received : Byte) :
      commandsOf (triggerEvents (commandNumber k samplePeriod.toNat) received) = [selectCode k] := by
    rw [commandsOf_triggerEvents k (by decide)]
    cases k <;> rfl
  have hbytes (received : Byte) :
      resultBytesOf (triggerEvents (commandNumber k samplePeriod.toNat) received) = [] :=
    resultBytesOf_triggerEvents k (by decide) received
  refine ⟨_, htr, ?_⟩
  rw [commandsOf_append, hcmd, resultBytesOf_append, hbytes, List.nil_append]
  rcases hout with ⟨m, hi, lo, poll, hm, -, rfl, hpoll⟩ | ⟨ht, -, hlater, -⟩ | ⟨hn, -⟩
  · cases h.symm.trans hm
    simp [commandsOf_samples hpoll, resultBytesOf_samples hpoll]
  · cases h.symm.trans ht
    simp [commandsOf_samples hlater, resultBytesOf_samples hlater]
  · cases h.symm.trans hn

/-- A SAMPLE_ALL of a Bound block is a pass over the three axes, ended or not. -/
theorem exec_sampleAll_pass {s t : State} (hb : s.bind = .bound) (h : exec .sampleAll s = .next t) :
    t = sampleFrom axisOrder (openSample (accept s)) := by
  obtain ⟨-, ⟨hu, -⟩ | ⟨-, -, e⟩⟩ := exec_sampleAll_next h
  · exact absurd (hb.symm.trans hu) nofun
  · exact e

/-- An ended pass sends the command byte of each of its axes, in their order. -/
theorem sampleFrom_commands {ks : List Axis} {s : State} (h : (sampleFrom ks s).seq = .idle) :
    commandsOf (sampleFrom ks s).trace = commandsOf s.trace ++ ks.map selectCode := by
  induction ks generalizing s with
  | nil => simp [sampleFrom, closeSample, commandsOf]
  | cons k ks ih =>
    obtain ⟨r, hr, e⟩ := sampleFrom_cons_ended h
    obtain ⟨ev, htr, hcmd, -⟩ := readAxisBody_sampled hr
    rw [e] at h ⊢
    rw [ih h, latchAxis_trace, htr, commandsOf_append, hcmd, List.append_assoc, List.map_cons]
    rfl

/-- Settles O40: the pass over X, Y and Z, which sends no command before it. -/
theorem everyAxisAttemptedOnce : Obligations.EveryAxisAttemptedOnce := by
  intro s t hb h hend
  obtain rfl := exec_sampleAll_pass hb h
  rw [sampleFrom_commands hend]
  rfl

/-- An ended pass read two result bytes for each of its `n` axes that were OK, and VALID stays 1 exactly when all were. -/
theorem sampleFrom_resultBytes {ks : List Axis} {s : State} (h : (sampleFrom ks s).seq = .idle) :
    ∃ n ≤ ks.length,
      (resultBytesOf (sampleFrom ks s).trace).length = (resultBytesOf s.trace).length + 2 * n ∧
      ((sampleFrom ks s).valid = true ↔ s.valid = true ∧ n = ks.length) := by
  induction ks generalizing s with
  | nil => exact ⟨0, le_rfl, by simp [sampleFrom, closeSample, resultBytesOf], by simp [sampleFrom, closeSample]⟩
  | cons k ks ih =>
    obtain ⟨r, hr, e⟩ := sampleFrom_cons_ended h
    obtain ⟨ev, htr, -, hread⟩ := readAxisBody_sampled hr
    rw [e] at h ⊢
    obtain ⟨n, hn, hlen, hvalid⟩ := ih h
    rw [latchAxis_trace, htr, resultBytesOf_append, List.length_append] at hlen
    rw [latchAxis_valid, readAxisBody_valid] at hvalid
    rcases hread with ⟨hok, hev⟩ | ⟨hto, hev⟩
    · exact ⟨n + 1, Nat.succ_le_succ hn, by rw [hlen, hev]; omega, by simpa [hok] using hvalid⟩
    · refine ⟨n, Nat.le_succ_of_le hn, by rw [hlen, hev]; rfl, ?_⟩
      rw [hvalid, hto, List.length_cons]
      exact ⟨nofun, fun hall => absurd hall.2 (by omega)⟩

/-- Settles O41: VALID starts at 1, and three axes are two bytes each. -/
theorem validExactlyWhenAllRead : Obligations.ValidExactlyWhenAllRead := by
  intro s t hb h hend
  obtain rfl := exec_sampleAll_pass hb h
  obtain ⟨n, -, hlen, hvalid⟩ := sampleFrom_resultBytes hend
  have hnone : resultBytesOf (openSample (accept s)).trace = [] := rfl
  have hthree : axisOrder.length = 3 := rfl
  have hstart : (openSample (accept s)).valid = true := rfl
  rw [hvalid, hlen, hnone, hthree, List.length_nil]
  simp only [hstart, true_and]
  omega

/-- An ended read of a pass was OK or timed out (44_axis_sequencer.md R133). -/
theorem readAxisBody_sampled_status {k : Axis} {s : State} {r : Status × Measurement}
    (h : (readAxisBody k samplePeriod useDefault s).1 = some r) : r.1 = .ok ∨ r.1 = .timeout := by
  obtain ⟨_, -, -, hst⟩ := readAxisBody_sampled h
  exact hst.imp And.left And.left

/-- A read of a pass leaves RESET low (41_conversion_trigger.md R90). -/
theorem readAxisBody_sampled_rstLvl (k : Axis) (s : State) :
    (readAxisBody k samplePeriod useDefault s).2.rstLvl = .drive .low := by
  obtain ⟨_, -, hrst, -⟩ := readAxisBody_spec (rank := samplePeriod) k useDefault s rfl
  exact hrst

@[simp] theorem openSample_valid (s : State) : (openSample s).valid = true := rfl

@[simp] theorem openSample_busCfg (s : State) : (openSample s).busCfg = some fixedBusConfig := rfl

/-- Settles O42: the reads of X, Y and Z in a row, each followed by its latch, and the final deselect. -/
theorem sampleAllLatchesEachAxis : Obligations.SampleAllLatchesEachAxis := by
  intro s t hbound h hend
  obtain rfl := exec_sampleAll_pass hbound h
  obtain ⟨a, ha, ea⟩ := sampleFrom_cons_ended hend
  rw [axisOrder, ea] at hend ⊢
  obtain ⟨b, hb, eb⟩ := sampleFrom_cons_ended hend
  rw [eb] at hend ⊢
  obtain ⟨c, hc, ec⟩ := sampleFrom_cons_ended hend
  rw [ec, sampleFrom, closeSample]
  refine ⟨a, b, c, _, _, _, Prod.ext ha rfl, Prod.ext hb rfl, Prod.ext hc rfl, ?statuses, ?registers⟩
  case statuses =>
    simp [readAxisBody_sampled_status ha, readAxisBody_sampled_status hb, readAxisBody_sampled_status hc]
  case registers =>
    simp [sampleResponse, readAxisBody_sampled_rstLvl, Bool.and_comm]

/-- A pass, ended or not, leaves BIND, the directions and the host's list. -/
theorem sampleFrom_frame (ks : List Axis) (s : State) :
    (sampleFrom ks s).bind = s.bind ∧ (sampleFrom ks s).dirDrdy = s.dirDrdy ∧ (sampleFrom ks s).dirRst = s.dirRst ∧
      (sampleFrom ks s).dirCs = s.dirCs ∧ (sampleFrom ks s).requests = s.requests := by
  induction ks generalizing s with
  | nil => simp [sampleFrom, closeSample]
  | cons k ks ih =>
    rcases sampleFrom_cons k ks s with ⟨r, -, e⟩ | ⟨-, e⟩
    · rw [e]
      simpa using ih (latchAxis k r (readAxisBody k samplePeriod useDefault s).2)
    · rw [e]
      simp

/-- Settles O43: neither the start of a pass nor its axes write them. -/
theorem sampleAllFrame : Obligations.SampleAllFrame := by
  intro s t hb h
  obtain rfl := exec_sampleAll_pass hb h
  exact sampleFrom_frame axisOrder (openSample (accept s))

end Sys2Proof.Proofs
end

section
/-! INIT: what it comes to with its answers lined up, and what holds however its throwaway read ends
(45_initialization.md R145 to R149). -/

namespace Sys2Proof.Proofs

open Sys2Proof.Machine Sys2Proof.Safety Sys2Proof.Laws

/-- INIT is admitted whether Unbound or Bound, and drives no pin before it has made it an output. -/
theorem exec_init_of_idle {s : State} (hi : s.seq = .idle) :
    exec .init s = .next (throwawayRead (bindPins (applyBusCfg (accept s)))) := by
  rw [exec_init, admitted_of_idle (nb := false) hi nofun]

/-! ### INIT with its answers lined up -/

/-- A throwaway read that has ended is answered by its status alone. -/
theorem throwawayRead_ended {s t : State} {r : Status × Measurement}
    (h : readAxisBody initAxis initPeriod useDefault s = (some r, t)) : throwawayRead s = respond (initResponse r.1) t := by
  rw [throwawayRead, h]

/-- Settles O45: the throwaway read is ready at its first sample. -/
theorem initCompletes : Obligations.InitCompletes := by
  intro s received hi lo bs g gs ls hidle hbus hgap hlevel
  have hread := readAxisBody_ready (rank := initPeriod) (s := bindPins (applyBusCfg (accept s))) initAxis useDefault rfl
    hbus hgap hlevel
  rw [exec_init_of_idle hidle, throwawayRead_ended hread, respond, ← hidle]
  rfl

/-! ### INIT whatever the answers -/

/-- How INIT can end (45_initialization.md R147, R148), or that its poll goes on with the response that stood. -/
def InitEnd (standing : Option Response) (t : State) : Prop :=
  (t.seq = .idle ∧ t.response = some { status := .ok, success := true } ∧ t.csLvl = .drive .high) ∨
    (t.seq = .idle ∧ t.response = some { status := .timeout, success := false } ∧ t.csLvl = .drive .low) ∨
    (t.seq = .busy (.iRead (.wait .aSample)) ∧ t.response = standing ∧ t.csLvl = .drive .low)

theorem InitEnd.csDriven {standing : Option Response} {t : State} (h : InitEnd standing t) : t.csLvl ≠ .z := by
  rcases h with ⟨-, -, hcs⟩ | ⟨-, -, hcs⟩ | ⟨-, -, hcs⟩ <;> rw [hcs] <;> exact nofun

/-- The throwaway read adds to the trace and leaves RESET low; each of its three outcomes is one of INIT's. -/
theorem throwawayRead_spec (s : State) :
    (∃ later, (throwawayRead s).trace = s.trace ++ later) ∧ RstLow (throwawayRead s) ∧
      InitEnd s.response (throwawayRead s) := by
  obtain ⟨_, htr, hrst, -, -, hout⟩ := readAxisBody_spec (rank := initPeriod) initAxis useDefault s rfl
  rcases throwawayRead_cases s with ⟨r, hr, e⟩ | ⟨hn, e⟩ <;> rw [e] <;> refine ⟨⟨_, htr⟩, hrst, ?_⟩
  · rcases hout with ⟨_, _, _, _, hok, hcs, -⟩ | ⟨hto, hcs, -⟩ | ⟨hpolls, -⟩
    · cases hr.symm.trans hok
      exact .inl ⟨rfl, rfl, hcs⟩
    · cases hr.symm.trans hto
      exact .inr (.inl ⟨rfl, rfl, hcs⟩)
    · cases hr.symm.trans hpolls
  · rcases hout with ⟨_, _, _, _, hok, -⟩ | ⟨hto, -⟩ | ⟨-, hcs, -⟩
    · cases hn.symm.trans hok
    · cases hn.symm.trans hto
    · exact .inr (.inr ⟨rfl, readAxisBody_response _ _ _ _, hcs⟩)

/-- The throwaway read leaves what every part of a request leaves. -/
theorem throwawayRead_quiet (s : State) : Quiet s (throwawayRead s) := by
  obtain ⟨-, hrst, hend⟩ := throwawayRead_spec s
  have hrstDriven : (throwawayRead s).rstLvl ≠ .z := by rw [hrst]; exact nofun
  constructor
  case csDriven => exact fun _ => hend.csDriven
  case rstDriven => exact fun _ => hrstDriven
  all_goals rcases throwawayRead_cases s with ⟨_, -, e⟩ | ⟨-, e⟩ <;> simp [e]

/-- INIT's bus configuration and binding make the pins bound (45_initialization.md R145, R146). -/
theorem pinsBound_bindPins_applyBusCfg (s : State) : PinsBound (bindPins (applyBusCfg s)) :=
  ⟨rfl, rfl, rfl, nofun, nofun, rfl⟩

/-- Settles O46: the read starts on bound pins and on the trace of the binding, and leaves them, the samples and VALID. -/
theorem initOutcomes : Obligations.InitOutcomes := by
  intro s hidle
  obtain ⟨htrace, hrst, hend⟩ := throwawayRead_spec (bindPins (applyBusCfg (accept s)))
  have hquiet := throwawayRead_quiet (bindPins (applyBusCfg (accept s)))
  exact ⟨_, exec_init_of_idle hidle, hquiet.pinsBound (pinsBound_bindPins_applyBusCfg _), hquiet.bind, hrst, hquiet.sx,
    hquiet.sy, hquiet.sz, hquiet.valid, htrace, hend⟩

end Sys2Proof.Proofs
end

section
/-! An error ends its request and never stops the block: from every state of the invariant a step answers
(60_exceptions.md R158, R160). -/

namespace Sys2Proof.Proofs

open Sys2Proof.Machine Sys2Proof.Safety Sys2Proof.Laws

/-- A request in an IDLE block answers if its body does where it is admitted: it is rejected otherwise. -/
theorem admitted_answers {nb : Bool} {s : State} {body : State → Result} (hi : s.seq = .idle)
    (h : (nb = true → s.bind = .bound) → ∃ t, body (accept s) = .next t) : ∃ t, admitted nb s body = .next t := by
  cases nb with
  | false =>
    rw [admitted_of_idle (nb := false) hi nofun]
    exact h nofun
  | true =>
    cases hb : s.bind with
    | unbound => exact ⟨_, admitted_unbound hi hb⟩
    | bound =>
      rw [admitted_of_idle hi fun _ => hb]
      exact h fun _ => hb

/-- A request in an IDLE block answers, if a Bound block's driven pins are outputs: INIT makes them so itself, and
ENCODE drives none. -/
theorem exec_request_answers {s : State} {i : Instr} (hr : IsRequest i) (hi : s.seq = .idle)
    (hpins : s.bind = .bound → pinsOutput s = true) : ∃ t, exec i s = .next t := by
  rcases hr with (⟨axis, rank, rfl⟩ | ⟨rank, tmo, rfl⟩ | rfl | ⟨axis, rank, tmo, rfl⟩ | rfl) | ⟨axis, rank, rfl⟩ | rfl
  · rw [exec_trigger]
    exact admitted_answers hi fun hb => ⟨_, guardPins_of_output (hpins (hb rfl))⟩
  · rw [exec_await]
    refine admitted_answers hi fun _ => ?_
    split <;> exact ⟨_, rfl⟩
  · rw [exec_readResult]
    exact admitted_answers hi fun hb => ⟨_, guardPins_of_output (hpins (hb rfl))⟩
  · rw [exec_readAxis]
    refine admitted_answers hi fun hb => ?_
    rw [guardPins_of_output (s := accept s) (hpins (hb rfl))]
    split <;> exact ⟨_, rfl⟩
  · rw [exec_sampleAll]
    exact admitted_answers hi fun hb => ⟨_, guardPins_of_output (hpins (hb rfl))⟩
  · rw [exec_encode]
    refine admitted_answers hi fun _ => ?_
    cases encodeCommand axis rank <;> exact ⟨_, rfl⟩
  · exact ⟨_, exec_init_of_idle hi⟩

theorem step_noRequest {s : State} (hi : s.seq = .idle) (hr : s.requests = []) : step s = .next s := by
  simp [step, fetch, hi, hr]

/-- A BUSY block of the invariant runs its phase: CMD is a legal command where it is sent, and the pin driven is an
output. -/
theorem step_busy_of_inv {s : State} {ph : Phase} (hinv : Inv s) (hs : s.seq = .busy ph) :
    step s = .next (phaseNext ph s) :=
  step_phase hs (legalCommand_of_inv hinv hs) (List.all_eq_true.2 fun _ hp => phaseDrives_isOutput hinv hs hp)

/-- Settles O51: a BUSY block runs its phase; an IDLE one waits, rejects what does not decode, or answers the rest. -/
theorem stepNeverStops : Obligations.StepNeverStops := by
  intro s hinv
  cases hs : s.seq with
  | busy ph => exact ⟨_, step_busy_of_inv hinv hs⟩
  | idle =>
    cases hr : s.requests with
    | nil => exact ⟨s, step_noRequest hs hr⟩
    | cons r rest =>
      by_cases hd : Decodes r
      · have hdec := decodeRequest_of_decodes hd
        rw [step_request hs hr hdec]
        exact exec_request_answers (s := { s with requests := rest }) (decodeRequest_isRequest hdec) hs
          fun hb => pinsOutput_of_bound (hinv.boundPins hb)
      · exact ⟨_, step_undecoded hs hr hd⟩

end Sys2Proof.Proofs
end

section
/-! InvalidPeriod: the answer for a rank out of range, before anything happens, and for nothing else
(60_exceptions.md R156). -/

namespace Sys2Proof.Proofs

open Sys2Proof.Machine Sys2Proof.Safety Sys2Proof.Laws

/-! ### Requests of a rank out of range -/

theorem exec_await_outOfRange {s : State} {rank : Byte} (tmo : Word32) (hi : s.seq = .idle) (hb : s.bind = .bound)
    (h : rankOutOfRange rank = true) :
    exec (.await rank tmo) s = .next { s with trace := [], response := some { status := .invalidPeriod } } := by
  rw [exec_await, admitted_of_idle hi fun _ => hb, awaitBody_outOfRange tmo _ h, ← respond_accept _ hi]
  rfl

/-- A single-axis read whose trigger's encoder fails drives no pin (44_axis_sequencer.md R125). -/
theorem exec_readAxis_outOfRange {s : State} {rank : Byte} (axis : Axis) (tmo : Word32) (hi : s.seq = .idle)
    (hb : s.bind = .bound) (h : rankOutOfRange rank = true) :
    exec (.readAxis axis rank tmo) s = .next { s with trace := [], response := some { status := .invalidPeriod } } := by
  have hpins : (triggerDrives rank).all (isOutput (accept s)) = true :=
    triggerDrives_all.2 fun hin => absurd (h.symm.trans hin) nofun
  rw [exec_readAxis, admitted_of_idle hi fun _ => hb, guardPins_of_all hpins, readAxisBody_outOfRange axis tmo _ h,
    ← respond_accept _ hi]
  rfl

/-! ### Every other request -/

/-- A response that stands is not InvalidPeriod. -/
def NotInvalid (t : State) : Prop := ∀ r, t.response = some r → r.status ≠ .invalidPeriod

theorem notInvalid_respond {r : Response} (s : State) (h : r.status ≠ .invalidPeriod) : NotInvalid (respond r s) := by
  intro q hq
  cases hq
  exact h

theorem notInvalid_of_none {t : State} (h : t.response = none) : NotInvalid t :=
  fun _ hr => absurd (h.symm.trans hr) nofun

theorem notInvalid_reject (s : State) : NotInvalid (reject s) := notInvalid_respond _ nofun

theorem awaitPoll_ne_invalidPeriod {rank : Byte} {tmo : Word32} {s : State} {st : Status}
    (h : (awaitPoll rank tmo s).1 = some st) : st ≠ .invalidPeriod := by
  rcases pollLoop_status (s.drdyIn.length - 1 + 1) (startPoll rank tmo (accept s)) with e | e | e <;>
    cases h.symm.trans e <;> exact nofun

/-- A single-axis read of a rank in range that has ended was OK or timed out. -/
theorem readAxisBody_ne_invalidPeriod {axis : Axis} {rank : Byte} {tmo : Word32} {s : State} {r : Status × Measurement}
    (hk : rankOutOfRange rank = false) (h : (readAxisBody axis rank tmo s).1 = some r) : r.1 ≠ .invalidPeriod := by
  rcases readAxisBody_status axis rank tmo s r h with ⟨hout, -⟩ | ⟨-, hok | rfl⟩
  · cases hk.symm.trans hout
  · rw [hok]; exact nofun
  · exact nofun

/-- A pass that begins without a response ends with OK or is still without one (44_axis_sequencer.md R127). -/
theorem sampleFrom_notInvalid (ks : List Axis) {s : State} (h : s.response = none) : NotInvalid (sampleFrom ks s) := by
  induction ks generalizing s with
  | nil => exact notInvalid_respond _ nofun
  | cons k ks ih =>
    rcases sampleFrom_cons k ks s with ⟨r, -, e⟩ | ⟨-, e⟩ <;> rw [e]
    · exact ih (by simpa using h)
    · exact notInvalid_of_none (by simpa using h)

/-- INIT's read is of rank 0 (45_initialization.md R146). -/
theorem throwawayRead_notInvalid {s : State} (h : s.response = none) : NotInvalid (throwawayRead s) := by
  rcases throwawayRead_cases s with ⟨r, hr, e⟩ | ⟨-, e⟩ <;> rw [e]
  · exact notInvalid_respond _ (readAxisBody_ne_invalidPeriod (rank := initPeriod) rfl hr)
  · exact notInvalid_of_none (by simpa using h)

section
variable {s t : State} {axis : Axis} {rank : Byte} {tmo : Word32} (hk : rankOutOfRange rank = false)
include hk

theorem exec_encode_notInvalid (h : exec (.encode axis rank) s = .next t) : NotInvalid t := by
  obtain ⟨-, ⟨hout, -⟩ | ⟨-, rfl⟩⟩ := exec_encode_next h
  · cases hk.symm.trans hout
  · exact notInvalid_respond _ nofun

theorem exec_trigger_notInvalid (h : exec (.trigger axis rank) s = .next t) : NotInvalid t := by
  obtain ⟨-, ⟨-, rfl⟩ | ⟨-, hout, -⟩ | ⟨-, -, -, rfl⟩⟩ := exec_trigger_next h
  · exact notInvalid_reject s
  · cases hk.symm.trans hout
  · exact notInvalid_respond _ nofun

theorem exec_await_notInvalid (h : exec (.await rank tmo) s = .next t) : NotInvalid t := by
  obtain ⟨-, ⟨-, rfl⟩ | ⟨-, hout, -⟩ | ⟨-, -, ⟨st, hst, rfl⟩ | ⟨-, rfl⟩⟩⟩ := exec_await_next h
  · exact notInvalid_reject s
  · cases hk.symm.trans hout
  · exact notInvalid_respond _ (awaitPoll_ne_invalidPeriod hst)
  · exact notInvalid_of_none (awaitPoll_response rank tmo s)

theorem exec_readAxis_notInvalid (h : exec (.readAxis axis rank tmo) s = .next t) : NotInvalid t := by
  obtain ⟨-, ⟨-, rfl⟩ | ⟨-, -, ⟨r, hr, rfl⟩ | ⟨-, rfl⟩⟩⟩ := exec_readAxis_next h
  · exact notInvalid_reject s
  · exact notInvalid_respond _ (readAxisBody_ne_invalidPeriod hk hr)
  · exact notInvalid_of_none (readAxisBody_response _ _ _ _)

end

theorem exec_readResult_notInvalid {s t : State} (h : exec .readResult s = .next t) : NotInvalid t := by
  obtain ⟨-, ⟨-, rfl⟩ | ⟨-, -, rfl⟩⟩ := exec_readResult_next h
  · exact notInvalid_reject s
  · exact notInvalid_respond _ nofun

theorem exec_sampleAll_notInvalid {s t : State} (h : exec .sampleAll s = .next t) : NotInvalid t := by
  obtain ⟨-, ⟨-, rfl⟩ | ⟨-, -, rfl⟩⟩ := exec_sampleAll_next h
  · exact notInvalid_reject s
  · exact sampleFrom_notInvalid axisOrder rfl

theorem exec_init_notInvalid {s t : State} (h : exec .init s = .next t) : NotInvalid t := by
  obtain ⟨-, rfl⟩ := exec_init_next h
  exact throwawayRead_notInvalid rfl

/-- Settles O12: out of range the encoder or the poll fails at once, and no other part of a request fails so. -/
theorem invalidPeriodExactly : Obligations.InvalidPeriodExactly := by
  refine ⟨fun s axis rank tmo i hi hb hge hcases => ?outOfRange, fun s t axis rank tmo i hle hcases h => ?others⟩
  case outOfRange =>
    have hout := rankOutOfRange_of_ge hge
    rcases hcases with rfl | rfl | rfl | rfl
    · exact exec_encode_outOfRange axis hi hout
    · exact exec_trigger_outOfRange axis hi hb hout
    · exact exec_await_outOfRange tmo hi hb hout
    · exact exec_readAxis_outOfRange axis tmo hi hb hout
  case others =>
    have hk := rankOutOfRange_of_le hle
    rcases hcases with rfl | rfl | rfl | rfl | rfl | rfl | rfl
    · exact exec_encode_notInvalid hk h
    · exact exec_trigger_notInvalid hk h
    · exact exec_await_notInvalid hk h
    · exact exec_readAxis_notInvalid hk h
    · exact exec_readResult_notInvalid h
    · exact exec_sampleAll_notInvalid h
    · exact exec_init_notInvalid h

end Sys2Proof.Proofs
end

section
/-! The timer: the true time never goes back, a sample shows it modulo 2^32, and a Delay lasts (60_exceptions.md R170,
R171). -/

namespace Sys2Proof.Proofs

open Sys2Proof.Machine Sys2Proof.Safety Sys2Proof.Laws

theorem trigPhase_tau_le (axis : Axis) (rank : Byte) (p : TrigPhase) (s : State) :
    s.tau ≤ (trigPhase axis rank p s).2.tau := by
  cases p with
  | tCheck =>
    rw [trigPhase]
    cases encodeCommand axis rank <;> exact le_rfl
  | tHold => exact Nat.le_add_right _ _
  | tSel | tRstHi | tRstLo | tCmd => exact le_rfl

theorem waitPhase_tau_le (rank : Byte) (tmo : Word32) (p : WaitPhase) (s : State) :
    s.tau ≤ (waitPhase rank tmo p s).2.tau := by
  obtain ⟨-, -, -, -, -, -, -, -, -, -, -, -, htau, -⟩ := waitPhase_same rank tmo p s
  exact htau

theorem readPhase_tau (p : ReadPhase) (s : State) : (readPhase p s).2.tau = s.tau := by cases p <;> rfl

theorem axisPhase_tau_le (axis : Axis) (rank : Byte) (tmo : Word32) (p : AxisPhase) (s : State) :
    s.tau ≤ (axisPhase axis rank tmo p s).2.tau := by
  rw [axisPhase_snd]
  cases p with
  | trig q => exact trigPhase_tau_le axis rank q s
  | wait q => exact waitPhase_tau_le rank tmo q s
  | read q => exact (readPhase_tau q s).ge

/-- What follows a phase of a part takes no time, if taking up the part's result takes none. -/
theorem tau_le_onward {P R : Type} {go : P → Phase} {fin : R → State → State} {s : State} {o : Onward P R × State}
    (h : s.tau ≤ o.2.tau) (hfin : ∀ r t, (fin r t).tau = t.tau) : s.tau ≤ (onward go fin o).tau := by
  obtain ⟨p | r, t⟩ := o
  · exact h
  · exact h.trans (hfin r t).ge

theorem bindPhase_tau (p : BindPhase) (s : State) : (bindPhase p s).tau = s.tau := by cases p <;> rfl

/-- A phase does not go back in time (60_exceptions.md R170). -/
theorem phaseNext_tau_le (ph : Phase) (s : State) : s.tau ≤ (phaseNext ph s).tau := by
  cases ph with
  | trigger axis rank p =>
    rw [phaseNext_trigger]
    exact tau_le_onward (trigPhase_tau_le axis rank p s) fun _ _ => rfl
  | await rank tmo p =>
    rw [phaseNext_await]
    exact tau_le_onward (waitPhase_tau_le rank tmo p s) fun _ _ => rfl
  | readResult p =>
    rw [phaseNext_readResult]
    exact tau_le_onward (readPhase_tau p s).ge fun _ _ => rfl
  | readAxis axis rank tmo p =>
    rw [phaseNext_readAxis]
    exact tau_le_onward (axisPhase_tau_le axis rank tmo p s) fun _ _ => rfl
  | sAxis k p =>
    rw [phaseNext_sAxis]
    exact tau_le_onward (axisPhase_tau_le k _ _ p s) fun r t => latchAxis_tau t k r
  | iRead p =>
    rw [phaseNext_iRead]
    exact tau_le_onward (axisPhase_tau_le _ _ _ p s) fun _ _ => rfl
  | iBind p => exact (bindPhase_tau p s).ge
  | sSettle => exact Nat.le_add_right _ _
  | sInit | sSel | sCfg | sDesel | iCfg => exact le_rfl

theorem step_tau_le {s t : State} (h : step s = .next t) : s.tau ≤ t.tau := by
  rcases step_kinds h with ⟨-, ht⟩ | ⟨r, rest, i, ph, -, -, -, -, -, hreach⟩ | ⟨ph, -, rfl⟩
  · exact (congrArg State.tau ht).ge
  · exact hreach.keeps (P := fun u => s.tau ≤ u.tau) (fun u ph _ _ hu => hu.trans (phaseNext_tau_le ph u)) le_rfl
  · exact phaseNext_tau_le ph s

theorem now_tau_le (s : State) : s.tau ≤ (now s).2.tau := Nat.le_add_right _ _

/-- Settles O57: every phase takes time or none, a sample is taken after its gap, and a Delay is over before the next
one. -/
theorem timeOnlyAdvances : Obligations.TimeOnlyAdvances :=
  ⟨fun _ _ => step_tau_le, fun s => ⟨now_tau_le s, timerCount_toNat _⟩, fun s us => now_tau_le (delay us (now s).2)⟩

end Sys2Proof.Proofs
end

section
/-! Before the first INIT: an IDLE block waits for the host, and an Unbound one admits only ENCODE and INIT
(70_reset_and_hazards.md R186, R187). -/

namespace Sys2Proof.Proofs

open Sys2Proof.Machine Sys2Proof.Safety Sys2Proof.Laws

/-- Settles O8: reset is an IDLE state with no request, and such a state has nothing to fetch. -/
theorem idleBlockWaits : Obligations.IdleBlockWaits :=
  ⟨rfl, step_noRequest rfl rfl, fun _ => step_noRequest⟩

theorem not_needsBound_init : ¬ NeedsBound .init := by simp [NeedsBound]

theorem not_needsBound_encode (axis : Axis) (rank : Byte) : ¬ NeedsBound (.encode axis rank) := by simp [NeedsBound]

/-- A request that needs no bound pins answers in every IDLE Unbound state, and not with REJECTED. -/
theorem exec_unbound_admitted {s : State} {i : Instr} (hi : s.seq = .idle) (hu : s.bind = .unbound) (hr : IsRequest i)
    (hn : ¬ NeedsBound i) : ∃ t, exec i s = .next t ∧ t.response ≠ some { status := .rejected } := by
  obtain ⟨t, ht⟩ := exec_request_answers hr hi fun hb => nomatch hb.symm.trans hu
  exact ⟨t, ht, exec_response_ne_rejected hr (absurd · hn) ht⟩

/-- Settles O48: the five requests need bound pins and are rejected, ENCODE and INIT need none. -/
theorem unboundAdmitsEncodeAndInit : Obligations.UnboundAdmitsEncodeAndInit := by
  refine fun s i hi hu => ⟨fun hn => ?rejected, ?admitted⟩
  case rejected => rw [exec_needsBound_unbound hi hu hn, reject_eq s hi]
  case admitted =>
    rintro (rfl | ⟨axis, rank, rfl⟩)
    · exact exec_unbound_admitted hi hu (.inr (.inr rfl)) not_needsBound_init
    · exact exec_unbound_admitted hi hu (.inr (.inl ⟨axis, rank, rfl⟩)) (not_needsBound_encode axis rank)

end Sys2Proof.Proofs
end

section
/-! How long requests last at least: a reset pulse for each trigger, more than the resolved timeout for each poll that
expires, and SAMPLE_ALL's settling (70_reset_and_hazards.md R199). -/

namespace Sys2Proof.Proofs

open Sys2Proof.Machine Sys2Proof.Safety Sys2Proof.Laws

/-- A single-axis read lasts at least its reset pulse if it was OK, and more than its resolved timeout after the pulse if
it timed out. -/
theorem readAxisBody_lasts {axis : Axis} {rank : Byte} {tmo : Word32} {s : State} {r : Status × Measurement}
    (h : (readAxisBody axis rank tmo s).1 = some r) :
    (r.1 = .ok → s.tau + 1 ≤ (readAxisBody axis rank tmo s).2.tau) ∧
      (r.1 = .timeout →
        s.tau + 1 + (resolveTimeout (rankOf rank) tmo).toNat < (readAxisBody axis rank tmo s).2.tau) := by
  rcases readAxisBody_status axis rank tmo s r h with ⟨-, rfl⟩ | ⟨hk, -⟩
  · exact ⟨nofun, nofun⟩
  · obtain ⟨-, -, -, -, hpulse, ⟨_, _, _, _, hok, -⟩ | ⟨-, -, -, hlate, -⟩ | ⟨hn, -⟩⟩ := readAxisBody_spec axis tmo s hk
    · cases h.symm.trans hok
      exact ⟨fun _ => hpulse, nofun⟩
    · exact ⟨fun _ => hpulse, fun _ => hlate⟩
    · cases h.symm.trans hn

/-- Settles O36: the answer is the body's result, and presenting it takes no time. -/
theorem readAxisDuration : Obligations.ReadAxisDuration := by
  intro s t axis rank tmo hb h
  refine ⟨fun q hq hst => ?ok, fun q hq hst => ?timeout⟩ <;> obtain ⟨r, hr, rfl, rfl⟩ := exec_readAxis_response hb h hq
  case ok => exact (readAxisBody_lasts hr).1 hst
  case timeout => exact (readAxisBody_lasts hr).2 hst

/-- A read of a pass that times out lasts its reset pulse and a count of at least 502 (42_ready_poll.md R105). -/
theorem readAxisBody_sampled_timeout_lasts {k : Axis} {s : State} {r : Status × Measurement}
    (h : (readAxisBody k samplePeriod useDefault s).1 = some r) (hst : r.1 = .timeout) :
    s.tau + 503 ≤ (readAxisBody k samplePeriod useDefault s).2.tau := by
  have hdefault : (resolveTimeout (rankOf samplePeriod) useDefault).toNat = 501 := rfl
  have hlate := (readAxisBody_lasts h).2 hst
  omega

/-- An ended pass of `ok` reads that were OK and `late` reads that timed out took two result bytes for each of the first,
and lasted at least 1 us for each of the first and 503 us for each of the second. -/
theorem sampleFrom_lasts {ks : List Axis} {s : State} (h : (sampleFrom ks s).seq = .idle) :
    ∃ ok late, ok + late = ks.length ∧
      (resultBytesOf (sampleFrom ks s).trace).length = (resultBytesOf s.trace).length + 2 * ok ∧
      s.tau + ok + 503 * late ≤ (sampleFrom ks s).tau := by
  induction ks generalizing s with
  | nil => exact ⟨0, 0, rfl, by simp [sampleFrom, closeSample, resultBytesOf], by simp [sampleFrom, closeSample]⟩
  | cons k ks ih =>
    obtain ⟨r, hr, e⟩ := sampleFrom_cons_ended h
    obtain ⟨ev, htr, -, hread⟩ := readAxisBody_sampled hr
    rw [e] at h ⊢
    obtain ⟨ok, late, hcount, hbytes, htau⟩ := ih h
    rw [latchAxis_trace, htr, resultBytesOf_append, List.length_append] at hbytes
    rw [latchAxis_tau] at htau
    rw [List.length_cons]
    rcases hread with ⟨hok, hev⟩ | ⟨hto, hev⟩
    · have hlasts := (readAxisBody_lasts hr).1 hok
      exact ⟨ok + 1, late, by omega, by omega, by linarith⟩
    · have hlasts := readAxisBody_sampled_timeout_lasts hr hto
      rw [hev, List.length_nil] at hbytes
      exact ⟨ok, late + 1, by omega, by omega, by linarith⟩

/-- Settles O44: settling, then three reads, none of which was OK if no result byte was transferred. -/
theorem sampleAllDuration : Obligations.SampleAllDuration := by
  intro s t hb h hend
  obtain rfl := exec_sampleAll_pass hb h
  obtain ⟨ok, late, hcount, hbytes, htau⟩ := sampleFrom_lasts hend
  have hthree : axisOrder.length = 3 := rfl
  have hnone : (resultBytesOf (openSample (accept s)).trace).length = 0 := rfl
  have hsettled : (openSample (accept s)).tau = s.tau + 2000 := rfl
  refine ⟨by omega, fun hno => ?_⟩
  rw [hno, List.length_nil] at hbytes
  omega

end Sys2Proof.Proofs
end
